-- ==== Sys2Proof/Word.lean ====
section
/-! DEFINITION. The words of the RDX block: a byte, the 32-bit data path and the 16-bit byte address of the
host bus (20_memory.md R60), and the little-endian split of a word into bytes (R65). -/

namespace Sys2Proof

/-- A `u8` buffer element. -/
abbrev Byte := BitVec 8

/-- A word of the 32-bit data path. -/
abbrev Word := BitVec 32

/-- A byte address of the host bus. -/
abbrev BusAddr := BitVec 16

/-- The word whose bytes, from the lowest address up, are `b0 b1 b2 b3` (little-endian). -/
def wordOfBytes (b0 b1 b2 b3 : Byte) : Word := b3 ++ b2 ++ b1 ++ b0

/-- The four bytes of a word, lowest address first. -/
def bytesOfWord (w : Word) : List Byte :=
  [w.extractLsb' 0 8, w.extractLsb' 8 8, w.extractLsb' 16 8, w.extractLsb' 24 8]

/-- The two bytes of a halfword, lowest address first. -/
def bytesOfHalf (h : BitVec 16) : List Byte :=
  [h.extractLsb' 0 8, h.extractLsb' 8 8]

end Sys2Proof
end

