-- ==== Sys2Proof/Syntax.lean ====
section
/-! DEFINITION. The command set of 30_encoding.md R93: one constructor per row of spec/opcode_table.json. An operand is
the number `zext_8(w[15:8])` of R92. -/

namespace Sys2Proof

/-- A command of the RDX block (30_encoding.md R93). -/
inductive Instr where
  /-- `NOP` (40_control.md R113). -/
  | nop
  /-- `RD_INIT` (41_range_decoder.md R132). -/
  | rdInit
  /-- `RD_ICDF off`: the table starts at `TRAM[off]` (41_range_decoder.md R142). -/
  | rdIcdf (off : Nat)
  /-- `RD_BITS n`: `n` raw bits (41_range_decoder.md R143). -/
  | rdBits (n : Nat)
  /-- `RD_BITLOGP logp`: one bit of probability `2^-logp` (41_range_decoder.md R144). -/
  | rdBitlogp (logp : Nat)
  /-- `RD_CLOSE` (41_range_decoder.md R145). -/
  | rdClose
  /-- `EXC_SEED` (42_excitation.md R161). -/
  | excSeed
  /-- `EXC_DECODE` (42_excitation.md R168). -/
  | excDecode
  /-- `EXC_RECON` (42_excitation.md R170). -/
  | excRecon
  /-- `GAIN_DEQ` (43_synthesis.md R200). -/
  | gainDeq
  /-- `LPC_SYNTH k`: subframe `k` (43_synthesis.md R201). -/
  | lpcSynth (k : Nat)
  /-- `GAIN_SCALE k` (43_synthesis.md R202). -/
  | gainScale (k : Nat)
  /-- `SYN_SUBFR k` (43_synthesis.md R203). -/
  | synSubfr (k : Nat)
  /-- `SYN_RESET` (43_synthesis.md R204). -/
  | synReset
deriving DecidableEq, Repr

/-- The operand of a format `A` command, 0 for a format `N` command (30_encoding.md R91, R92). -/
def Instr.operand : Instr → Nat
  | .nop | .rdInit | .rdClose | .excSeed | .excDecode | .excRecon | .gainDeq | .synReset => 0
  | .rdIcdf off => off
  | .rdBits n => n
  | .rdBitlogp logp => logp
  | .lpcSynth k | .gainScale k | .synSubfr k => k

/-- Why a command word is illegal (30_encoding.md R94). The hardware reports all three as ILLCMD. -/
inductive DecodeError where
  /-- `OP` is not in the table of R93. -/
  | reservedOpcode
  /-- `RSV` is not 0. -/
  | reservedBits
  /-- The format is `N` and `A` is not 0. -/
  | operandOfFormatN
deriving DecidableEq, Repr

end Sys2Proof
end

