-- ==== Sys2Proof/WellFormed.lean ====
section
/-! DEFINITION. Which terms of `Instr` are commands: the operand fits the 8-bit field A (30_encoding.md R90, R92). The
legal range of an operand is no matter of encoding: R92 has a command reject a value outside it (BADARG, TBLERR). -/

namespace Sys2Proof

/-- The operand fits the field A of the command word (30_encoding.md R90). -/
def Instr.wellFormed (i : Instr) : Bool := decide (i.operand < 256)

end Sys2Proof
end

