-- ==== Sys2Proof/Decode.lean ====
section
/-! DEFINITION. Command words to commands and back (30_encoding.md R90 to R94). -/

namespace Sys2Proof

/-- The field `OP` = `w[7:0]` (30_encoding.md R90). -/
def opField (w : Word) : Byte := w.extractLsb' 0 8

/-- The field `A` = `w[15:8]` (30_encoding.md R90). -/
def aField (w : Word) : Byte := w.extractLsb' 8 8

/-- The field `RSV` = `w[31:16]` (30_encoding.md R90). -/
def rsvField (w : Word) : BitVec 16 := w.extractLsb' 16 16

/-- A format `N` word: `A` must be 0 (30_encoding.md R91). -/
def formatN (w : Word) (i : Instr) : Except DecodeError Instr :=
  if aField w = 0 then .ok i else .error .operandOfFormatN

/-- A format `A` word: `A` is the operand, zero-extended (30_encoding.md R91, R92). -/
def formatA (w : Word) (i : Nat → Instr) : Except DecodeError Instr :=
  .ok (i (aField w).toNat)

/-- The command of a word, or why it is illegal (30_encoding.md R93, R94). -/
def decode (w : Word) : Except DecodeError Instr :=
  if rsvField w ≠ 0 then .error .reservedBits
  else match (opField w).toNat with
    | 0x00 => formatN w .nop
    | 0x01 => formatN w .rdInit
    | 0x02 => formatA w .rdIcdf
    | 0x03 => formatA w .rdBits
    | 0x04 => formatA w .rdBitlogp
    | 0x05 => formatN w .rdClose
    | 0x10 => formatN w .excSeed
    | 0x11 => formatN w .excDecode
    | 0x12 => formatN w .excRecon
    | 0x20 => formatN w .gainDeq
    | 0x21 => formatA w .lpcSynth
    | 0x22 => formatA w .gainScale
    | 0x23 => formatA w .synSubfr
    | 0x24 => formatN w .synReset
    | _ => .error .reservedOpcode

/-- The opcode of a command (30_encoding.md R93). -/
def Instr.opcode : Instr → Byte
  | .nop => 0x00#8
  | .rdInit => 0x01#8
  | .rdIcdf _ => 0x02#8
  | .rdBits _ => 0x03#8
  | .rdBitlogp _ => 0x04#8
  | .rdClose => 0x05#8
  | .excSeed => 0x10#8
  | .excDecode => 0x11#8
  | .excRecon => 0x12#8
  | .gainDeq => 0x20#8
  | .lpcSynth _ => 0x21#8
  | .gainScale _ => 0x22#8
  | .synSubfr _ => 0x23#8
  | .synReset => 0x24#8

/-- The command word `RSV || A || OP` of a command, `(a << 8) | OP(M)` (30_encoding.md R90, R96). -/
def encode (i : Instr) : Word := (0#16) ++ (BitVec.ofNat 8 i.operand) ++ i.opcode

/-- The command of the table word `w` of `nbits` bits: one 32-bit word, bits above `nbits` 0. -/
def decodeTableWord (nbits w : Nat) : Option Instr :=
  match decode (BitVec.ofNat 32 (w % 2 ^ nbits)) with
  | .ok i => some i
  | .error _ => none

end Sys2Proof
end

