-- ==== Sys2Proof/Machine/Arith.lean ====
section
/-! DEFINITION. The integer primitives of 00_scope.md R11 and R15 to R19, on mathematical integers, each narrowed at
the end as its rule says. Division by a positive power of two rounds toward minus infinity (R12). -/

namespace Sys2Proof.Machine

/-- `s32(v)`: `v mod 2^32` read as a two's-complement value (R11). -/
def s32 (v : Int) : Int := Int.bmod v (2 ^ 32)

/-- `s16(v)`: likewise for 16 bits (R11). -/
def s16 (v : Int) : Int := Int.bmod v (2 ^ 16)

/-- `SMULWB(a, b)` (R15). -/
def smulwb (a b : Int) : Int := s32 (a * s16 b / 2 ^ 16)

/-- `SMLAWB(a, b, c)` (R15). -/
def smlawb (a b c : Int) : Int := s32 (a + b * s16 c / 2 ^ 16)

/-- `SMULWW(a, b)` (R15). -/
def smulww (a b : Int) : Int := s32 (a * b / 2 ^ 16)

/-- `SMMUL(a, b)` (R15). -/
def smmul (a b : Int) : Int := s32 (a * b / 2 ^ 32)

/-- `SAT16(x)` (R16). -/
def sat16 (x : Int) : Int := min 32767 (max (-32768) x)

/-- `SAT32(x)` (R16). -/
def sat32 (x : Int) : Int := min (2 ^ 31 - 1) (max (-(2 ^ 31)) x)

/-- `ADD_SAT32(a, b)` (R16). -/
def addSat32 (a b : Int) : Int := sat32 (a + b)

/-- `LSHIFT_SAT32(a, s)`: clamps before shifting (R16). -/
def lshiftSat32 (a : Int) (s : Nat) : Int :=
  min ((2 ^ 31 - 1) / 2 ^ s) (max (-(2 ^ 31) / 2 ^ s) a) * 2 ^ s

/-- `RSHIFT_ROUND(a, s)`, `s >= 1` (R16). -/
def rshiftRound (a : Int) (s : Nat) : Int := (a / 2 ^ (s - 1) + 1) / 2

/-- `DIV32_16(a, b)`: truncation toward zero, `b != 0` (R17). -/
def div32_16 (a b : Int) : Int := a.sign * b.sign * ((a.natAbs / b.natAbs : Nat) : Int)

/-- `ILOG(x)`, the number of bits of `x`; `ILOG(0) = 0` (R17). -/
def ilog (x : Nat) : Nat := if x = 0 then 0 else Nat.log2 x + 1

/-- `CLZ32(x)` (R17). -/
def clz32 (x : Nat) : Nat := 32 - ilog x

/-- `DIV32_varQ(a, b, Q)`, for `a, b > 0` (R19). -/
def div32VarQ (a b : Int) (q : Nat) : Int :=
  let ah := clz32 a.natAbs - 1
  let an := s32 (a * 2 ^ ah)
  let bh := clz32 b.natAbs - 1
  let bn := s32 (b * 2 ^ bh)
  let binv := div32_16 ((2 ^ 31 - 1) / 2 ^ 2) (bn / 2 ^ 16)
  let res := smulwb an binv
  let an' := s32 (an - s32 (smmul bn res * 2 ^ 3))
  let res' := smlawb res an' binv
  let sh : Int := 29 + ah - bh - q
  if sh < 0 then lshiftSat32 res' (-sh).toNat
  else if sh < 32 then res' / 2 ^ sh.toNat
  else 0

end Sys2Proof.Machine
end

