-- ==== Sys2Proof/Config.lean ====
section
/-! DEFINITION. What an implementation fixes: the capacities of 00_scope.md R9, the identification word, and the
one free value of the block, a read made while a command runs (20_memory.md R77). -/

namespace Sys2Proof

/-- The data of the `n`-th unspecified read: "an unspecified 32-bit value, drawn freshly for each read and
constrained by nothing (the model's draw)" (20_memory.md R77). No body: no claim can rest on a value of it. -/
opaque Config.busDraw : Nat → Word

/-- `BS_CAP`, the capacity of the bitstream buffer in bytes (00_scope.md R9). -/
def Config.bsCap : Nat := 1280

/-- `TRAM_BYTES`, the host table RAM in bytes (R9). -/
def Config.tramBytes : Nat := 256

/-- The size of `TROM` in bytes (10_state.md R51). -/
def Config.tromBytes : Nat := 1280

/-- `FRAME_MAX`, the largest frame in samples (00_scope.md R9). -/
def Config.frameMax : Nat := 320

/-- `NBLK_MAX`, the largest shell-block count (R9). -/
def Config.nblkMax : Nat := 20

/-- `SUBFR_MAX`, the largest subframe in samples (R9). -/
def Config.subfrMax : Nat := 80

/-- `ORDER_MAX`, the largest LPC order (R9). -/
def Config.orderMax : Nat := 16

/-- `ID`: ASCII "RDX" and the version byte 0x01 (10_state.md R21). -/
def Config.idWord : Word := 0x52445801#32

/-- 1.0 in Q16, the reset value of the gains (10_state.md R33, R35, R36). -/
def Config.unitGain : Word := 0x00010000#32

end Sys2Proof
end

