-- ==== Sys2Proof/Machine/State.lean ====
section
/-! DEFINITION. The state of the RDX block: every register and buffer of 10_state.md and 20_memory.md, the turns of
the host and the engine still to come, the reasons a step can stop, and the state after reset (70_reset_and_hazards.md
R260). -/

namespace Sys2Proof.Machine

/-- The bytes of the buffers at their bus addresses (20_memory.md R61 to R65): the listed bytes, addresses rising; an
address not listed reads as `defaultByte` says (Machine/Memory.lean). -/
abbrev Memory := List Host.Cell

/-- The flags of `STATUS` but BUSY, which is 1 exactly while a command is pending (10_state.md R23). -/
structure Status where
  /-- DONE: an accepted command completed. -/
  done : Bool
  /-- ERR: an access was rejected. -/
  err : Bool
  /-- EXH: the bitstream is exhausted (41_range_decoder.md R135). -/
  exh : Bool
  /-- RDV: the range decoder is valid. -/
  rdv : Bool
  /-- EOVF: a rejection while ERR was 1. -/
  eovf : Bool
deriving DecidableEq, Repr

/-- `IEN` (10_state.md R24). -/
structure IntEnable where
  doneIe : Bool
  errIe : Bool
  exhIe : Bool
deriving DecidableEq, Repr

/-- `ERRCODE` (10_state.md R25). -/
structure ErrRecord where
  /-- CODE: the code of the first rejection since ERR was last cleared. -/
  code : Byte
  /-- OP: the opcode field of the rejected word, 0xFF for a data access. -/
  op : Byte
deriving DecidableEq, Repr

/-- `CFG` (10_state.md R28), its defined fields. -/
structure Cfg where
  bw : BitVec 2
  fsz : Bool
  stype : BitVec 2
  qoff : Bool
  ord : Bool
  ltpen : Bool
deriving DecidableEq, Repr

/-- The range decoder state registers (10_state.md R38). -/
structure RangeState where
  /-- RD_RNG, the current range. -/
  rng : Word
  /-- RD_VAL, the current decoder value. -/
  val : Word
  /-- RD_NBITS, the bit counter. -/
  nbits : Word
  /-- RD_OFFS, the index of the next front byte. -/
  offs : BitVec 11
  /-- RD_REM, the front byte read ahead. -/
  rem : Byte
  /-- RD_ENDOFFS, the number of bytes read from the back. -/
  endOffs : BitVec 11
  /-- RD_ENDWIN, raw bits read and not yet returned. -/
  endWin : Word
  /-- RD_NENDBITS, the number of valid bits of RD_ENDWIN. -/
  nendBits : BitVec 6
deriving DecidableEq, Repr

/-- The error codes (60_exceptions.md R231). -/
inductive ErrCode where
  | illCmd | cmdBusy | busyWr | noInit | badCfg | badArg | badGain | tblErr | bsLock | busAlign
deriving DecidableEq, Repr

/-- When an accepted command completes (70_reset_and_hazards.md R272): in the same step as its acceptance, BUSY never
observed as 1, or at a later turn of the engine. -/
inductive Latency where
  | zero
  | later
deriving DecidableEq, Repr

/-- One turn of an agent (40_control.md R116): a bus access of the host, the reset input, or the engine's completion.
The latency of a write matters only for a write of `CMD` that is accepted. -/
inductive Turn where
  | read (a : BusAddr)
  | write (a : BusAddr) (d : Word) (lat : Latency)
  | reset
  | engine
deriving DecidableEq, Repr

/-- The state of one RDX block. -/
structure State where
  /-- STATUS, but for BUSY. -/
  status : Status
  /-- IEN. -/
  ien : IntEnable
  /-- ERRCODE. -/
  errcode : ErrRecord
  /-- CMD, the last command word accepted (10_state.md R26). -/
  cmd : Word
  /-- PENDING, the word accepted and not yet completed; present exactly while BUSY = 1 (10_state.md R54). -/
  pending : Option Word
  /-- RESULT (10_state.md R27). -/
  result : Word
  /-- CFG. -/
  cfg : Cfg
  /-- LEN (10_state.md R29). -/
  len : BitVec 11
  /-- SEED (10_state.md R30). -/
  seed : BitVec 2
  /-- RATE (10_state.md R31). -/
  rate : BitVec 4
  /-- LCG (10_state.md R32). -/
  lcg : Word
  /-- GAIN0-GAIN3 (10_state.md R33). -/
  gain : Vector Word 4
  /-- LOGGAIN0-LOGGAIN3 (10_state.md R34). -/
  loggain : Vector (BitVec 6) 4
  /-- PREV_GAIN (10_state.md R35). -/
  prevGain : Word
  /-- GAIN_ADJ (10_state.md R36). -/
  gainAdj : Word
  /-- CMDCNT (10_state.md R37). -/
  cmdcnt : Word
  /-- The range decoder state. -/
  rd : RangeState
  /-- SLPC0-SLPC15, the filter delay line; SLPC15 is the newest (10_state.md R40). -/
  slpc : Vector Word 16
  /-- The buffers and the table ROM. -/
  mem : Memory
  /-- The MODEL's own: the turns of the agents still to come, next one first. -/
  schedule : List Turn
  /-- The MODEL's own: the data of the last bus read. -/
  busOut : Word
  /-- The MODEL's own: how many unspecified reads there have been. -/
  draws : Nat
deriving DecidableEq, Repr

/-- Why the machine stops. The block itself never does: accepted commands complete and everything else is a
rejection, which is a next state (60_exceptions.md R230, R238). -/
inductive Fault where
  /-- Raised by the engine's completion step, when the pending word is not a command that passes its checks in the
  state. 40_control.md R112 says that no acceptance leads there, so no run does. Safe. -/
  | pendingNotAccepted
deriving DecidableEq, Repr

/-- Why a step has no meaning. -/
inductive Refusal where
  /-- Answered by an arm of `exec` for a command without a meaning yet. Safe. -/
  | notModelled (mnemonic : String)
  /-- Answered by the commands that read TROM, when the TROM parameter fails the check of 10_state.md R52 ("A model
  refuses a TROM parameter that fails this check"). Safe. -/
  | tromMalformed
deriving DecidableEq, Repr

/-- What a step answers. -/
abbrev Result := Host.Outcome State Fault Refusal

/-- The range decoder state after reset (70_reset_and_hazards.md R260). -/
def RangeState.reset : RangeState :=
  { rng := 0, val := 0, nbits := 0, offs := 0, rem := 0, endOffs := 0, endWin := 0, nendBits := 0 }

/-- The state after reset (70_reset_and_hazards.md R260). Memory lists nothing: every buffer byte is 0 and TROM holds
the contents of Machine/Rom.lean (entry 7). The schedule is empty: the block waits for the host. -/
def State.reset : State :=
  { status := { done := false, err := false, exh := false, rdv := false, eovf := false }
    ien := { doneIe := false, errIe := false, exhIe := false }
    errcode := { code := 0, op := 0 }
    cmd := 0
    pending := none
    result := 0
    cfg := { bw := 0, fsz := false, stype := 0, qoff := false, ord := false, ltpen := false }
    len := 0
    seed := 0
    rate := 0
    lcg := 0
    gain := Vector.replicate 4 Config.unitGain
    loggain := Vector.replicate 4 0
    prevGain := Config.unitGain
    gainAdj := Config.unitGain
    cmdcnt := 0
    rd := RangeState.reset
    slpc := Vector.replicate 16 0
    mem := []
    schedule := []
    busOut := 0
    draws := 0 }

end Sys2Proof.Machine
end

