-- ==== Sys2Proof/Machine/Flags.lean ====
section
/-! DEFINITION. The words of the status and control registers, what a host write does to them, and the interrupt
output (10_state.md R23 to R25, R28, R39; 60_exceptions.md R240). -/

namespace Sys2Proof.Machine

/-- STATUS.BUSY: a command is pending (10_state.md R23, R54; entry 10). -/
def State.busy (s : State) : Bool := s.pending.isSome

/-- The word with bit `n` equal to `b`, other bits 0. -/
def flagBit (b : Bool) (n : Nat) : Word := (if b then 1#32 else 0#32) <<< n

/-- The STATUS word (10_state.md R23). -/
def State.statusWord (s : State) : Word :=
  flagBit s.busy 0 ||| flagBit s.status.done 1 ||| flagBit s.status.err 2 ||| flagBit s.status.exh 3 |||
    flagBit s.status.rdv 4 ||| flagBit s.status.eovf 5

/-- The IEN word (10_state.md R24). -/
def IntEnable.word (e : IntEnable) : Word := flagBit e.doneIe 1 ||| flagBit e.errIe 2 ||| flagBit e.exhIe 3

/-- The defined bits of a word written to IEN (10_state.md R24). -/
def IntEnable.ofWord (d : Word) : IntEnable :=
  { doneIe := d.getLsbD 1, errIe := d.getLsbD 2, exhIe := d.getLsbD 3 }

/-- The ERRCODE word (10_state.md R25). -/
def ErrRecord.word (e : ErrRecord) : Word := (0#16) ++ e.op ++ e.code

/-- The CFG word (10_state.md R28). -/
def Cfg.word (c : Cfg) : Word :=
  c.bw.setWidth 32 ||| flagBit c.fsz 2 ||| (c.stype.setWidth 32) <<< 4 ||| flagBit c.qoff 6 ||| flagBit c.ord 8 |||
    flagBit c.ltpen 9

/-- The defined fields of a word written to CFG; reserved values are stored (10_state.md R28). -/
def Cfg.ofWord (d : Word) : Cfg :=
  { bw := d.extractLsb' 0 2
    fsz := d.getLsbD 2
    stype := d.extractLsb' 4 2
    qoff := d.getLsbD 6
    ord := d.getLsbD 8
    ltpen := d.getLsbD 9 }

/-- RD_TELL = `u32(RD_NBITS - ILOG(RD_RNG))` (10_state.md R39). -/
def RangeState.tell (rd : RangeState) : Word := rd.nbits - BitVec.ofNat 32 (ilog rd.rng.toNat)

/-- The range decoder as its operations see it: its registers and the sticky flag EXH. -/
structure Coder where
  rd : RangeState
  exh : Bool
deriving DecidableEq, Repr

/-- The exhaustion check after a range decoder operation over `len` valid bytes (41_range_decoder.md R135). -/
def Coder.checkExh (len : Nat) (c : Coder) : Coder :=
  if c.rd.tell.toNat > 8 * len then { c with exh := true } else c

/-- The interrupt output IRQ (60_exceptions.md R240). -/
def State.irq (s : State) : Bool :=
  (s.status.done && s.ien.doneIe) || (s.status.err && s.ien.errIe) || (s.status.exh && s.ien.exhIe)

end Sys2Proof.Machine
end

