-- ==== Sys2Proof/Machine/Rom.lean ====
section
/-! DEFINITION. The contents of TROM that an unlisted byte of the ROM region reads as, in the layout of 10_state.md
R51: the recommended values of R53 and, for the three tables that no source gives (`TROM_RFC_TABLES`,
91_not_in_source.md N6), the test tables of 95_test_vectors.md section 2.3. DESIGN CHOICE, unsafe (entry 7): TROM is a
parameter, and a state holds another one by listing its bytes. An offset that no table takes reads 0 whatever is listed
there (`inRomTable`, Machine/Operands.lean). -/

namespace Sys2Proof.Machine

/-- `LOG2LIN(x)` (43_synthesis.md R199). -/
def log2lin (x : Int) : Int :=
  if x < 0 then 0
  else if x ≥ 3967 then 2 ^ 31 - 1
  else
    let o : Int := 2 ^ (x / 128).toNat
    let f : Int := x % 128
    let t := smlawb f (f * (128 - f)) (-174)
    if x < 2048 then o + o * t / 2 ^ 7 else o + o / 2 ^ 7 * t

/-- The recommended `GAIN_TABLE[n]` (10_state.md R53). -/
def romGain (n : Nat) : Word := BitVec.ofInt 32 (log2lin (((0x1D1C71 * n / 2 ^ 16 : Nat) : Int) + 2090))

/-- `RATE_ICDF[0]` and `RATE_ICDF[1]` (10_state.md R53). -/
def romRateIcdf : List Byte :=
  [241#8, 190#8, 178#8, 132#8, 87#8, 74#8, 41#8, 14#8, 0#8] ++
  [223#8, 193#8, 157#8, 140#8, 106#8, 57#8, 39#8, 18#8, 0#8]

/-- Byte `s` of every `PULSE_ICDF[r]` of the test ROM (95_test_vectors.md section 2.3). -/
def romPulseByte (s : Nat) : Byte := BitVec.ofNat 8 (14 * (17 - s))

/-- Byte `j` of the shell tables from total `p` on, laid end to end, with `floor(256*(p-j)/(p+1))` as byte `j` of the
table of `p` (95_test_vectors.md section 2.3; `SHOFF` of 10_state.md R51); `tables` of them. -/
def romShellByte : (tables p j : Nat) → Byte
  | 0, _, _ => 0
  | n + 1, p, j =>
    if j ≤ p then BitVec.ofNat 8 (256 * (p - j) / (p + 1)) else romShellByte n (p + 1) (j - (p + 1))

/-- `QOFF_Q10[s][q]` at `2s + q` (10_state.md R53). -/
def romQoff : List Byte := [100#8, 240#8, 100#8, 240#8, 32#8, 100#8]

/-- Byte `k` of TROM (layout of 10_state.md R51; all other offsets read 0). -/
def romByte (k : Nat) : Byte :=
  if k < 0x012 then romRateIcdf.getD k 0
  else if 0x020 ≤ k ∧ k < 0x0D4 then romPulseByte ((k - 0x020) % 18)
  else if 0x100 ≤ k ∧ k < 0x360 then romShellByte 16 1 ((k - 0x100) % 152)
  else if 0x380 ≤ k ∧ k < 0x382 then [120#8, 0#8].getD (k - 0x380) 0
  else if 0x384 ≤ k ∧ k < 0x388 then [192#8, 128#8, 64#8, 0#8].getD (k - 0x384) 0
  else if 0x390 ≤ k ∧ k < 0x3BA then 128#8
  else if 0x3C0 ≤ k ∧ k < 0x3C6 then romQoff.getD (k - 0x3C0) 0
  else if k = 0x3C6 then 80#8
  else if 0x400 ≤ k ∧ k < 0x500 then (bytesOfWord (romGain ((k - 0x400) / 4))).getD (k % 4) 0
  else 0

end Sys2Proof.Machine
end

