-- ==== Sys2Proof/Machine/Memory.lean ====
section
/-! DEFINITION. The address map of 20_memory.md R61 and the operations on the buffers: one read of a byte, one store of
consecutive bytes, and the wider elements built from them, little-endian (R65). -/

namespace Sys2Proof.Machine

/-- The buffer regions of the address map (20_memory.md R61). -/
inductive Buffer where
  | bsbuf | tram | trom | pulses | blk | exc | ltpin | lpca | lpcout | pcm
deriving DecidableEq, Repr

/-- All the buffers. -/
def Buffer.all : List Buffer :=
  [.bsbuf, .tram, .trom, .pulses, .blk, .exc, .ltpin, .lpca, .lpcout, .pcm]

/-- The first address of a buffer (20_memory.md R61). -/
def Buffer.base : Buffer → Nat
  | .bsbuf => 0x1000
  | .tram => 0x1800
  | .trom => 0x2000
  | .pulses => 0x3000
  | .blk => 0x3400
  | .exc => 0x4000
  | .ltpin => 0x5000
  | .lpca => 0x5400
  | .lpcout => 0x5800
  | .pcm => 0x6000

/-- The size of a buffer in bytes (20_memory.md R61). -/
def Buffer.size : Buffer → Nat
  | .bsbuf => 1280
  | .tram => 256
  | .trom => 1280
  | .pulses => 640
  | .blk => 80
  | .exc => 1280
  | .ltpin => 320
  | .lpca => 128
  | .lpcout => 320
  | .pcm => 640

/-- The buffers the host may write (20_memory.md R61, R67). -/
def Buffer.hostWritable : Buffer → Bool
  | .bsbuf | .tram | .pulses | .exc | .ltpin | .lpca => true
  | .trom | .blk | .lpcout | .pcm => false

/-- The address lies in the buffer. -/
def Buffer.covers (b : Buffer) (a : Nat) : Bool := decide (b.base ≤ a) && decide (a < b.base + b.size)

/-- The buffer at an address, if any (20_memory.md R61). -/
def bufferAt (a : Nat) : Option Buffer := Buffer.all.find? (·.covers a)

/-- What an address not listed reads as: TROM's contents in the ROM region, 0 elsewhere (70_reset_and_hazards.md R260:
every buffer element is 0 at reset and TROM is unchanged). -/
def defaultByte (a : Nat) : Byte :=
  if 0x2000 ≤ a ∧ a < 0x2500 then romByte (a - 0x2000) else 0

/-- The canonical form from address `lo` on: addresses rise strictly and no entry says what its address reads as
anyway. -/
def Memory.wfFrom : Nat → Memory → Bool
  | _, [] => true
  | lo, (a, v) :: r => decide (lo ≤ a) && decide (v ≠ defaultByte a) && Memory.wfFrom (a + 1) r

/-- The canonical form of a memory. -/
def Memory.wf (m : Memory) : Bool := Memory.wfFrom 0 m

/-- The byte at an address. -/
def Memory.read : Memory → Nat → Byte
  | [], a => defaultByte a
  | (b, v) :: r, a => if b = a then v else Memory.read r a

/-- The entries for the bytes `bs` from address `a` on: one for each byte that is not the default of its address. -/
def Memory.cells : Nat → List Byte → Memory
  | _, [] => []
  | a, v :: bs => if v = defaultByte a then Memory.cells (a + 1) bs else (a, v) :: Memory.cells (a + 1) bs

/-- The memory with the bytes `bs` stored from address `base` on. -/
def Memory.store (m : Memory) (base : Nat) (bs : List Byte) : Memory :=
  m.filter (fun c => decide (c.1 < base)) ++
    (Memory.cells base bs ++ m.filter (fun c => decide (base + bs.length ≤ c.1)))

/-- The `n` bytes from address `base` on. -/
def Memory.load (m : Memory) (base n : Nat) : List Byte := (List.range n).map fun i => m.read (base + i)

/-- The 16-bit element at an address, signed (20_memory.md R65). -/
def Memory.half (m : Memory) (a : Nat) : Int := (m.read (a + 1) ++ m.read a : BitVec 16).toInt

/-- The word at an address (20_memory.md R65). -/
def Memory.word (m : Memory) (a : Nat) : Word :=
  wordOfBytes (m.read a) (m.read (a + 1)) (m.read (a + 2)) (m.read (a + 3))

/-- The `n` signed 16-bit elements from address `base` on. -/
def Memory.halves (m : Memory) (base n : Nat) : List Int := (List.range n).map fun i => m.half (base + 2 * i)

/-- The `n` signed 32-bit elements from address `base` on. -/
def Memory.words (m : Memory) (base n : Nat) : List Int :=
  (List.range n).map fun i => (m.word (base + 4 * i)).toInt

/-- The memory with 16-bit elements stored from address `base` on. -/
def Memory.storeHalves (m : Memory) (base : Nat) (vs : List Int) : Memory :=
  m.store base (vs.flatMap fun v => bytesOfHalf (BitVec.ofInt 16 v))

/-- The memory with 32-bit elements stored from address `base` on. -/
def Memory.storeWords (m : Memory) (base : Nat) (vs : List Int) : Memory :=
  m.store base (vs.flatMap fun v => bytesOfWord (BitVec.ofInt 32 v))

/-- The memory after reset: every buffer byte 0, TROM unchanged (70_reset_and_hazards.md R260). -/
def Memory.resetBuffers (m : Memory) : Memory := m.filter fun c => Buffer.trom.covers c.1

/-- A list of elements of a buffer filled up with zeros to `n` (92_eei_decisions.md D32). -/
def padZero (n : Nat) (vs : List Int) : List Int := vs ++ List.replicate (n - vs.length) 0

end Sys2Proof.Machine
end

