-- ==== Sys2Proof/Machine/Ops.lean ====
section
/-! DEFINITION. The operations every command and access shares: recording a rejection and the return from it
(60_exceptions.md R236, R239), acceptance and completion (40_control.md R110 to R112), and reset
(70_reset_and_hazards.md R260, R261). -/

namespace Sys2Proof.Machine

/-- The code of an error (60_exceptions.md R231). -/
def ErrCode.code : ErrCode → Byte
  | .illCmd => 0x01#8
  | .cmdBusy => 0x02#8
  | .busyWr => 0x03#8
  | .noInit => 0x04#8
  | .badCfg => 0x05#8
  | .badArg => 0x06#8
  | .badGain => 0x07#8
  | .tblErr => 0x08#8
  | .bsLock => 0x09#8
  | .busAlign => 0x0A#8

/-- `raise E(op)`: what a rejection records, and nothing else; the first error is kept (60_exceptions.md R236). -/
def State.raise (e : ErrCode) (op : Byte) (s : State) : State :=
  if s.status.err then { s with status := { s.status with eovf := true } }
  else { s with status := { s.status with err := true }, errcode := { code := e.code, op := op } }

/-- The host's write of 1 to STATUS.ERR: the return from an error (60_exceptions.md R239, 10_state.md R23). -/
def State.clearError (s : State) : State :=
  { s with status := { s.status with err := false, eovf := false }, errcode := { code := 0, op := 0 } }

/-- The host's write of 1 to STATUS.DONE (10_state.md R23). -/
def State.clearDone (s : State) : State := { s with status := { s.status with done := false } }

/-- A host write of STATUS: the W1C bits DONE (1) and ERR (2); every other bit is read-only (10_state.md R23). -/
def State.writeStatus (d : Word) (s : State) : State :=
  let s1 := if d.getLsbD 1 then s.clearDone else s
  if d.getLsbD 2 then s1.clearError else s1

/-- Acceptance of the command word `w` (40_control.md R111). -/
def State.accept (w : Word) (s : State) : State :=
  { s with cmd := w, pending := some w, status := { s.status with done := false } }

/-- The bookkeeping of a completion (40_control.md R112). -/
def State.finish (s : State) : State :=
  { s with cmdcnt := s.cmdcnt + 1, pending := none, status := { s.status with done := true } }

/-- Issue of a command with a latency: CMDBUSY first, then the command's own checks, else acceptance (40_control.md R110,
60_exceptions.md R233). `chk` is the first of the command's checks that fails. -/
def State.issue (i : Instr) (chk : Option ErrCode) (s : State) : State :=
  if s.busy then s.raise .cmdBusy i.opcode
  else match chk with
    | some e => s.raise e i.opcode
    | none => s.accept (encode i)

/-- A command issued and completed in one step (zero latency, 70_reset_and_hazards.md R272): the checks of its issue, and,
where it is accepted, its effect `eff` on the state after acceptance, completion included. -/
def State.runCommand (i : Instr) (chk : Option ErrCode) (eff : State → Result) (s : State) : Result :=
  if s.busy then .next (s.raise .cmdBusy i.opcode)
  else match chk with
    | some e => .next (s.raise e i.opcode)
    | none => eff (s.accept (encode i))

/-- The reset of the block, by the reset input or CTRL.SRST: every register and buffer at its reset value, TROM
unchanged (70_reset_and_hazards.md R260, R261). The agents' turns and the data of the last read are not the block's
(entry 15). -/
def State.resetBlock (s : State) : State :=
  { State.reset with
    mem := s.mem.resetBuffers
    schedule := s.schedule
    busOut := s.busOut
    draws := s.draws }

end Sys2Proof.Machine
end

