-- ==== Sys2Proof/Machine/Operands.lean ====
section
/-! DEFINITION. What commands take their operands from: the checks of the state and of the operand field
(60_exceptions.md R232), the frame geometry of CFG (00_scope.md R10), the valid bytes of the bitstream, the host's
ICDF table in TRAM and the tables of TROM (10_state.md R51, R52). -/

namespace Sys2Proof.Machine

/-- A check: the error it reports when it fails. Checks are joined with `Option.or`, first failure first
(60_exceptions.md R233). -/
def require (ok : Bool) (e : ErrCode) : Option ErrCode := if ok then none else some e

/-- NOINIT when STATUS.RDV = 0 (41_range_decoder.md R141). -/
def checkInit (s : State) : Option ErrCode := require s.status.rdv .noInit

/-! ## Frame geometry -/

/-- The subframe length `SL` (00_scope.md R10). BW = 3 is rejected before it is used. -/
def Cfg.subfrLen (c : Cfg) : Nat :=
  if c.bw = 0 then 40 else if c.bw = 1 then 60 else if c.bw = 2 then 80 else 0

/-- The subframe count `NSF` (00_scope.md R10). -/
def Cfg.numSubfr (c : Cfg) : Nat := if c.fsz then 4 else 2

/-- The frame length `FL` (00_scope.md R10, `SL = FL / NSF`). -/
def Cfg.frameLen (c : Cfg) : Nat := c.numSubfr * c.subfrLen

/-- The shell-block count `NBLK = ceil(FL / 16)` (00_scope.md R10). -/
def Cfg.numBlocks (c : Cfg) : Nat := (c.frameLen + 15) / 16

/-- The LPC order (43_synthesis.md R190). -/
def Cfg.order (c : Cfg) : Nat := if c.ord then 16 else 10

/-- BADCFG when `CFG.BW` = 3 (43_synthesis.md R190). -/
def checkBandwidth (s : State) : Option ErrCode := require (decide (s.cfg.bw ≠ 3)) .badCfg

/-- BADCFG when `CFG.BW` = 3 or `CFG.STYPE` = 3 (42_excitation.md R162). -/
def checkFrameCfg (s : State) : Option ErrCode :=
  require (decide (s.cfg.bw ≠ 3) && decide (s.cfg.stype ≠ 3)) .badCfg

/-! ## Gains and subframe index -/

/-- `GAINk`; 0 for an index no subframe has (the index is checked before it is used). -/
def State.gainOf (s : State) (k : Nat) : Word := s.gain.toList.getD k 0

/-- A legal gain: 1 to 2^31 - 1 (10_state.md R33). -/
def legalGain (g : Word) : Bool := decide (g ≠ 0) && !g.getLsbD 31

/-- The checks of LPC_SYNTH, GAIN_SCALE and SYN_SUBFR: BADCFG, BADARG when `k >= NSF`, BADGAIN (43_synthesis.md R201). -/
def checkSubframe (k : Nat) (s : State) : Option ErrCode :=
  (checkBandwidth s).or
    ((require (decide (k < s.cfg.numSubfr)) .badArg).or (require (legalGain (s.gainOf k)) .badGain))

/-! ## The bitstream and the ICDF tables -/

/-- `BSBUF[0..LEN-1]`, the bytes the range decoder reads (10_state.md R42). -/
def State.bitstream (s : State) : List Byte := s.mem.load Buffer.bsbuf.base s.len.toNat

/-- `VALID_ICDF(t)`: non-increasing and 0 at its last byte (41_range_decoder.md R137). -/
def validIcdf : List Byte → Bool
  | [] => false
  | [b] => decide (b = 0)
  | b :: c :: r => decide (c ≤ b) && validIcdf (c :: r)

/-- The bytes up to and with the first 0, if there is one (41_range_decoder.md R142). -/
def untilZero : List Byte → Option (List Byte)
  | [] => none
  | b :: r => if b = 0 then some [b] else (untilZero r).map (b :: ·)

/-- The host's ICDF table at `TRAM[off]`, if a byte 0 ends it within TRAM (41_range_decoder.md R142). -/
def State.hostTable (off : Nat) (s : State) : Option (List Byte) :=
  untilZero ((s.mem.load Buffer.tram.base Config.tramBytes).drop off)

/-- TBLERR: no terminating 0, or not non-increasing (41_range_decoder.md R142). -/
def checkTable (off : Nat) (s : State) : Option ErrCode :=
  require ((s.hostTable off).any validIcdf) .tblErr

/-- The offset and the size of every table of TROM (10_state.md R51). -/
def romTables : List (Nat × Nat) :=
  [(0x000, 2 * 9), (0x020, 10 * 18), (0x100, 4 * 152), (0x380, 2), (0x384, 4), (0x390, 42), (0x3C0, 6), (0x3C6, 1),
    (0x400, 4 * 64)]

/-- A table of TROM takes the offset; "all other offsets" read 0 (10_state.md R51). -/
def inRomTable (off : Nat) : Bool := romTables.any fun t => decide (t.1 ≤ off) && decide (off < t.1 + t.2)

/-- `n` bytes of TROM from offset `off` on (20_memory.md R64). -/
def romTable (m : Memory) (off n : Nat) : List Byte := m.load (Buffer.trom.base + off) n

/-- `RATE_ICDF[r]` (10_state.md R51). -/
def rateIcdf (m : Memory) (r : Nat) : List Byte := romTable m (0x000 + 9 * r) 9

/-- `PULSE_ICDF[r]` (10_state.md R51). -/
def pulseIcdf (m : Memory) (r : Nat) : List Byte := romTable m (0x020 + 18 * r) 18

/-- `SHOFF(p) = (p-1)(p+2)/2` (10_state.md R51). -/
def shOff (p : Nat) : Nat := (p - 1) * (p + 2) / 2

/-- The split table of level `l` for total `p` (10_state.md R51). -/
def shellIcdf (m : Memory) (l p : Nat) : List Byte := romTable m (0x100 + 152 * l + shOff p) (p + 1)

/-- `LSB_ICDF` (10_state.md R51). -/
def lsbIcdf (m : Memory) : List Byte := romTable m 0x380 2

/-- `SEED_ICDF` (10_state.md R51). -/
def seedIcdf (m : Memory) : List Byte := romTable m 0x384 4

/-- `{SIGN_ICDF0[i], 0}` (10_state.md R51). -/
def signIcdf (m : Memory) (i : Nat) : List Byte := romTable m (0x390 + i) 1 ++ [0#8]

/-- `QOFF_Q10[s][q]` (10_state.md R51). -/
def qoffQ10 (m : Memory) (stype q : Nat) : Nat := (m.read (Buffer.trom.base + 0x3C0 + 2 * stype + q)).toNat

/-- `QLEVEL_ADJ_Q10` (10_state.md R51). -/
def qlevelAdjQ10 (m : Memory) : Nat := (m.read (Buffer.trom.base + 0x3C6)).toNat

/-- `GAIN_TABLE[n]`, the u32 at `TROM[0x400 + 4n]` (10_state.md R51, 43_synthesis.md R200). -/
def gainTable (m : Memory) (n : Nat) : Word := m.word (Buffer.trom.base + 0x400 + 4 * n)

/-- The well-formedness of the TROM in a memory (10_state.md R52). DESIGN CHOICE (entry 21): a table whose first byte is 0
passes, as R52's own check has it, though 93_implementation_defined.md U4 counts such a table as not valid. -/
def Memory.tromWf (m : Memory) : Bool :=
  (List.range 2).all (fun r => validIcdf (rateIcdf m r)) &&
  (List.range 10).all (fun r => validIcdf (pulseIcdf m r)) &&
  (List.range 4).all (fun l => (List.range 16).all fun j => validIcdf (shellIcdf m l (j + 1))) &&
  validIcdf (lsbIcdf m) &&
  validIcdf (seedIcdf m) &&
  (List.range 42).all (fun i => validIcdf (signIcdf m i)) &&
  (List.range 64).all (fun n => legalGain (gainTable m n))

/-- A command that reads TROM: its effect on a well-formed TROM; "A model refuses a TROM parameter that fails this
check" (10_state.md R52; entry 8). -/
def State.withTrom (s : State) (eff : State) : Result :=
  if s.mem.tromWf then .next eff else .refused .tromMalformed

end Sys2Proof.Machine
end

