-- ==== Sys2Proof/Machine/Control.lean ====
section
/-! DEFINITION. The control family (40_control.md): NOP. For every command: `check…`, the first of its own checks that
fails; `effect…`, its completion (effect and bookkeeping, R112); `exec…`, its meaning, issue and completion. -/

namespace Sys2Proof.Machine

/-- NOP has no checks of its own (R113). -/
def checkNop (_ : State) : Option ErrCode := none

/-- NOP has no effect besides the bookkeeping (R113). -/
def effectNop (s : State) : Result := .next s.finish

/-- `NOP` (R113). -/
def execNop (s : State) : Result := s.runCommand .nop (checkNop s) effectNop

end Sys2Proof.Machine
end

