-- ==== Sys2Proof/Machine/RangeCoder.lean ====
section
/-! DEFINITION. The primitives of the range decoder (41_range_decoder.md R130 to R140), over the valid bytes `buf` of
the bitstream (`LEN` = its length). -/

namespace Sys2Proof.Machine

/-- `RDBYTE()`: the next front byte, 0 at or past LEN (R130). -/
def rdByte (buf : List Byte) (rd : RangeState) : Byte × RangeState :=
  if rd.offs.toNat < buf.length then (buf.getD rd.offs.toNat 0, { rd with offs := rd.offs + 1 }) else (0, rd)

/-- `RDBYTE_END()`: the next back byte, 0 when all LEN are read (R131). -/
def rdByteEnd (buf : List Byte) (rd : RangeState) : Byte × RangeState :=
  if rd.endOffs.toNat < buf.length then
    (buf.getD (buf.length - (rd.endOffs.toNat + 1)) 0, { rd with endOffs := rd.endOffs + 1 })
  else (0, rd)

/-- One round of the loop of `NORMALIZE()`: eight more bits (R136). -/
def shiftIn (buf : List Byte) (rd : RangeState) : RangeState :=
  let r := rdByte buf rd
  let sym : BitVec 16 := (rd.rem ++ r.1) >>> 1
  { r.2 with
    nbits := rd.nbits + 8
    rng := rd.rng <<< 8
    rem := r.1
    val := ((rd.val <<< 8) + (255 - (sym &&& 0xFF).setWidth 32)) &&& 0x7FFFFFFF }

/-- The loop of `NORMALIZE()`, at most so many rounds (R136). -/
def normalizeLoop (buf : List Byte) : Nat → RangeState → RangeState
  | 0, rd => rd
  | n + 1, rd => if rd.rng ≤ 0x00800000#32 then normalizeLoop buf n (shiftIn buf rd) else rd

/-- `NORMALIZE()`: "The loop runs at most 3 times per call" (R136; entry 12). -/
def normalize (buf : List Byte) (rd : RangeState) : RangeState := normalizeLoop buf 3 rd

/-- The search of `ICDF(t)`: from symbol `k` on, with upper bound `u`, the symbol and its bounds `u` and `s` (R138). A
table that ends without a match counts as ended by 0 (no valid table does, R146; entry 12). -/
def icdfSearch (r d : Nat) : List Byte → (u k : Nat) → Nat × Nat × Nat
  | [], u, k => (k, u, 0)
  | t :: ts, u, k => if r * t.toNat ≤ d then (k, u, r * t.toNat) else icdfSearch r d ts (r * t.toNat) (k + 1)

/-- `ICDF(t)`: decode one symbol (R138). -/
def Coder.icdf (buf t : List Byte) (c : Coder) : Nat × Coder :=
  let k := icdfSearch (c.rd.rng.toNat / 256) c.rd.val.toNat t c.rd.rng.toNat 0
  let rd := { c.rd with
    val := BitVec.ofNat 32 (c.rd.val.toNat - k.2.2)
    rng := BitVec.ofNat 32 (k.2.1 - k.2.2) }
  (k.1, { c with rd := normalize buf rd }.checkExh buf.length)

/-- `BITLOGP(logp)`: one bit whose probability of being 1 is `2^-logp` (R139). -/
def Coder.bitLogp (buf : List Byte) (logp : Nat) (c : Coder) : Nat × Coder :=
  let s := c.rd.rng >>> logp
  let one := decide (c.rd.val < s)
  let rd := if one then { c.rd with rng := s } else { c.rd with val := c.rd.val - s, rng := c.rd.rng - s }
  (one.toNat, { c with rd := normalize buf rd }.checkExh buf.length)

/-- One round of the refill loop of `RAWBITS` (R140). -/
def refillRound (buf : List Byte) (rd : RangeState) : RangeState :=
  let r := rdByteEnd buf rd
  { r.2 with
    endWin := rd.endWin ||| (r.1.setWidth 32 <<< rd.nendBits.toNat)
    nendBits := rd.nendBits + 8 }

/-- The refill loop of `RAWBITS`, rounds until more than 24 bits are there; from at most 24 bits it ends within 4
rounds (R140; entry 12). -/
def refill (buf : List Byte) : Nat → RangeState → RangeState
  | 0, rd => rd
  | n + 1, rd =>
    let rd' := refillRound buf rd
    if rd'.nendBits.toNat > 24 then rd' else refill buf n rd'

/-- `RAWBITS(n)`: `n` raw bits from the back of the buffer (R140). -/
def Coder.rawBits (buf : List Byte) (n : Nat) (c : Coder) : Nat × Coder :=
  let rd := if c.rd.nendBits.toNat < n then refill buf 4 c.rd else c.rd
  let v := rd.endWin.toNat % 2 ^ n
  let rd' := { rd with
    endWin := rd.endWin >>> n
    nendBits := rd.nendBits - BitVec.ofNat 6 n
    nbits := rd.nbits + BitVec.ofNat 32 n }
  (v, { c with rd := rd' }.checkExh buf.length)

/-- The range decoder started on `buf` (R132). -/
def Coder.start (buf : List Byte) : Coder :=
  let r := rdByte buf { RangeState.reset with nbits := 9, rng := 128 }
  let rd := { r.2 with rem := r.1, val := 127 - (r.1 >>> 1).setWidth 32 }
  { rd := normalize buf rd, exh := false : Coder }.checkExh buf.length

/-- The range decoder of a state. -/
def State.coder (s : State) : Coder := { rd := s.rd, exh := s.status.exh }

/-- The state with its range decoder replaced. -/
def State.setCoder (c : Coder) (s : State) : State :=
  { s with rd := c.rd, status := { s.status with exh := c.exh } }

/-- A decoding stage run on every element of a list in order, the range decoder passed along. -/
def mapCoder {α β : Type} (f : α → Coder → β × Coder) : List α → Coder → List β × Coder
  | [], c => ([], c)
  | a :: as, c =>
    let r := f a c
    let rs := mapCoder f as r.2
    (r.1 :: rs.1, rs.2)

end Sys2Proof.Machine
end

