-- ==== Sys2Proof/Machine/Excitation.lean ====
section
/-! DEFINITION. The excitation family (42_excitation.md): EXC_SEED, EXC_DECODE, EXC_RECON. `buf` is the valid bitstream,
`m` the memory that holds the table ROM. -/

namespace Sys2Proof.Machine

/-! ## EXC_SEED (R161) -/

/-- NOINIT (R161). -/
def checkExcSeed (s : State) : Option ErrCode := checkInit s

/-- `x <- ICDF(SEED_ICDF); SEED <- x; RESULT <- zext_32(x)` (R161). -/
def excSeed (s : State) : State :=
  let r := s.coder.icdf s.bitstream (seedIcdf s.mem)
  { s.setCoder r.2 with seed := BitVec.ofNat 2 r.1, result := BitVec.ofNat 32 r.1 }

/-- The completion of EXC_SEED. -/
def effectExcSeed (s : State) : Result := s.withTrom (excSeed s).finish

/-- `EXC_SEED`: decode the frame's LCG seed (R161). -/
def execExcSeed (s : State) : Result := s.runCommand .excSeed (checkExcSeed s) effectExcSeed

/-! ## The stages of EXC_DECODE -/

/-- A shell block as it is decoded: its pulse count before LSB extension and its LSB count (R164). -/
structure BlockCount where
  sum : Nat
  nls : Nat
deriving DecidableEq, Repr

/-- The escape loop of R164 with so many escapes still possible: symbol 17 adds an LSB level and decodes the count again
from row 9, at the tenth escape from row 9 without its first byte. -/
def escapeLoop (buf : List Byte) (m : Memory) : Nat → BlockCount → Coder → BlockCount × Coder
  | 0, b, c => (b, c)
  | n + 1, b, c =>
    if b.sum = 17 then
      let nls := b.nls + 1
      let r := c.icdf buf (if nls = 10 then (pulseIcdf m 9).drop 1 else pulseIcdf m 9)
      escapeLoop buf m n { sum := r.1, nls := nls } r.2
    else (b, c)

/-- The pulse count of one block at rate level `rate`: "The loop ends after at most 10 escapes" (R164; entry 12). -/
def pulseCount (buf : List Byte) (m : Memory) (rate : Nat) (c : Coder) : BlockCount × Coder :=
  let r := c.icdf buf (pulseIcdf m rate)
  escapeLoop buf m 10 { sum := r.1, nls := 0 } r.2

/-- `SPLIT(p, L)`: the count of the lower half of a partition of `2^(L+1)` samples; nothing is decoded for `p = 0`
(R165). -/
def split (buf : List Byte) (m : Memory) (l p : Nat) (c : Coder) : Nat × Coder :=
  if p = 0 then (0, c) else c.icdf buf (shellIcdf m l p)

/-- `SHELL`: the magnitudes of a partition of `2^n` samples with `p` pulses, in preorder, lower half first (R165). -/
def shell (buf : List Byte) (m : Memory) : Nat → Nat → Coder → List Nat × Coder
  | 0, p, c => ([p], c)
  | l + 1, p, c =>
    let a := split buf m l p c
    let lo := shell buf m l a.1 a.2
    let hi := shell buf m l (p - a.1) lo.2
    (lo.1 ++ hi.1, hi.2)

/-- The 16 magnitudes of a block: all 0, with no symbol, for a count of 0 (R165). -/
def blockShell (buf : List Byte) (m : Memory) (b : BlockCount) (c : Coder) : List Nat × Coder := shell buf m 4 b.sum c

/-- `q <- 2 * q + ICDF(LSB_ICDF)`, so many times (R166). -/
def extendSample (buf : List Byte) (m : Memory) : Nat → Nat → Coder → Nat × Coder
  | 0, q, c => (q, c)
  | n + 1, q, c =>
    let r := c.icdf buf (lsbIcdf m)
    extendSample buf m n (2 * q + r.1) r.2

/-- The LSB extension of the samples of one block (R166). -/
def blockLsbs (buf : List Byte) (m : Memory) (x : BlockCount × List Nat) (c : Coder) : List Nat × Coder :=
  mapCoder (extendSample buf m x.1.nls) x.2 c

/-- `BLK[b] = sum[b] | (nLS[b] << 5)` (R164). -/
def BlockCount.word (b : BlockCount) : Nat := b.sum ||| (b.nls <<< 5)

/-- The index of a block's sign table (R167). -/
def signIndex (cfg : Cfg) (b : BlockCount) : Nat :=
  7 * (cfg.qoff.toNat + 2 * cfg.stype.toNat) + min (b.word % 32) 6

/-- The sign of one sample: symbol 0 is negative; a sample 0 has no symbol (R167). -/
def signSample (buf t : List Byte) (q : Nat) (c : Coder) : Int × Coder :=
  if q = 0 then (0, c)
  else
    let r := c.icdf buf t
    (if r.1 = 0 then -(q : Int) else q, r.2)

/-- The signs of the samples of one block; a block with `BLK[b]` = 0 has none (R167). -/
def blockSigns (buf : List Byte) (m : Memory) (cfg : Cfg) (x : BlockCount × List Nat) (c : Coder) : List Int × Coder :=
  mapCoder (signSample buf (signIcdf m (signIndex cfg x.1))) x.2 c

/-- What EXC_DECODE decodes: the rate level, the block counts, the samples, and the range decoder afterwards. -/
structure Decoded where
  rate : Nat
  blocks : List BlockCount
  samples : List Int
  coder : Coder
deriving DecidableEq, Repr

/-- The stages of EXC_DECODE in order: rate level (R163), all pulse counts (R164), all shells (R165), all LSBs (R166),
all signs (R167). -/
def decodeFrame (buf : List Byte) (m : Memory) (cfg : Cfg) (c : Coder) : Decoded :=
  let rate := c.icdf buf (rateIcdf m (cfg.stype.toNat / 2))
  let blocks := mapCoder (fun _ => pulseCount buf m rate.1) (List.range cfg.numBlocks) rate.2
  let shells := mapCoder (blockShell buf m) blocks.1 blocks.2
  let mags := mapCoder (blockLsbs buf m) (blocks.1.zip shells.1) shells.2
  let signed := mapCoder (blockSigns buf m cfg) (blocks.1.zip mags.1) mags.2
  { rate := rate.1, blocks := blocks.1, samples := signed.1.flatten, coder := signed.2 }

/-! ## EXC_DECODE (R168) -/

/-- NOINIT, BADCFG (R168). -/
def checkExcDecode (s : State) : Option ErrCode := (checkInit s).or (checkFrameCfg s)

/-- `RATE`, `BLK` and `PULSES` from the decoded frame, zeros beyond it (R168). -/
def excDecode (s : State) : State :=
  let d := decodeFrame s.bitstream s.mem s.cfg s.coder
  let mem := s.mem.storeHalves Buffer.pulses.base (padZero 320 d.samples)
  let mem' := mem.storeWords Buffer.blk.base (padZero 20 (d.blocks.map fun b => (b.word : Int)))
  { s.setCoder d.coder with rate := BitVec.ofNat 4 d.rate, mem := mem' }

/-- The completion of EXC_DECODE. -/
def effectExcDecode (s : State) : Result := s.withTrom (excDecode s).finish

/-- `EXC_DECODE`: decode the frame's integer excitation into PULSES (R168). -/
def execExcDecode (s : State) : Result := s.runCommand .excDecode (checkExcDecode s) effectExcDecode

/-! ## EXC_RECON (R170) -/

/-- BADCFG; the range decoder is not used (R170). -/
def checkExcRecon (s : State) : Option ErrCode := checkFrameCfg s

/-- `RAND(s) = u32(907633515 + s * 196314165)` (R169). -/
def rand (s : Word) : Word := 907633515 + s * 196314165

/-- One excitation sample from the integer sample `p` and the LCG state `s` already advanced (R170). -/
def reconSample (off adj p : Int) (s : Word) : Int :=
  let e := p * 2 ^ 14
  let e1 := if p > 0 then e - adj * 2 ^ 4 else if p < 0 then e + adj * 2 ^ 4 else e
  let e2 := e1 + off * 2 ^ 4
  if s.getLsbD 31 then -e2 else e2

/-- The samples of EXC_RECON in order and the LCG state after the last one (R170). -/
def reconLoop (off adj : Int) : List Int → Word → List Int × Word
  | [], s => ([], s)
  | p :: ps, s =>
    let s1 := rand s
    let r := reconLoop off adj ps (s1 + BitVec.ofInt 32 p)
    (reconSample off adj p s1 :: r.1, r.2)

/-- `EXC` and `LCG` from `PULSES`, `SEED` and `CFG`, zeros beyond the frame (R170). -/
def excRecon (s : State) : State :=
  let r := reconLoop (qoffQ10 s.mem s.cfg.stype.toNat s.cfg.qoff.toNat) (qlevelAdjQ10 s.mem)
    (s.mem.halves Buffer.pulses.base s.cfg.frameLen) (s.seed.setWidth 32)
  { s with mem := s.mem.storeWords Buffer.exc.base (padZero 320 r.1), lcg := r.2 }

/-- The completion of EXC_RECON. -/
def effectExcRecon (s : State) : Result := s.withTrom (excRecon s).finish

/-- `EXC_RECON`: reconstruct the fixed-point excitation (R170). -/
def execExcRecon (s : State) : Result := s.runCommand .excRecon (checkExcRecon s) effectExcRecon

end Sys2Proof.Machine
end

