-- ==== Sys2Proof/Machine/RangeDecoder.lean ====
section
/-! DEFINITION. The range decoder family (41_range_decoder.md section 2): RD_INIT, RD_ICDF, RD_BITS, RD_BITLOGP,
RD_CLOSE. -/

namespace Sys2Proof.Machine

/-! ## RD_INIT (R132) -/

/-- RD_INIT is accepted whether RDV is 0 or 1 (R132). -/
def checkRdInit (_ : State) : Option ErrCode := none

/-- EXH is cleared before the check of the new start (R132, R135). -/
def effectRdInit (s : State) : Result :=
  let s1 := s.setCoder (Coder.start s.bitstream)
  .next ({ s1 with status := { s1.status with rdv := true } }).finish

/-- `RD_INIT`: start the range decoder on `BSBUF[0..LEN-1]` (R132). -/
def execRdInit (s : State) : Result := s.runCommand .rdInit (checkRdInit s) effectRdInit

/-! ## RD_ICDF (R142) -/

/-- NOINIT, TBLERR (R142). -/
def checkRdIcdf (off : Nat) (s : State) : Option ErrCode := (checkInit s).or (checkTable off s)

/-- `RESULT <- zext_32(ICDF(t))` (R142). -/
def effectRdIcdf (off : Nat) (s : State) : Result :=
  let r := s.coder.icdf s.bitstream ((s.hostTable off).getD [])
  .next ({ s.setCoder r.2 with result := BitVec.ofNat 32 r.1 }).finish

/-- `RD_ICDF off`: decode one symbol with the table at `TRAM[off]` (R142). -/
def execRdIcdf (off : Nat) (s : State) : Result :=
  s.runCommand (.rdIcdf off) (checkRdIcdf off s) (effectRdIcdf off)

/-! ## RD_BITS (R143) -/

/-- NOINIT, BADARG when `n > 25` (R143). -/
def checkRdBits (n : Nat) (s : State) : Option ErrCode :=
  (checkInit s).or (require (decide (n ≤ 25)) .badArg)

/-- `RESULT <- zext_32(RAWBITS(n))` (R143). -/
def effectRdBits (n : Nat) (s : State) : Result :=
  let r := s.coder.rawBits s.bitstream n
  .next ({ s.setCoder r.2 with result := BitVec.ofNat 32 r.1 }).finish

/-- `RD_BITS n`: read `n` raw bits (R143). -/
def execRdBits (n : Nat) (s : State) : Result := s.runCommand (.rdBits n) (checkRdBits n s) (effectRdBits n)

/-! ## RD_BITLOGP (R144) -/

/-- NOINIT, BADARG when `logp = 0` or `logp > 15` (R144). -/
def checkRdBitlogp (logp : Nat) (s : State) : Option ErrCode :=
  (checkInit s).or (require (decide (1 ≤ logp) && decide (logp ≤ 15)) .badArg)

/-- `RESULT <- zext_32(BITLOGP(logp))` (R144). -/
def effectRdBitlogp (logp : Nat) (s : State) : Result :=
  let r := s.coder.bitLogp s.bitstream logp
  .next ({ s.setCoder r.2 with result := BitVec.ofNat 32 r.1 }).finish

/-- `RD_BITLOGP logp`: decode one bit of probability `2^-logp` (R144). -/
def execRdBitlogp (logp : Nat) (s : State) : Result :=
  s.runCommand (.rdBitlogp logp) (checkRdBitlogp logp s) (effectRdBitlogp logp)

/-! ## RD_CLOSE (R145) -/

/-- RD_CLOSE is accepted when RDV = 0, too (R145). -/
def checkRdClose (_ : State) : Option ErrCode := none

/-- `STATUS.RDV <- 0` (R145). -/
def effectRdClose (s : State) : Result := .next ({ s with status := { s.status with rdv := false } }).finish

/-- `RD_CLOSE`: stop the range decoder and unlock the bitstream (R145). -/
def execRdClose (s : State) : Result := s.runCommand .rdClose (checkRdClose s) effectRdClose

end Sys2Proof.Machine
end

