-- ==== Sys2Proof/Machine/Synthesis.lean ====
section
/-! DEFINITION. The synthesis and gain family (43_synthesis.md): GAIN_DEQ, LPC_SYNTH, GAIN_SCALE, SYN_SUBFR,
SYN_RESET. -/

namespace Sys2Proof.Machine

/-! ## GAIN_DEQ (R200) -/

/-- GAIN_DEQ has no checks of its own (R200). -/
def checkGainDeq (_ : State) : Option ErrCode := none

/-- `GAINk <- GAIN_TABLE[LOGGAINk[5:0]]` for k = 0..3 (R200). -/
def gainDeq (s : State) : State :=
  { s with gain := s.loggain.map fun n => gainTable s.mem n.toNat }

/-- The completion of GAIN_DEQ. -/
def effectGainDeq (s : State) : Result := s.withTrom (gainDeq s).finish

/-- `GAIN_DEQ`: the four log-domain gain indices to linear gains (R200). -/
def execGainDeq (s : State) : Result := s.runCommand .gainDeq (checkGainDeq s) effectGainDeq

/-! ## The filter -/

/-- The gain-adjustment factor: `DIV32_varQ(PREV_GAIN, g, 16)` when the gain changes, else 1.0 (R196). -/
def gainAdjust (prev g : Word) : Int := if g ≠ prev then div32VarQ prev.toInt g.toInt 16 else 0x00010000

/-- The gain-change rescale of the delay line, all 16 elements; `GAIN_ADJ <- adj`, `PREV_GAIN <- g` (R196). -/
def rescale (g : Word) (s : State) : State :=
  let adj := gainAdjust s.prevGain g
  { s with
    slpc := if g ≠ s.prevGain then s.slpc.map (fun h => BitVec.ofInt 32 (smulww adj h.toInt)) else s.slpc
    gainAdj := BitVec.ofInt 32 adj
    prevGain := g }

/-- The filter input of subframe `k` (R191). -/
def filterInput (k : Nat) (s : State) : List Int :=
  let exc := s.mem.words (Buffer.exc.base + 4 * (k * s.cfg.subfrLen)) s.cfg.subfrLen
  if s.cfg.ltpen then
    List.zipWith (fun e l => s32 (e + l)) exc (s.mem.words Buffer.ltpin.base s.cfg.subfrLen)
  else exc

/-- `a[j] = LPCA[k][j]` for j = 0..ORDER-1 (R193). -/
def lpcCoefs (k : Nat) (s : State) : List Int := s.mem.halves (Buffer.lpca.base + 32 * k) s.cfg.order

/-- The prediction of one sample, Q10, wrapping: from `ORDER >> 1` on, one SMLAWB a coefficient; `hist` holds the
outputs so far, newest first, so that its element `j` is `h[16 + i - 1 - j]` (R193). -/
def lpcPredict (coefs hist : List Int) : Int :=
  (coefs.zip hist).foldl (fun pred x => smlawb pred x.2 x.1) ((coefs.length / 2 : Nat) : Int)

/-- One filter sample, Q14, saturating (R193). -/
def lpcSample (coefs hist : List Int) (res : Int) : Int :=
  addSat32 res (lshiftSat32 (lpcPredict coefs hist) 4)

/-- The filter over the input samples in order: the outputs and then the delay line, newest first (R192, R193). -/
def lpcFilter (coefs : List Int) : List Int → List Int → List Int
  | hist, [] => hist
  | hist, x :: xs => lpcFilter coefs (lpcSample coefs hist x :: hist) xs

/-- The delay line, newest first: SLPC15 down to SLPC0 (10_state.md R40). -/
def State.delayLine (s : State) : List Int := (s.slpc.toList.map BitVec.toInt).reverse

/-- SLPC0-SLPC15 from a list of outputs, newest first (R192). -/
def slpcOf (hist : List Int) : Vector Word 16 := Vector.ofFn fun j => BitVec.ofInt 32 (hist.getD (15 - j.val) 0)

/-- Rescale, then filter subframe `k` into LPCOUT, zeros beyond the subframe (R201). -/
def lpcSynth (k : Nat) (s : State) : State :=
  let s1 := rescale (s.gainOf k) s
  let hist := lpcFilter (lpcCoefs k s1) s1.delayLine (filterInput k s1)
  { s1 with
    mem := s1.mem.storeWords Buffer.lpcout.base (padZero 80 (hist.take s1.cfg.subfrLen).reverse)
    slpc := slpcOf hist }

/-! ## The gain scaler -/

/-- One PCM sample: `SAT16(RSHIFT_ROUND(SMULWW(y, g >> 6), 8))` (R194). -/
def pcmSample (g : Word) (y : Int) : Int := sat16 (rshiftRound (smulww y (g.toInt / 2 ^ 6)) 8)

/-- The address of `PCM[k*SL]` (R194, 20_memory.md R65). -/
def pcmBase (k : Nat) (cfg : Cfg) : Nat := Buffer.pcm.base + 2 * (k * cfg.subfrLen)

/-- Scale LPCOUT by GAINk into subframe `k` of PCM (R202). -/
def gainScale (k : Nat) (s : State) : State :=
  { s with
    mem := s.mem.storeHalves (pcmBase k s.cfg)
      ((s.mem.words Buffer.lpcout.base s.cfg.subfrLen).map (pcmSample (s.gainOf k))) }

/-! ## LPC_SYNTH (R201) -/

/-- BADCFG, BADARG, BADGAIN (R201). -/
def checkLpcSynth (k : Nat) (s : State) : Option ErrCode := checkSubframe k s

/-- The completion of LPC_SYNTH. -/
def effectLpcSynth (k : Nat) (s : State) : Result := .next (lpcSynth k s).finish

/-- `LPC_SYNTH k`: rescale and LPC-filter subframe `k` into LPCOUT (R201). -/
def execLpcSynth (k : Nat) (s : State) : Result :=
  s.runCommand (.lpcSynth k) (checkLpcSynth k s) (effectLpcSynth k)

/-! ## GAIN_SCALE (R202) -/

/-- BADCFG, BADARG, BADGAIN (R202). -/
def checkGainScale (k : Nat) (s : State) : Option ErrCode := checkSubframe k s

/-- The completion of GAIN_SCALE. -/
def effectGainScale (k : Nat) (s : State) : Result := .next (gainScale k s).finish

/-- `GAIN_SCALE k`: scale LPCOUT by GAINk into subframe `k` of PCM (R202). -/
def execGainScale (k : Nat) (s : State) : Result :=
  s.runCommand (.gainScale k) (checkGainScale k s) (effectGainScale k)

/-! ## SYN_SUBFR (R203) -/

/-- BADCFG, BADARG, BADGAIN, made once (R203). -/
def checkSynSubfr (k : Nat) (s : State) : Option ErrCode := checkSubframe k s

/-- The completion of SYN_SUBFR: the effect of LPC_SYNTH, then that of GAIN_SCALE (R203). -/
def effectSynSubfr (k : Nat) (s : State) : Result := .next (gainScale k (lpcSynth k s)).finish

/-- `SYN_SUBFR k`: synthesize subframe `k` (R203). -/
def execSynSubfr (k : Nat) (s : State) : Result :=
  s.runCommand (.synSubfr k) (checkSynSubfr k s) (effectSynSubfr k)

/-! ## SYN_RESET (R204) -/

/-- SYN_RESET has no checks of its own (R204). -/
def checkSynReset (_ : State) : Option ErrCode := none

/-- `SLPCj <- 0; PREV_GAIN <- 0x00010000; GAIN_ADJ <- 0x00010000` (R204). -/
def synReset (s : State) : State :=
  { s with slpc := Vector.replicate 16 0, prevGain := Config.unitGain, gainAdj := Config.unitGain }

/-- The completion of SYN_RESET. -/
def effectSynReset (s : State) : Result := .next (synReset s).finish

/-- `SYN_RESET`: clear the persistent synthesis state (R204). -/
def execSynReset (s : State) : Result := s.runCommand .synReset (checkSynReset s) effectSynReset

end Sys2Proof.Machine
end

