-- ==== Sys2Proof/Machine/Commands.lean ====
section
/-! DEFINITION. The two halves of every command for a run with a latency: the checks at its issue (40_control.md R110,
60_exceptions.md R232) and the effect at its completion (R112). -/

namespace Sys2Proof.Machine

/-- The first of a command's own checks that fails, in the order of 60_exceptions.md R233. -/
def checkOf (i : Instr) (s : State) : Option ErrCode :=
  match i with
  | .nop => checkNop s
  | .rdInit => checkRdInit s
  | .rdIcdf off => checkRdIcdf off s
  | .rdBits n => checkRdBits n s
  | .rdBitlogp logp => checkRdBitlogp logp s
  | .rdClose => checkRdClose s
  | .excSeed => checkExcSeed s
  | .excDecode => checkExcDecode s
  | .excRecon => checkExcRecon s
  | .gainDeq => checkGainDeq s
  | .lpcSynth k => checkLpcSynth k s
  | .gainScale k => checkGainScale k s
  | .synSubfr k => checkSynSubfr k s
  | .synReset => checkSynReset s

/-- The completion of a command: its effect and the bookkeeping (40_control.md R112). -/
def effectOf (i : Instr) (s : State) : Result :=
  match i with
  | .nop => effectNop s
  | .rdInit => effectRdInit s
  | .rdIcdf off => effectRdIcdf off s
  | .rdBits n => effectRdBits n s
  | .rdBitlogp logp => effectRdBitlogp logp s
  | .rdClose => effectRdClose s
  | .excSeed => effectExcSeed s
  | .excDecode => effectExcDecode s
  | .excRecon => effectExcRecon s
  | .gainDeq => effectGainDeq s
  | .lpcSynth k => effectLpcSynth k s
  | .gainScale k => effectGainScale k s
  | .synSubfr k => effectSynSubfr k s
  | .synReset => effectSynReset s

/-- The engine's turn: the completion of the pending command, nothing when there is none (40_control.md R112, R116). A
pending word that is not a command passing its checks is a fault: no acceptance leads there (entry 11). -/
def State.engineTurn (s : State) : Result :=
  match s.pending with
  | none => .next s
  | some w =>
    match decode w with
    | .error _ => .fault .pendingNotAccepted
    | .ok i =>
      match checkOf i s with
      | some _ => .fault .pendingNotAccepted
      | none => effectOf i s

end Sys2Proof.Machine
end

