-- ==== Sys2Proof/Machine/Dispatch.lean ====
section
/-! DEFINITION. The meaning of every command: its issue and, where it is accepted, its completion in the same step. -/

namespace Sys2Proof.Machine

def exec (i : Instr) (s : State) : Host.Outcome State Fault Refusal :=
  match i with
  | .nop => Sys2Proof.Machine.execNop s
  | .rdInit => Sys2Proof.Machine.execRdInit s
  | .rdIcdf off => Sys2Proof.Machine.execRdIcdf off s
  | .rdBits n => Sys2Proof.Machine.execRdBits n s
  | .rdBitlogp logp => Sys2Proof.Machine.execRdBitlogp logp s
  | .rdClose => Sys2Proof.Machine.execRdClose s
  | .excSeed => Sys2Proof.Machine.execExcSeed s
  | .excDecode => Sys2Proof.Machine.execExcDecode s
  | .excRecon => Sys2Proof.Machine.execExcRecon s
  | .gainDeq => Sys2Proof.Machine.execGainDeq s
  | .lpcSynth k => Sys2Proof.Machine.execLpcSynth k s
  | .gainScale k => Sys2Proof.Machine.execGainScale k s
  | .synSubfr k => Sys2Proof.Machine.execSynSubfr k s
  | .synReset => Sys2Proof.Machine.execSynReset s

end Sys2Proof.Machine
end

