-- ==== Sys2Proof/Machine/Bus.lean ====
section
/-! DEFINITION. The host bus (20_memory.md R60 to R70, R77): the register map of 10_state.md section 2, BusRead and
BusWrite. -/

namespace Sys2Proof.Machine

/-- The registers of the map (10_state.md section 2). -/
inductive Reg where
  | id | ctrl | status | ien | errcode | cmd | result | cfg | len | seed | rate | lcg
  | gain (k : Fin 4)
  | loggain (k : Fin 4)
  | prevGain | gainAdj | cmdcnt
  | rdRng | rdVal | rdTell | rdNbits | rdOffs | rdRem | rdEndOffs | rdEndWin | rdNendBits
  | slpc (j : Fin 16)
deriving DecidableEq, Repr

/-- The register at a word-aligned offset in 0x000-0x0FF; none at a reserved one (10_state.md section 2, R41). -/
def regAt (a : Nat) : Option Reg :=
  match a with
  | 0x000 => some .id
  | 0x004 => some .ctrl
  | 0x008 => some .status
  | 0x00C => some .ien
  | 0x010 => some .errcode
  | 0x014 => some .cmd
  | 0x018 => some .result
  | 0x01C => some .cfg
  | 0x020 => some .len
  | 0x024 => some .seed
  | 0x028 => some .rate
  | 0x02C => some .lcg
  | 0x030 => some (.gain 0)
  | 0x034 => some (.gain 1)
  | 0x038 => some (.gain 2)
  | 0x03C => some (.gain 3)
  | 0x040 => some (.loggain 0)
  | 0x044 => some (.loggain 1)
  | 0x048 => some (.loggain 2)
  | 0x04C => some (.loggain 3)
  | 0x050 => some .prevGain
  | 0x054 => some .gainAdj
  | 0x058 => some .cmdcnt
  | 0x060 => some .rdRng
  | 0x064 => some .rdVal
  | 0x068 => some .rdTell
  | 0x06C => some .rdNbits
  | 0x070 => some .rdOffs
  | 0x074 => some .rdRem
  | 0x078 => some .rdEndOffs
  | 0x07C => some .rdEndWin
  | 0x080 => some .rdNendBits
  | _ =>
    if 0x0C0 ≤ a ∧ a < 0x100 ∧ a % 4 = 0 then some (.slpc (Fin.ofNat 16 ((a - 0x0C0) / 4))) else none

/-- The value of a register, reserved bits 0 (10_state.md R21 to R40). -/
def State.readReg (s : State) : Reg → Word
  | .id => Config.idWord
  | .ctrl => 0
  | .status => s.statusWord
  | .ien => s.ien.word
  | .errcode => s.errcode.word
  | .cmd => s.cmd
  | .result => s.result
  | .cfg => s.cfg.word
  | .len => s.len.setWidth 32
  | .seed => s.seed.setWidth 32
  | .rate => s.rate.setWidth 32
  | .lcg => s.lcg
  | .gain k => s.gain[k]
  | .loggain k => s.loggain[k].setWidth 32
  | .prevGain => s.prevGain
  | .gainAdj => s.gainAdj
  | .cmdcnt => s.cmdcnt
  | .rdRng => s.rd.rng
  | .rdVal => s.rd.val
  | .rdTell => s.rd.tell
  | .rdNbits => s.rd.nbits
  | .rdOffs => s.rd.offs.setWidth 32
  | .rdRem => s.rd.rem.setWidth 32
  | .rdEndOffs => s.rd.endOffs.setWidth 32
  | .rdEndWin => s.rd.endWin
  | .rdNendBits => s.rd.nendBits.setWidth 32
  | .slpc j => s.slpc[j]

/-- The registers whose read is exact while a command runs (20_memory.md R77). -/
def Reg.readableWhileBusy : Reg → Bool
  | .id | .ctrl | .status | .ien | .errcode | .cmd => true
  | _ => false

/-- An unspecified read: a fresh draw (20_memory.md R77). -/
def State.drawRead (s : State) : State := { s with busOut := Config.busDraw s.draws, draws := s.draws + 1 }

/-- The data of a bus read. -/
def State.drive (w : Word) (s : State) : State := { s with busOut := w }

/-- The byte of a buffer that a bus read shows: an offset of TROM outside its tables reads 0 (10_state.md R51). -/
def Memory.hostByte (m : Memory) (a : Nat) : Byte :=
  if Buffer.trom.covers a && !inRomTable (a - Buffer.trom.base) then 0 else m.read a

/-- The word of a buffer that a bus read returns (20_memory.md R65). -/
def Memory.hostWord (m : Memory) (a : Nat) : Word :=
  wordOfBytes (m.hostByte a) (m.hostByte (a + 1)) (m.hostByte (a + 2)) (m.hostByte (a + 3))

/-- `BusRead(A)` (20_memory.md R66, R68, R69, R77). -/
def State.busRead (a : BusAddr) (s : State) : State :=
  if a.toNat % 4 ≠ 0 then (s.raise .busAlign 0xFF#8).drive 0
  else if a.toNat < 0x100 then
    match regAt a.toNat with
    | none => s.drive 0
    | some r => if s.busy && !r.readableWhileBusy then s.drawRead else s.drive (s.readReg r)
  else
    match bufferAt a.toNat with
    | none => s.drive 0
    | some _ => if s.busy then s.drawRead else s.drive (s.mem.hostWord a.toNat)

/-- What a host write does to a data register, once it is let through: the defined fields of `d` are stored. LEN stores a
value greater than 1280 as 1280 (10_state.md R29; entry 9). A read-only register does not change. -/
def State.storeReg (r : Reg) (d : Word) (s : State) : State :=
  match r with
  | .cfg => { s with cfg := Cfg.ofWord d }
  | .len => { s with len := BitVec.ofNat 11 (min d.toNat Config.bsCap) }
  | .seed => { s with seed := d.extractLsb' 0 2 }
  | .gain k => { s with gain := s.gain.set k d }
  | .loggain k => { s with loggain := s.loggain.set k (d.extractLsb' 0 6) }
  | _ => s

/-- The data registers the host may write (10_state.md section 2, access RW). -/
def Reg.hostWritable : Reg → Bool
  | .cfg | .len | .seed | .gain _ | .loggain _ => true
  | _ => false

/-- A write of CMD: an illegal word is rejected (CMDBUSY before ILLCMD, 60_exceptions.md R233, R234); a command is
issued, and with zero latency completed in the same step (40_control.md R110). -/
def State.writeCmd (w : Word) (lat : Latency) (s : State) : Result :=
  match decode w with
  | .error _ => .next (s.raise (if s.busy then .cmdBusy else .illCmd) (opField w))
  | .ok i =>
    match lat with
    | .zero => exec i s
    | .later => .next (s.issue i (checkOf i s))

/-- A write to the register space, in the order of 20_memory.md R67. -/
def State.writeReg (r : Reg) (d : Word) (lat : Latency) (s : State) : Result :=
  match r with
  | .ctrl => .next (if d.getLsbD 0 then s.resetBlock else s)
  | .status => .next (s.writeStatus d)
  | .ien => .next { s with ien := IntEnable.ofWord d }
  | .cmd => s.writeCmd d lat
  | _ =>
    if !r.hostWritable then .next s
    else if s.busy then .next (s.raise .busyWr 0xFF#8)
    else if r = .len ∧ s.status.rdv then .next (s.raise .bsLock 0xFF#8)
    else .next (s.storeReg r d)

/-- A write to a buffer address, in the order of 20_memory.md R67. -/
def State.writeBuffer (b : Buffer) (a : Nat) (d : Word) (s : State) : State :=
  if !b.hostWritable then s
  else if s.busy then s.raise .busyWr 0xFF#8
  else if b = .bsbuf ∧ s.status.rdv then s.raise .bsLock 0xFF#8
  else { s with mem := s.mem.store a (bytesOfWord d) }

/-- `BusWrite(A, d)` (20_memory.md R67 to R69). -/
def State.busWrite (a : BusAddr) (d : Word) (lat : Latency) (s : State) : Result :=
  if a.toNat % 4 ≠ 0 then .next (s.raise .busAlign 0xFF#8)
  else if a.toNat < 0x100 then
    match regAt a.toNat with
    | none => .next s
    | some r => s.writeReg r d lat
  else
    match bufferAt a.toNat with
    | none => .next s
    | some b => .next (s.writeBuffer b a.toNat d)

/-- One turn of an agent (40_control.md R116). -/
def State.takeTurn (t : Turn) (s : State) : Result :=
  match t with
  | .read a => .next (s.busRead a)
  | .write a d lat => s.busWrite a d lat
  | .reset => .next s.resetBlock
  | .engine => s.engineTurn

end Sys2Proof.Machine
end

