-- ==== Sys2Proof/Machine/Step.lean ====
section
/-! DEFINITION. One step of the machine: the next turn of the schedule (40_control.md R116; entries 1, 3, 16). -/

namespace Sys2Proof.Machine

/-- One step. The next turn of the schedule is taken; when none is left, the engine completes what is pending
(40_control.md R112: completion eventually happens), and an idle block holds all its state (60_exceptions.md R247). -/
def step (s : State) : Host.Outcome State Fault Refusal :=
  match s.schedule with
  | [] => s.engineTurn
  | t :: rest => { s with schedule := rest }.takeTurn t

/-- The host's write of the command word `w` comes next, completed in the step that accepts it (entry 2). -/
def State.withFetchWord (s : State) (nbits w : Nat) : State :=
  { s with schedule := .write 0x0014#16 (BitVec.ofNat 32 (w % 2 ^ nbits)) .zero :: s.schedule }

end Sys2Proof.Machine
end

