-- ==== Sys2Proof/Safety.lean ====
section
/-! DEFINITION. What counts as a safe run, in the terms the statements use: when a command is accepted, and the
invariants of the block (10_state.md R25, R29, R33, R52, R55; 40_control.md R112; 43_synthesis.md R196). -/

namespace Sys2Proof.Machine

/-- The command `i` is accepted in `s`: no command runs and none of its checks fails (40_control.md R110). -/
def Accepts (i : Instr) (s : State) : Prop := s.busy = false ∧ checkOf i s = none

/-- The range decoder registers over a bitstream of `len` bytes (10_state.md R55). -/
structure RangeOk (len : Nat) (rd : RangeState) : Prop where
  rng_low : 2 ^ 23 < rd.rng.toNat
  rng_high : rd.rng.toNat ≤ 2 ^ 31
  val_lt : rd.val.toNat < rd.rng.toNat
  offs_le : rd.offs.toNat ≤ len
  endOffs_le : rd.endOffs.toNat ≤ len
  nendBits_le : rd.nendBits.toNat ≤ 32
  endWin_lt : rd.endWin.toNat < 2 ^ rd.nendBits.toNat

/-- While RDV = 1 the range decoder registers are in range (10_state.md R55). -/
def RangeInv (s : State) : Prop := s.status.rdv = true → RangeOk s.len.toNat s.rd

/-- ERRCODE is 0 and EOVF is 0 when ERR = 0 (10_state.md R25, 60_exceptions.md R236, R239). -/
def ErrorInv (s : State) : Prop :=
  s.status.err = false → s.status.eovf = false ∧ s.errcode.code = 0 ∧ s.errcode.op = 0

/-- A pending word is the last accepted word, a command whose checks pass, and DONE is 0 (40_control.md R111, R112). -/
def PendingInv (s : State) : Prop :=
  ∀ w, s.pending = some w →
    s.cmd = w ∧ s.status.done = false ∧ ∃ i, decode w = .ok i ∧ checkOf i s = none

/-- PREV_GAIN is a legal gain (43_synthesis.md R196, 10_state.md R33). -/
def PrevGainInv (s : State) : Prop := legalGain s.prevGain = true

/-- LEN is at most the capacity (10_state.md R29). -/
def LenInv (s : State) : Prop := s.len.toNat ≤ Config.bsCap

/-- The memory is in canonical form. -/
def MemoryInv (s : State) : Prop := s.mem.wf = true

/-- The TROM parameter is well-formed (10_state.md R52). -/
def TromInv (s : State) : Prop := s.mem.tromWf = true

/-- The invariants of the block. -/
structure Inv (s : State) : Prop where
  range : RangeInv s
  error : ErrorInv s
  pending : PendingInv s
  prevGain : PrevGainInv s
  len : LenInv s
  memory : MemoryInv s
  trom : TromInv s

/-! ## Terms of the statements, written from the rules and not from the meanings -/

/-- The address of CMD (10_state.md section 2). -/
def cmdAddr : BusAddr := 0x0014#16

/-- The opcodes of format `N` (30_encoding.md R93). -/
def formatNOpcodes : List Nat := [0x00, 0x01, 0x05, 0x10, 0x11, 0x12, 0x20, 0x24]

/-- The opcodes of format `A` (30_encoding.md R93). -/
def formatAOpcodes : List Nat := [0x02, 0x03, 0x04, 0x21, 0x22, 0x23]

/-- A command word is illegal (30_encoding.md R94). -/
def IllegalWord (w : Word) : Prop :=
  (w.toNat % 256 ∉ formatNOpcodes ∧ w.toNat % 256 ∉ formatAOpcodes) ∨
  w.toNat / 65536 ≠ 0 ∨
  (w.toNat % 256 ∈ formatNOpcodes ∧ w.toNat / 256 % 256 ≠ 0)

/-- The state with an error recorded and nothing else changed: the first error since ERR was cleared is kept, a later one
only sets EOVF (60_exceptions.md R236). -/
def State.recorded (code op : Byte) (s : State) : State :=
  { s with
    status := { s.status with err := true, eovf := s.status.eovf || s.status.err }
    errcode := if s.status.err then s.errcode else { code := code, op := op } }

/-- The command `i` is rejected with the error code `code` (60_exceptions.md R231, R236). -/
def Rejects (i : Instr) (code : Byte) (s : State) : Prop := exec i s = .next (s.recorded code i.opcode)

/-- The word `w` written to CMD is rejected with the error code `code`, with either latency (60_exceptions.md R231,
R236). -/
def RejectsWord (w : Word) (code : Byte) (s : State) : Prop :=
  ∀ lat : Latency, s.writeCmd w lat = .next (s.recorded code (w.extractLsb' 0 8))

/-- The state with the bookkeeping of an accepted and completed command and nothing else (40_control.md R111, R112). -/
def State.completed (i : Instr) (s : State) : State :=
  { s with cmd := encode i, pending := none, cmdcnt := s.cmdcnt + 1, status := { s.status with done := true } }

/-- A command completes in the step from `s`: the pending one, at the engine's turn or when no turn is left, or one that
is written to CMD with zero latency and accepted (40_control.md R111, R112, 70_reset_and_hazards.md R272). -/
def Completes (s : State) : Prop :=
  (s.pending ≠ none ∧ (s.schedule = [] ∨ ∃ rest, s.schedule = .engine :: rest)) ∨
  ∃ w i rest, s.schedule = .write cmdAddr w .zero :: rest ∧ decode w = .ok i ∧ Accepts i s

/-- The step from `s` is a reset: the reset input, or a write of CTRL with bit 0 = 1 (70_reset_and_hazards.md R260,
R261). -/
def TakesReset (s : State) : Prop :=
  (∃ rest, s.schedule = .reset :: rest) ∨
  ∃ d lat rest, s.schedule = .write 0x0004#16 d lat :: rest ∧ d.getLsbD 0 = true

/-- The state a reset leaves, whatever turns are left (70_reset_and_hazards.md R260). -/
def IsReset (s t : State) : Prop := ∃ rest, t = ({ s with schedule := rest } : State).resetBlock

/-- The register map: the offset of every register and the number a read of it returns, field by field (10_state.md
section 2 and R21 to R40). -/
def State.registerMap (s : State) : List (Nat × Nat) :=
  [(0x000, 0x52445801),
    (0x004, 0),
    (0x008, s.busy.toNat + 2 * s.status.done.toNat + 4 * s.status.err.toNat + 8 * s.status.exh.toNat +
      16 * s.status.rdv.toNat + 32 * s.status.eovf.toNat),
    (0x00C, 2 * s.ien.doneIe.toNat + 4 * s.ien.errIe.toNat + 8 * s.ien.exhIe.toNat),
    (0x010, s.errcode.code.toNat + 256 * s.errcode.op.toNat),
    (0x014, s.cmd.toNat),
    (0x018, s.result.toNat),
    (0x01C, s.cfg.bw.toNat + 4 * s.cfg.fsz.toNat + 16 * s.cfg.stype.toNat + 64 * s.cfg.qoff.toNat +
      256 * s.cfg.ord.toNat + 512 * s.cfg.ltpen.toNat),
    (0x020, s.len.toNat),
    (0x024, s.seed.toNat),
    (0x028, s.rate.toNat),
    (0x02C, s.lcg.toNat)] ++
  (List.ofFn fun k : Fin 4 => (0x030 + 4 * k.val, (s.gain[k]).toNat)) ++
  (List.ofFn fun k : Fin 4 => (0x040 + 4 * k.val, (s.loggain[k]).toNat)) ++
  [(0x050, s.prevGain.toNat),
    (0x054, s.gainAdj.toNat),
    (0x058, s.cmdcnt.toNat),
    (0x060, s.rd.rng.toNat),
    (0x064, s.rd.val.toNat),
    (0x068, (s.rd.nbits.toNat + 2 ^ 32 - ilog s.rd.rng.toNat) % 2 ^ 32),
    (0x06C, s.rd.nbits.toNat),
    (0x070, s.rd.offs.toNat),
    (0x074, s.rd.rem.toNat),
    (0x078, s.rd.endOffs.toNat),
    (0x07C, s.rd.endWin.toNat),
    (0x080, s.rd.nendBits.toNat)] ++
  (List.ofFn fun j : Fin 16 => (0x0C0 + 4 * j.val, (s.slpc[j]).toNat))

/-- Byte `j` of the host's table at `TRAM[off]`. -/
def State.tableByte (off : Nat) (s : State) (j : Nat) : Nat := (s.mem.read (Buffer.tram.base + off + j)).toNat

/-- The table at `TRAM[off]` has `n` bytes: byte `n - 1` is its first 0 and lies in TRAM (41_range_decoder.md R142). -/
def HasTable (off n : Nat) (s : State) : Prop :=
  1 ≤ n ∧ off + n ≤ 256 ∧ s.tableByte off (n - 1) = 0 ∧ ∀ j, j + 1 < n → s.tableByte off j ≠ 0

/-- The first `n` bytes of a table do not increase (41_range_decoder.md R137). -/
def NonIncreasing (t : Nat → Nat) (n : Nat) : Prop := ∀ j, j + 1 < n → t (j + 1) ≤ t j

/-- `k` is the symbol that the search of `ICDF(t)` stops at: the first with `r * t[k] <= RD_VAL`
(41_range_decoder.md R138). -/
def SymbolAt (rd : RangeState) (t : Nat → Nat) (k : Nat) : Prop :=
  rd.rng.toNat / 256 * t k ≤ rd.val.toNat ∧ ∀ j < k, rd.val.toNat < rd.rng.toNat / 256 * t j

/-- The range decoder registers after the search stopped at symbol `k`, before NORMALIZE (41_range_decoder.md R138). -/
def afterSymbol (rd : RangeState) (t : Nat → Nat) (k : Nat) : RangeState :=
  let r := rd.rng.toNat / 256
  let u := if k = 0 then rd.rng.toNat else r * t (k - 1)
  { rd with val := BitVec.ofNat 32 (rd.val.toNat - r * t k), rng := BitVec.ofNat 32 (u - r * t k) }

/-- EXH after an operation that leaves the registers `rd` (41_range_decoder.md R135). -/
def exhAfter (s : State) (rd : RangeState) : Bool := s.status.exh || decide (8 * s.len.toNat < rd.tell.toNat)

/-- Front byte `k` of the bitstream, 0 at or past LEN (20_memory.md R71). -/
def State.frontByte (s : State) (k : Nat) : Nat :=
  if k < s.len.toNat then (s.mem.read (Buffer.bsbuf.base + k)).toNat else 0

/-- Back byte `k` of the bitstream: `BSBUF[LEN-1-k]`, 0 past the beginning (20_memory.md R71). -/
def State.backByte (s : State) (k : Nat) : Nat :=
  if k < s.len.toNat then (s.mem.read (Buffer.bsbuf.base + (s.len.toNat - 1 - k))).toNat else 0

/-- The offsets of TROM from `g.1` up to `g.2` that no table takes (10_state.md R51). -/
def romGaps : List (Nat × Nat) :=
  [(0x012, 0x020), (0x0D4, 0x100), (0x360, 0x380), (0x382, 0x384), (0x388, 0x390), (0x3BA, 0x3C0), (0x3C7, 0x400)]

/-- The byte at a buffer address as the host reads it: 0 at an offset of TROM that no table takes (10_state.md R51,
20_memory.md R66). -/
def State.hostByte (s : State) (a : Nat) : Nat :=
  if ∃ g ∈ romGaps, 0x2000 + g.1 ≤ a ∧ a < 0x2000 + g.2 then 0 else (s.mem.read a).toNat

/-- The `n` back bytes from number `k` on as one number, the first least significant (20_memory.md R71). -/
def State.backNumber (s : State) (k : Nat) : Nat → Nat
  | 0 => 0
  | n + 1 => s.backByte k + 2 ^ 8 * State.backNumber s (k + 1) n

/-- How many back bytes RAWBITS reads for `n` bits when `av` are there: none when they suffice, else as many as leave
more than 24 (41_range_decoder.md R140). -/
def backReads (av n : Nat) : Nat := if av < n then (32 - av) / 8 else 0

/-- Byte `k` of a buffer read as a zero-padded stream, as a number. -/
def streamByte (buf : List Byte) (k : Nat) : Nat := (buf.getD k 0).toNat

/-- The next `m` front bytes as one number, the first most significant (20_memory.md R71). -/
def streamNumber (buf : List Byte) (k : Nat) : Nat → Nat
  | 0 => 0
  | m + 1 => streamNumber buf k m * 256 + streamByte buf (k + m)

/-- `n` decoding stages in order: stage `j` gives `x j` and the next stage goes on where it leaves the range decoder, from
`c` before the first to `c'` after the last (42_excitation.md R160). -/
def Stages {α : Type} (stage : Nat → Coder → α × Coder) (n : Nat) (c : Coder) (x : Nat → α) (c' : Coder) : Prop :=
  ∃ cs : Nat → Coder, cs 0 = c ∧ cs n = c' ∧ ∀ j < n, (x j, cs (j + 1)) = stage j (cs j)

/-- The split table of level `l` for a total `p >= 1`: `SHELL_ICDF[l]` at `SHOFF(p) = (p-1)(p+2)/2`, `p + 1` bytes
(10_state.md R51, 42_excitation.md R165). -/
def splitTable (m : Memory) (l p : Nat) : List Byte := romTable m (0x100 + 152 * l + (p - 1) * (p + 2) / 2) (p + 1)

/-- The sign of a sample of magnitude `q` in a block of `p` pulses before LSB extension: none for 0, else one symbol of
the table `{SIGN_ICDF0[i], 0}`, negative for symbol 0 (42_excitation.md R167). -/
def signStage (buf : List Byte) (m : Memory) (cfg : Cfg) (p q : Nat) (c : Coder) : Int × Coder :=
  if q = 0 then (0, c)
  else
    let r := c.icdf buf [m.read (0x2390 + (7 * (cfg.qoff.toNat + 2 * cfg.stype.toNat) + min p 6)), 0]
    (if r.1 = 0 then -(q : Int) else q, r.2)

/-- The LCG state before sample `i` from the integer samples `p` (42_excitation.md R169, R170). -/
def lcgState (seed : Word) (p : Nat → Int) : Nat → Word
  | 0 => seed
  | i + 1 => BitVec.ofNat 32 (907633515 + (lcgState seed p i).toNat * 196314165) + BitVec.ofInt 32 (p i)

/-- The prediction of sample `i` over the sequence `h` (43_synthesis.md R193). -/
def predictAt (order : Nat) (a : Nat → Int) (h : Nat → Int) (i : Nat) : Int :=
  (List.range order).foldl (fun pred j => smlawb pred (h (16 + i - 1 - j)) (a j)) ((order / 2 : Nat) : Int)

/-- The signed 16-bit element `i` of a buffer. -/
def State.elem16 (s : State) (b : Buffer) (i : Nat) : Int := s.mem.half (b.base + 2 * i)

/-- The signed 32-bit element `i` of a buffer. -/
def State.elem32 (s : State) (b : Buffer) (i : Nat) : Int := (s.mem.word (b.base + 4 * i)).toInt

/-- The filter input of sample `i` of subframe `k` (43_synthesis.md R191). -/
def State.inputAt (s : State) (k i : Nat) : Int :=
  if s.cfg.ltpen then s32 (s.elem32 .exc (k * s.cfg.subfrLen + i) + s.elem32 .ltpin i)
  else s.elem32 .exc (k * s.cfg.subfrLen + i)

/-- `SLPCj` after the gain-change rescale for subframe `k` (43_synthesis.md R196). -/
def State.rescaledSlpc (s : State) (k : Nat) (j : Fin 16) : Int :=
  if s.gainOf k = s.prevGain then s.slpc[j].toInt
  else smulww (div32VarQ s.prevGain.toInt (s.gainOf k).toInt 16) s.slpc[j].toInt

/-- `GAIN_ADJ` after the gain-change rescale for subframe `k` (43_synthesis.md R196). -/
def State.adjustFor (s : State) (k : Nat) : Int :=
  if s.gainOf k = s.prevGain then 0x00010000 else div32VarQ s.prevGain.toInt (s.gainOf k).toInt 16

/-- A subframe command can run on subframe `k`: BW is not reserved, `k < NSF`, `GAINk` in `1..2^31-1`
(43_synthesis.md R201). -/
def SubframeReady (k : Nat) (s : State) : Prop :=
  s.cfg.bw ≠ 3 ∧ k < s.cfg.numSubfr ∧ 0 < (s.gainOf k).toNat ∧ (s.gainOf k).toNat < 2 ^ 31

/-- The address lies outside the `n` bytes from `base` on. -/
def Outside (base n a : Nat) : Prop := a < base ∨ base + n ≤ a

end Sys2Proof.Machine
end

