-- ==== Sys2Proof/Certificates/Slice0/Obligations.lean ====
section
/-! DEFINITION. The statements about the RDX block. Each docstring says which rules of spec/ it formalises. -/

open Sys2Proof Sys2Proof.Machine

/-! ## Encoding -/

/-- 30_encoding.md R90 to R93, R96: every command with an operand of 8 bits is decoded from its own word. -/
def Obligations.EncodeThenDecodeGivesTheCommand : Prop :=
  ∀ i : Instr, i.wellFormed = true → decode (encode i) = .ok i

/-- 30_encoding.md R90 to R93: a word that decodes is the word of the command it decodes to, so no two words are one
command and no operand bit is dropped. -/
def Obligations.DecodedWordIsTheWordOfItsCommand : Prop :=
  ∀ (w : Word) (i : Instr), decode w = .ok i → i.wellFormed = true ∧ encode i = w

/-- 30_encoding.md R94: exactly the words with a reserved opcode, a nonzero RSV or a nonzero A in format N are illegal, the
one word that decodes to NOP is 0, and an illegal word written to CMD on an idle block is rejected with ILLCMD, with
either latency, and changes nothing but the error record. -/
def Obligations.IllegalWordIsRejectedWithIllcmd : Prop :=
  ∀ w : Word,
    (IllegalWord w ↔ ∃ e, decode w = .error e) ∧
    (decode w = .ok .nop ↔ w = 0) ∧
    ∀ (s : State) (lat : Latency) (rest : List Turn),
      s.schedule = .write cmdAddr w lat :: rest → s.busy = false → IllegalWord w →
      step s = .next (({ s with schedule := rest } : State).recorded 0x01 (w.extractLsb' 0 8))

/-- 30_encoding.md R96 and 95_test_vectors.md K3: words written out from the encoding decode to their commands. -/
def Obligations.WrittenOutWordsDecode : Prop :=
  decode 0x00000000#32 = .ok .nop ∧ decode 0x00004002#32 = .ok (.rdIcdf 0x40) ∧
  decode 0x00001903#32 = .ok (.rdBits 25) ∧ decode 0x00000011#32 = .ok .excDecode ∧
  decode 0x00000323#32 = .ok (.synSubfr 3)

/-! ## Issue, acceptance, completion -/

/-- The step runs the decoded command (40_control.md R110, 70_reset_and_hazards.md R272): a write of CMD whose word
decodes to `i` is `exec i` with zero latency, and the issue of `i` with a latency, on the state with that turn taken. -/
def Obligations.StepRunsTheDecodedCommand : Prop :=
  ∀ (s : State) (w : Word) (i : Instr) (rest : List Turn), decode w = .ok i →
    (s.schedule = .write cmdAddr w .zero :: rest → step s = exec i { s with schedule := rest }) ∧
    (s.schedule = .write cmdAddr w .later :: rest →
      step s = .next (({ s with schedule := rest } : State).issue i (checkOf i { s with schedule := rest })))

/-- 40_control.md R110: a command that fails a check is rejected with the first check that fails, in either latency, and
nothing but STATUS.ERR, STATUS.EOVF and ERRCODE changes. -/
def Obligations.RejectedCommandChangesOnlyTheErrorRecord : Prop :=
  ∀ (s : State) (w : Word) (lat : Latency) (rest : List Turn),
    s.schedule = .write cmdAddr w lat :: rest →
    ¬ (s.busy = false ∧ ∃ i, decode w = .ok i ∧ checkOf i s = none) →
    ∃ e : ErrCode,
      step s = .next (({ s with schedule := rest } : State).recorded e.code (w.extractLsb' 0 8)) ∧
      (s.busy = true → e = .cmdBusy) ∧
      (s.busy = false → IllegalWord w → e = .illCmd) ∧
      (s.busy = false → ∀ i, decode w = .ok i → checkOf i s = some e)

/-- 40_control.md R111: what the acceptance of a command with a latency does, and nothing else. -/
def Obligations.AcceptanceSetsPendingAndBusy : Prop :=
  ∀ (s : State) (w : Word) (i : Instr) (rest : List Turn),
    s.schedule = .write cmdAddr w .later :: rest → decode w = .ok i → Accepts i s →
    ∃ t, step s = .next t ∧ t.busy = true ∧
      t = { s with
        schedule := rest, cmd := w, pending := some w, status := { s.status with done := false } }

/-- 40_control.md R112: on a well-formed TROM an accepted command completes at the engine's turn, and when no turn is
left; CMDCNT counts it modulo 2^32, BUSY falls and DONE rises. -/
def Obligations.PendingCommandCompletes : Prop :=
  ∀ (s : State) (w : Word) (i : Instr) (rest : List Turn),
    (s.schedule = .engine :: rest ∨ s.schedule = [] ∧ rest = []) → s.pending = some w → decode w = .ok i →
    checkOf i s = none → s.mem.tromWf = true →
    ∃ t, step s = .next t ∧ t.cmdcnt.toNat = (s.cmdcnt.toNat + 1) % 2 ^ 32 ∧ t.busy = false ∧
      t.status.done = true ∧ t.schedule = rest ∧ t.cmd = s.cmd

/-- 70_reset_and_hazards.md R272, 40_control.md R110 to R112: acceptance at one step and completion at the engine's next
turn leave the same state as the command with zero latency. -/
def Obligations.LatencyDoesNotChangeTheResult : Prop :=
  ∀ (i : Instr) (s : State), i.wellFormed = true → Accepts i s →
    (s.issue i (checkOf i s)).engineTurn = exec i s

/-- 60_exceptions.md R234: a write of CMD while a command runs is rejected with CMDBUSY whatever the word, and the
pending command is not affected. -/
def Obligations.CommandWhileBusyIsRejected : Prop :=
  ∀ (s : State) (w : Word) (lat : Latency) (rest : List Turn),
    s.schedule = .write cmdAddr w lat :: rest → s.busy = true →
    step s = .next (({ s with schedule := rest } : State).recorded 0x02 (w.extractLsb' 0 8))

/-- 10_state.md R37 with 40_control.md R112: a step in which a command completes (the pending one at the engine's turn or
when no turn is left, or a zero-latency write of CMD whose command is accepted) advances CMDCNT by one modulo 2^32 and
leaves BUSY = 0 and DONE = 1; a reset sets CMDCNT to 0; every other step, a rejection among them, keeps it. -/
def Obligations.CommandCounterCountsCompletions : Prop :=
  ∀ s t : State, step s = .next t →
    (Completes s → t.cmdcnt.toNat = (s.cmdcnt.toNat + 1) % 2 ^ 32 ∧ t.busy = false ∧ t.status.done = true) ∧
    (TakesReset s → t.cmdcnt = 0) ∧
    (¬ Completes s → ¬ TakesReset s → t.cmdcnt = s.cmdcnt)

/-! ## Checks -/

/-- 41_range_decoder.md R141: the commands that decode from the bitstream are rejected with NOINIT when RDV = 0. -/
def Obligations.DecodingNeedsInit : Prop :=
  ∀ s : State, s.busy = false → s.status.rdv = false →
    (∀ off, Rejects (.rdIcdf off) 0x04 s) ∧ (∀ n, Rejects (.rdBits n) 0x04 s) ∧
    (∀ logp, Rejects (.rdBitlogp logp) 0x04 s) ∧ Rejects .excSeed 0x04 s ∧ Rejects .excDecode 0x04 s

/-- 41_range_decoder.md R142 to R144: TBLERR where no byte 0 of TRAM ends the table at `off` or the table increases
somewhere; BADARG for more than 25 bits and for a `logp` of 0 or above 15. -/
def Obligations.RangeCommandsRejectBadOperands : Prop :=
  ∀ s : State, s.busy = false → s.status.rdv = true →
    (∀ off, (∀ n, HasTable off n s → ¬ NonIncreasing (s.tableByte off) n) → Rejects (.rdIcdf off) 0x08 s) ∧
    (∀ n, 25 < n → Rejects (.rdBits n) 0x06 s) ∧
    (∀ logp, logp = 0 ∨ 15 < logp → Rejects (.rdBitlogp logp) 0x06 s)

/-- 42_excitation.md R162, R168, R170: EXC_RECON, and EXC_DECODE with RDV = 1, are rejected with BADCFG when BW = 3 or
STYPE = 3. -/
def Obligations.ReservedFrameConfigurationIsRejected : Prop :=
  ∀ s : State, s.busy = false → s.cfg.bw = 3 ∨ s.cfg.stype = 3 →
    Rejects .excRecon 0x05 s ∧ (s.status.rdv = true → Rejects .excDecode 0x05 s)

/-- 43_synthesis.md R201 to R203: the checks of the subframe commands in order, BADCFG, BADARG, BADGAIN. -/
def Obligations.SubframeCommandsRejectInOrder : Prop :=
  ∀ (s : State) (k : Nat) (i : Instr), i = .lpcSynth k ∨ i = .gainScale k ∨ i = .synSubfr k → s.busy = false →
    (s.cfg.bw = 3 → Rejects i 0x05 s) ∧
    (s.cfg.bw ≠ 3 → (if s.cfg.fsz then 4 else 2) ≤ k → Rejects i 0x06 s) ∧
    (s.cfg.bw ≠ 3 → k < (if s.cfg.fsz then 4 else 2) →
      (s.gainOf k).toNat = 0 ∨ 2 ^ 31 ≤ (s.gainOf k).toNat → Rejects i 0x07 s)

/-! ## Range decoder -/

/-- 40_control.md R113: the one word of NOP, ILLCMD for any other word with its opcode on an idle block, and no effect besides the
bookkeeping, whatever RDV. -/
def Obligations.NopOnlyCounts : Prop :=
  encode .nop = 0 ∧ (∀ (w : Word) (s : State), w.toNat % 256 = 0 → w ≠ 0 → s.busy = false → RejectsWord w 0x01 s) ∧
  ∀ s : State, s.busy = false →
    exec .nop s = .next { s with
      cmd := 0, pending := none, cmdcnt := s.cmdcnt + 1, status := { s.status with done := true } }

/-- 41_range_decoder.md R132: on an idle block RD_INIT completes whatever RDV; afterwards RNG = 2^31, NBITS = 33, TELL
= 1, VAL is `2^31 - 1` less the first 31 bits of the zero-padded stream, min(4, LEN) bytes are read, the back window is
empty, RDV = 1 and EXH = 1 exactly for an empty buffer; nothing else changes. -/
def Obligations.RdInitStartsOnTheFirstBytes : Prop :=
  ∀ s : State, s.busy = false →
    ∃ t, exec .rdInit s = .next t ∧
      t = { s.completed .rdInit with
        rd := t.rd
        status := { s.status with done := true, rdv := true, exh := decide (s.len.toNat = 0) } } ∧
      t.rd.rng.toNat = 2 ^ 31 ∧ t.rd.nbits.toNat = 33 ∧ t.rd.tell.toNat = 1 ∧
      t.rd.val.toNat = 2 ^ 31 - 1 -
        (s.frontByte 0 * 2 ^ 24 + s.frontByte 1 * 2 ^ 16 + s.frontByte 2 * 2 ^ 8 + s.frontByte 3) / 2 ∧
      t.rd.offs.toNat = min 4 s.len.toNat ∧ t.rd.rem.toNat = s.frontByte 3 ∧
      t.rd.endOffs = 0 ∧ t.rd.endWin = 0 ∧ t.rd.nendBits = 0

/-- 41_range_decoder.md R142 with R138 and R135: on an idle block with RDV = 1 and a valid table of `n` bytes at `off`,
RD_ICDF completes; RESULT is the first symbol whose lower bound does not exceed RD_VAL; the registers are those of the
symbol's interval, normalized; EXH as R135 says; nothing else changes. -/
def Obligations.RdIcdfDecodesTheSymbolOfTheInterval : Prop :=
  ∀ (s : State) (off n : Nat), s.busy = false → s.status.rdv = true → HasTable off n s →
    NonIncreasing (s.tableByte off) n →
    ∃ t k, exec (.rdIcdf off) s = .next t ∧ k < n ∧ SymbolAt s.rd (s.tableByte off) k ∧
      t.rd = normalize s.bitstream (afterSymbol s.rd (s.tableByte off) k) ∧
      t = { s.completed (.rdIcdf off) with
        rd := t.rd
        result := BitVec.ofNat 32 k
        status := { s.status with done := true, exh := exhAfter s t.rd } }

/-- 41_range_decoder.md R143 with R140 and R135: on an idle block with RDV = 1 and `n <= 25`, RD_BITS completes and leaves
the front registers; where the window and RD_ENDOFFS are in range, the window is continued by as many back bytes as R140
reads, RESULT is its lowest `n` bits, and the rest of it is kept. -/
def Obligations.RdBitsReadsFromTheBack : Prop :=
  ∀ (s : State) (n : Nat), s.busy = false → s.status.rdv = true → n ≤ 25 →
    ∃ t, exec (.rdBits n) s = .next t ∧
      t = { s.completed (.rdBits n) with
        rd := { s.rd with
          endOffs := t.rd.endOffs, endWin := t.rd.endWin, nendBits := t.rd.nendBits
          nbits := s.rd.nbits + BitVec.ofNat 32 n }
        result := t.result
        status := { s.status with done := true, exh := exhAfter s t.rd } } ∧
      (s.rd.endWin.toNat < 2 ^ s.rd.nendBits.toNat → s.rd.nendBits.toNat ≤ 32 → s.rd.endOffs.toNat ≤ s.len.toNat →
        let av := s.rd.nendBits.toNat
        let m := backReads av n
        let win := s.rd.endWin.toNat + 2 ^ av * s.backNumber s.rd.endOffs.toNat m
        t.result.toNat = win % 2 ^ n ∧ t.rd.endWin.toNat = win / 2 ^ n ∧
          t.rd.nendBits.toNat = av + 8 * m - n ∧ t.rd.endOffs.toNat = min (s.rd.endOffs.toNat + m) s.len.toNat)

/-- 41_range_decoder.md R144 with R139 and R135: on an idle block with RDV = 1 and `logp` in 1..15, RD_BITLOGP completes;
RESULT is 1 exactly when RD_VAL lies below `RD_RNG >> logp`, and the registers are those of the chosen part,
normalized. -/
def Obligations.RdBitlogpSplitsTheRange : Prop :=
  ∀ (s : State) (logp : Nat), s.busy = false → s.status.rdv = true → 1 ≤ logp → logp ≤ 15 →
    ∃ t, exec (.rdBitlogp logp) s = .next t ∧
      t = { s.completed (.rdBitlogp logp) with
        rd := t.rd, result := t.result, status := { s.status with done := true, exh := exhAfter s t.rd } } ∧
      (s.rd.val.toNat < s.rd.rng.toNat / 2 ^ logp →
        t.result = 1 ∧
        t.rd = normalize s.bitstream { s.rd with rng := BitVec.ofNat 32 (s.rd.rng.toNat / 2 ^ logp) }) ∧
      (s.rd.rng.toNat / 2 ^ logp ≤ s.rd.val.toNat →
        t.result = 0 ∧
        t.rd = normalize s.bitstream { s.rd with
          val := BitVec.ofNat 32 (s.rd.val.toNat - s.rd.rng.toNat / 2 ^ logp)
          rng := BitVec.ofNat 32 (s.rd.rng.toNat - s.rd.rng.toNat / 2 ^ logp) })

/-- 41_range_decoder.md R136: NORMALIZE from a nonempty range shifts by the fewest bytes that bring the range above
2^23, at most 3; each shift appends the complement of the next 8 bits of the stream, seven bits behind the byte
boundary, to the value. -/
def Obligations.NormalizeAppendsStreamBits : Prop :=
  ∀ (buf : List Byte) (rd : RangeState), buf.length ≤ 1280 → 0 < rd.rng.toNat → rd.rng.toNat ≤ 2 ^ 31 →
    rd.val.toNat < rd.rng.toNat → rd.offs.toNat ≤ buf.length →
    ∃ m, m ≤ 3 ∧ (normalize buf rd).rng.toNat = rd.rng.toNat * 256 ^ m ∧
      2 ^ 23 < (normalize buf rd).rng.toNat ∧ (∀ j < m, rd.rng.toNat * 256 ^ j ≤ 2 ^ 23) ∧
      (normalize buf rd) = { rd with
        nbits := rd.nbits + BitVec.ofNat 32 (8 * m)
        rng := (normalize buf rd).rng, offs := (normalize buf rd).offs, val := (normalize buf rd).val
        rem := if m = 0 then rd.rem else BitVec.ofNat 8 (streamByte buf (rd.offs.toNat + m - 1)) } ∧
      (normalize buf rd).offs.toNat = min (rd.offs.toNat + m) buf.length ∧
      (normalize buf rd).val.toNat =
        rd.val.toNat * 256 ^ m +
          (256 ^ m - 1 - (rd.rem.toNat * 256 ^ m + streamNumber buf rd.offs.toNat m) / 2 % 256 ^ m)

/-- 41_range_decoder.md R145: the one word of RD_CLOSE, ILLCMD for any other word with its opcode on an idle block, and RDV <- 0 with
nothing else but the bookkeeping, whatever RDV was. -/
def Obligations.RdCloseClearsRdvOnly : Prop :=
  encode .rdClose = 0x00000005#32 ∧
  (∀ (w : Word) (s : State), w.toNat % 256 = 5 → w ≠ 0x00000005#32 → s.busy = false → RejectsWord w 0x01 s) ∧
  ∀ s : State, s.busy = false →
    exec .rdClose s = .next { s.completed .rdClose with status := { s.status with done := true, rdv := false } }

/-- 10_state.md R55 (the spec's own inference): every step keeps the range decoder registers in range while RDV = 1. -/
def Obligations.EveryStepKeepsTheRangeDecoderInRange : Prop :=
  ∀ s t : State, RangeInv s → step s = .next t → RangeInv t

/-- 41_range_decoder.md R135: EXH is cleared by nothing but RD_INIT and reset. -/
def Obligations.ExhaustionIsSticky : Prop :=
  ∀ s t : State, PendingInv s → step s = .next t → s.status.exh = true → t.status.exh = false →
    IsReset s t ∨ (t.cmd = encode .rdInit ∧ t.cmdcnt = s.cmdcnt + 1 ∧ t.status.rdv = true)

/-- 70_reset_and_hazards.md R276: from RD_INIT until RD_CLOSE or reset the bitstream and LEN do not change. -/
def Obligations.BitstreamIsLockedWhileValid : Prop :=
  ∀ s t : State, step s = .next t → s.status.rdv = true → t.status.rdv = true →
    t.len = s.len ∧ ∀ k < 1280, t.mem.read (0x1000 + k) = s.mem.read (0x1000 + k)

/-! ## Excitation -/

/-- 42_excitation.md R161 with R138: on an idle block with RDV = 1 and a well-formed TROM, EXC_SEED completes with the
symbol of `SEED_ICDF` in SEED and RESULT. -/
def Obligations.ExcSeedDecodesTheSeed : Prop :=
  ∀ s : State, s.busy = false → s.status.rdv = true → s.mem.tromWf = true →
    ∃ t k, exec .excSeed s = .next t ∧ k < 4 ∧
      SymbolAt s.rd (fun j => (s.mem.read (0x2384 + j)).toNat) k ∧
      t.rd = normalize s.bitstream (afterSymbol s.rd (fun j => (s.mem.read (0x2384 + j)).toNat) k) ∧
      t = { s.completed .excSeed with
        rd := t.rd
        seed := BitVec.ofNat 2 k
        result := BitVec.ofNat 32 k
        status := { s.status with done := true, exh := exhAfter s t.rd } }

/-- 42_excitation.md R165 (sum and count the spec's own inference): the shell of a partition of `2^n` samples with at
most 16 pulses has `2^n` magnitudes that sum to its pulse count; a partition without pulses is all 0 and takes no symbol;
one sample is its count; a larger partition takes one symbol `a <= p` of `SHELL_ICDF[L]` at `SHOFF(p)` (`L = n - 1`; none
for `p = 0`), then its lower half with `a` pulses, then its upper half with the rest. -/
def Obligations.ShellSplitsKeepThePulseCount : Prop :=
  ∀ (buf : List Byte) (m : Memory) (n p : Nat) (c : Coder), m.tromWf = true → n ≤ 4 → p ≤ 16 →
    (shell buf m n p c).1.length = 2 ^ n ∧ (shell buf m n p c).1.sum = p ∧
    (p = 0 → shell buf m n p c = (List.replicate (2 ^ n) 0, c)) ∧
    (n = 0 → shell buf m n p c = ([p], c)) ∧
    ∀ l, n = l + 1 → ∃ (a : Nat) (c1 c2 c3 : Coder) (lo hi : List Nat),
      (a, c1) = (if p = 0 then (0, c) else c.icdf buf (splitTable m l p)) ∧ a ≤ p ∧
      (lo, c2) = shell buf m l a c1 ∧ (hi, c3) = shell buf m l (p - a) c2 ∧
      shell buf m n p c = (lo ++ hi, c3)

/-- 42_excitation.md R164: the count of a block is the first symbol that is not 17, the first decoded from the row of the
rate level, each later one from row 9, the tenth from row 9 without its first byte; the number of LSB levels is the number
of symbols 17, at most 10. -/
def Obligations.PulseCountFollowsTheEscapes : Prop :=
  ∀ (buf : List Byte) (m : Memory) (rate : Nat) (c : Coder), m.tromWf = true → rate ≤ 8 →
    ∃ (x : Nat → Nat) (cs : Nat → Coder) (nls : Nat),
      (x 0, cs 0) = c.icdf buf (romTable m (0x020 + 18 * rate) 18) ∧ nls ≤ 10 ∧ x nls ≤ 16 ∧
      (∀ j < nls, x j = 17 ∧
        (x (j + 1), cs (j + 1)) = (cs j).icdf buf (if j + 1 = 10 then romTable m 0x0C3 17 else romTable m 0x0C2 18)) ∧
      pulseCount buf m rate c = ({ sum := x nls, nls := nls }, cs nls)

/-- 42_excitation.md R166, R167: each LSB level doubles the magnitude and adds one symbol of `LSB_ICDF`; each nonzero
sample of a block, in order, takes one symbol of the sign table of the block's count, offset type and signal type,
negative for 0; a zero sample takes none. -/
def Obligations.LsbsAndSignsFollowTheirSymbols : Prop :=
  ∀ (buf : List Byte) (m : Memory) (c : Coder),
    (∀ n q : Nat, ∃ (v : Nat → Nat) (cs : Nat → Coder), v 0 = q ∧ cs 0 = c ∧
      (∀ j < n, ∃ x, (x, cs (j + 1)) = (cs j).icdf buf (romTable m 0x380 2) ∧ v (j + 1) = 2 * v j + x) ∧
      extendSample buf m n q c = (v n, cs n)) ∧
    (∀ (cfg : Cfg) (b : BlockCount) (mags : List Nat), b.sum ≤ 16 → ∃ cs : Nat → Coder, cs 0 = c ∧
      (blockSigns buf m cfg (b, mags) c).1.length = mags.length ∧
      (blockSigns buf m cfg (b, mags) c).2 = cs mags.length ∧
      ∀ j < mags.length,
        let q := mags.getD j 0
        let y := (blockSigns buf m cfg (b, mags) c).1.getD j 0
        if q = 0 then y = 0 ∧ cs (j + 1) = cs j
        else ∃ x, (x, cs (j + 1)) =
            (cs j).icdf buf [m.read (0x2390 + (7 * (cfg.qoff.toNat + 2 * cfg.stype.toNat) + min b.sum 6)), 0] ∧
          y = if x = 0 then -(q : Int) else q)

/-- 42_excitation.md R168 with R160 and R163: on an idle block with RDV = 1, a legal configuration and a well-formed TROM,
EXC_DECODE completes. It decodes, in this order, the rate level from `RATE_ICDF[STYPE >> 1]`, the pulse counts of all
blocks, the shells of all blocks, the LSBs of all samples, the signs of all samples. RATE, BLK and PULSES hold the result,
zeros beyond the frame's blocks; the range decoder is where the last symbol left it; every other byte of memory and every
other register is as before. -/
def Obligations.ExcDecodeWritesTheFrame : Prop :=
  ∀ s : State, s.busy = false → s.status.rdv = true → s.cfg.bw ≠ 3 → s.cfg.stype ≠ 3 → s.mem.tromWf = true →
    ∃ (t : State) (rate : Nat) (blk : Nat → BlockCount) (mags : Nat → List Nat) (q : Nat → Nat) (y : Nat → Int)
      (c1 c2 c3 c4 c5 : Coder),
      let buf := s.bitstream
      let n := s.cfg.numBlocks
      exec .excDecode s = .next t ∧
      (rate, c1) = s.coder.icdf buf (romTable s.mem (9 * (s.cfg.stype.toNat / 2)) 9) ∧
      Stages (fun _ => pulseCount buf s.mem rate) n c1 blk c2 ∧
      Stages (fun b => shell buf s.mem 4 (blk b).sum) n c2 mags c3 ∧
      Stages (fun i => extendSample buf s.mem (blk (i / 16)).nls ((mags (i / 16)).getD (i % 16) 0)) (16 * n) c3 q c4 ∧
      Stages (fun i => signStage buf s.mem s.cfg (blk (i / 16)).sum (q i)) (16 * n) c4 y c5 ∧
      t = { s.completed .excDecode with
        rd := c5.rd
        rate := BitVec.ofNat 4 rate
        mem := t.mem
        status := { s.status with done := true, exh := c5.exh } } ∧
      (∀ i < 320, t.elem16 .pulses i = if i < 16 * n then y i else 0) ∧
      (∀ b < 20, t.elem32 .blk b = if b < n then (blk b).sum + 32 * (blk b).nls else 0) ∧
      ∀ a, Outside 0x3000 640 a → Outside 0x3400 80 a → t.mem.read a = s.mem.read a

/-- 42_excitation.md R171 (the spec's own inference): after EXC_DECODE the rate level is at most 8, every magnitude at most
17407, every block counts at most 16 pulses and 10 LSB levels, a block without LSB levels has as many pulses as it
counts, and a block with BLK = 0 has 16 zero samples. -/
def Obligations.ExcDecodeIsBounded : Prop :=
  ∀ s t : State, s.busy = false → s.status.rdv = true → s.cfg.bw ≠ 3 → s.cfg.stype ≠ 3 →
    exec .excDecode s = .next t →
    t.rate.toNat ≤ 8 ∧ (∀ i < 320, (t.elem16 .pulses i).natAbs ≤ 17407) ∧
    ∀ b < 20, ∃ sum nls : Nat, sum ≤ 16 ∧ nls ≤ 10 ∧ t.elem32 .blk b = sum + 32 * nls ∧
      (nls = 0 → ((List.range 16).map fun j => (t.elem16 .pulses (16 * b + j)).natAbs).sum = sum) ∧
      (t.elem32 .blk b = 0 → ∀ j < 16, t.elem16 .pulses (16 * b + j) = 0)

/-- 42_excitation.md R170 with R169: on an idle block with a legal configuration and a well-formed TROM, EXC_RECON
completes; sample `i` of the frame is the scaled pulse with adjustment and offset, its sign flipped when bit 31 of the
advanced LCG state is set; the elements beyond the frame are 0; LCG is the state after the last sample. -/
def Obligations.ExcReconScalesAndDithers : Prop :=
  ∀ s : State, s.busy = false → s.cfg.bw ≠ 3 → s.cfg.stype ≠ 3 → s.mem.tromWf = true →
    ∃ t, exec .excRecon s = .next t ∧
      (let p := fun i => s.elem16 .pulses i
       let off : Int := (s.mem.read (0x23C0 + 2 * s.cfg.stype.toNat + s.cfg.qoff.toNat)).toNat
       let adj : Int := (s.mem.read 0x23C6).toNat
       let st := lcgState (s.seed.setWidth 32) p
       t = { s.completed .excRecon with mem := t.mem, lcg := st s.cfg.frameLen } ∧
        (∀ i < s.cfg.frameLen,
          let e := p i * 16384 + (if 0 < p i then -(adj * 16) else if p i < 0 then adj * 16 else 0) + off * 16
          t.elem32 .exc i =
            if 2 ^ 31 ≤ (907633515 + (st i).toNat * 196314165) % 2 ^ 32 then -e else e) ∧
        (∀ i, s.cfg.frameLen ≤ i → i < 320 → t.elem32 .exc i = 0) ∧
        ∀ a, Outside 0x4000 1280 a → t.mem.read a = s.mem.read a)

/-! ## Gains and synthesis -/

/-- 43_synthesis.md R200: the one word of GAIN_DEQ, ILLCMD for any other word with its opcode on an idle block; on an idle
block with a well-formed TROM, GAIN_DEQ completes with every GAINk the table entry of LOGGAINk, whatever CFG, and nothing
else changes. -/
def Obligations.GainDeqLooksUpFourGains : Prop :=
  encode .gainDeq = 0x00000020#32 ∧
  (∀ (w : Word) (s : State), w.toNat % 256 = 0x20 → w ≠ 0x00000020#32 → s.busy = false → RejectsWord w 0x01 s) ∧
  ∀ s : State, s.busy = false → s.mem.tromWf = true →
    ∃ t, exec .gainDeq s = .next t ∧ t = { s.completed .gainDeq with gain := t.gain } ∧
      ∀ k : Fin 4,
        let a := 0x2400 + 4 * (s.loggain[k]).toNat
        (t.gain[k]).toNat = (s.mem.read a).toNat + 2 ^ 8 * (s.mem.read (a + 1)).toNat +
          2 ^ 16 * (s.mem.read (a + 2)).toNat + 2 ^ 24 * (s.mem.read (a + 3)).toNat

/-- 43_synthesis.md R201 with R191 to R193 and R196: on an idle block, for a subframe that is ready, LPC_SYNTH completes;
there is the sequence `h` of R192: the rescaled delay line, then each output from the input and the 10 or 16 outputs
before it; LPCOUT holds the outputs, zeros beyond the subframe; the delay line holds the last 16 of `h`. -/
def Obligations.LpcSynthFiltersTheSubframe : Prop :=
  ∀ (s : State) (k : Nat), s.busy = false → SubframeReady k s →
    ∃ (t : State) (h : Nat → Int), exec (.lpcSynth k) s = .next t ∧
      t = { s.completed (.lpcSynth k) with
        mem := t.mem, slpc := t.slpc, prevGain := s.gainOf k, gainAdj := BitVec.ofInt 32 (s.adjustFor k) } ∧
      (∀ j : Fin 16, h j = s.rescaledSlpc k j) ∧
      (∀ i < s.cfg.subfrLen, h (16 + i) =
        addSat32 (s.inputAt k i) (lshiftSat32 (predictAt s.cfg.order (fun j => s.elem16 .lpca (16 * k + j)) h i) 4)) ∧
      (∀ i < s.cfg.subfrLen, t.elem32 .lpcout i = h (16 + i)) ∧
      (∀ i, s.cfg.subfrLen ≤ i → i < 80 → t.elem32 .lpcout i = 0) ∧
      (∀ j : Fin 16, (t.slpc[j]).toInt = h (s.cfg.subfrLen + j)) ∧
      ∀ a, Outside 0x5800 320 a → t.mem.read a = s.mem.read a

/-- 43_synthesis.md R202 with R194: on an idle block, for a subframe that is ready, GAIN_SCALE completes; PCM of the
subframe is the scaled LPCOUT, rounded and saturated; every other byte of memory and every register is as before. -/
def Obligations.GainScaleWritesTheSubframePcm : Prop :=
  ∀ (s : State) (k : Nat), s.busy = false → SubframeReady k s →
    ∃ t, exec (.gainScale k) s = .next t ∧ t = { s.completed (.gainScale k) with mem := t.mem } ∧
      (∀ i < s.cfg.subfrLen, t.elem16 .pcm (k * s.cfg.subfrLen + i) =
        sat16 (rshiftRound (smulww (s.elem32 .lpcout i) ((s.gainOf k).toInt / 64)) 8)) ∧
      ∀ a, Outside (pcmBase k s.cfg) (2 * s.cfg.subfrLen) a → t.mem.read a = s.mem.read a

/-- 43_synthesis.md R203 with R197: on an idle block, for a subframe that is ready, SYN_SUBFR completes with the state that
LPC_SYNTH and then GAIN_SCALE of the subframe leave, but for CMD and for one completion counted instead of two. -/
def Obligations.SynSubfrIsLpcSynthThenGainScale : Prop :=
  ∀ (s : State) (k : Nat), s.busy = false → SubframeReady k s →
    ∃ t u v : State, exec (.synSubfr k) s = .next t ∧ exec (.lpcSynth k) s = .next u ∧
      exec (.gainScale k) u = .next v ∧ t = { v with cmd := encode (.synSubfr k), cmdcnt := s.cmdcnt + 1 } ∧
      v.cmdcnt = s.cmdcnt + 2

/-- 43_synthesis.md R204: the one word of SYN_RESET, ILLCMD for any other word with its opcode on an idle block, and the delay line, PREV_GAIN
and GAIN_ADJ at their reset values with nothing else but the bookkeeping. -/
def Obligations.SynResetClearsTheFilterState : Prop :=
  encode .synReset = 0x00000024#32 ∧
  (∀ (w : Word) (s : State), w.toNat % 256 = 0x24 → w ≠ 0x00000024#32 → s.busy = false → RejectsWord w 0x01 s) ∧
  ∀ s : State, s.busy = false →
    exec .synReset s = .next { s.completed .synReset with
      slpc := Vector.replicate 16 0, prevGain := 0x00010000#32, gainAdj := 0x00010000#32 }

/-- 43_synthesis.md R196 (the spec's reason why the division is defined): every step keeps PREV_GAIN in 1..2^31-1. -/
def Obligations.EveryStepKeepsPrevGainLegal : Prop :=
  ∀ s t : State, PrevGainInv s → step s = .next t → PrevGainInv t

/-! ## Frames -/

/-- 40_control.md R114 (the spec's own summary): a control or range decoder command that answers a next state changes no
register but CMD, CMDCNT, STATUS, ERRCODE, the range decoder and RESULT (RESULT not by NOP, RD_INIT and RD_CLOSE; the
range decoder not by NOP and RD_CLOSE), and no byte of memory; an accepted one changes of STATUS only DONE, EXH and, as
RD_INIT or RD_CLOSE, RDV. -/
def Obligations.FrameOfTheRangeCommands : Prop :=
  ∀ (s t : State) (i : Instr) (x : Nat),
    i ∈ [Instr.nop, .rdInit, .rdIcdf x, .rdBits x, .rdBitlogp x, .rdClose] → exec i s = .next t →
    t = { s with
      cmd := t.cmd, cmdcnt := t.cmdcnt, status := t.status, errcode := t.errcode
      rd := if i = .nop ∨ i = .rdClose then s.rd else t.rd
      result := if i = .nop ∨ i = .rdInit ∨ i = .rdClose then s.result else t.result } ∧
    (∀ a, t.mem.read a = s.mem.read a) ∧
    (Accepts i s →
      t.errcode = s.errcode ∧
      t.status = { s.status with
        done := true
        exh := if i = .nop ∨ i = .rdClose then s.status.exh else t.status.exh
        rdv := if i = .rdInit then true else if i = .rdClose then false else s.status.rdv })

/-- 40_control.md R114 (the spec's own summary): an excitation command that answers a next state changes no register but
CMD, CMDCNT, STATUS, ERRCODE and those R114 gives it, and no byte of memory outside PULSES and BLK (EXC_DECODE) or EXC
(EXC_RECON); an accepted one changes of STATUS only DONE and EXH, EXH not by EXC_RECON. -/
def Obligations.FrameOfTheExcitationCommands : Prop :=
  ∀ (s t : State) (i : Instr), i ∈ [Instr.excSeed, .excDecode, .excRecon] → exec i s = .next t →
    t = { s with
      cmd := t.cmd, cmdcnt := t.cmdcnt, status := t.status, errcode := t.errcode, mem := t.mem
      rd := if i = .excRecon then s.rd else t.rd
      result := if i = .excSeed then t.result else s.result
      seed := if i = .excSeed then t.seed else s.seed
      rate := if i = .excDecode then t.rate else s.rate
      lcg := if i = .excRecon then t.lcg else s.lcg } ∧
    (∀ a, (i = .excDecode → Outside 0x3000 640 a ∧ Outside 0x3400 80 a) → (i = .excRecon → Outside 0x4000 1280 a) →
      t.mem.read a = s.mem.read a) ∧
    (Accepts i s →
      t.errcode = s.errcode ∧
      t.status = { s.status with done := true, exh := if i = .excRecon then s.status.exh else t.status.exh })

/-- 40_control.md R114 (the spec's own summary): a synthesis command that answers a next state changes no register but CMD,
CMDCNT, STATUS, ERRCODE and those R114 gives it, and no byte of memory outside LPCOUT (LPC_SYNTH, SYN_SUBFR) and its
subframe of PCM (GAIN_SCALE, SYN_SUBFR); an accepted one changes of STATUS only DONE. -/
def Obligations.FrameOfTheSynthesisCommands : Prop :=
  ∀ (s t : State) (i : Instr) (k : Nat),
    i ∈ [Instr.gainDeq, .lpcSynth k, .gainScale k, .synSubfr k, .synReset] → exec i s = .next t →
    t = { s with
      cmd := t.cmd, cmdcnt := t.cmdcnt, status := t.status, errcode := t.errcode, mem := t.mem
      gain := if i = .gainDeq then t.gain else s.gain
      slpc := if i = .gainDeq ∨ i = .gainScale k then s.slpc else t.slpc
      prevGain := if i = .gainDeq ∨ i = .gainScale k then s.prevGain else t.prevGain
      gainAdj := if i = .gainDeq ∨ i = .gainScale k then s.gainAdj else t.gainAdj } ∧
    (∀ a, (i = .lpcSynth k ∨ i = .synSubfr k → Outside 0x5800 320 a) →
      (i = .gainScale k ∨ i = .synSubfr k → Outside (pcmBase k s.cfg) (2 * s.cfg.subfrLen) a) →
      t.mem.read a = s.mem.read a) ∧
    (Accepts i s → t.errcode = s.errcode ∧ t.status = { s.status with done := true })

/-- 40_control.md R114 (the spec's own summary), over whole steps: but for a reset, RESULT, RATE, LCG, the delay line with
PREV_GAIN and GAIN_ADJ, and the range decoder change only in the step that completes a command which writes them. -/
def Obligations.ResultRegistersChangeOnlyByTheirCommands : Prop :=
  ∀ s t : State, PendingInv s → step s = .next t → ¬ IsReset s t →
    (t.result ≠ s.result → t.cmd.toNat % 256 ∈ [0x02, 0x03, 0x04, 0x10] ∧ t.cmdcnt = s.cmdcnt + 1) ∧
    (t.rate ≠ s.rate → t.cmd.toNat % 256 = 0x11 ∧ t.cmdcnt = s.cmdcnt + 1) ∧
    (t.lcg ≠ s.lcg → t.cmd.toNat % 256 = 0x12 ∧ t.cmdcnt = s.cmdcnt + 1) ∧
    (t.slpc ≠ s.slpc ∨ t.prevGain ≠ s.prevGain ∨ t.gainAdj ≠ s.gainAdj →
      t.cmd.toNat % 256 ∈ [0x21, 0x23, 0x24] ∧ t.cmdcnt = s.cmdcnt + 1) ∧
    (t.rd ≠ s.rd → t.cmd.toNat % 256 ∈ [0x01, 0x02, 0x03, 0x04, 0x10, 0x11] ∧ t.cmdcnt = s.cmdcnt + 1)

/-! ## The bus -/

/-- 20_memory.md R66, R70, 10_state.md section 2 and R51: an aligned read changes nothing but the data it returns (and the
model's count of unspecified reads); on an idle block the offset of a register in the map returns that register, and a
buffer address its word, lowest address least significant, where the bytes of TROM that no table of 10_state.md R51 takes
read 0, whatever the memory lists there. -/
def Obligations.AlignedReadHasNoSideEffect : Prop :=
  ∀ (s : State) (a : BusAddr) (rest : List Turn), s.schedule = .read a :: rest → a.toNat % 4 = 0 →
    ∃ t, step s = .next t ∧ t = { s with schedule := rest, busOut := t.busOut, draws := t.draws } ∧
      (s.busy = false → t.draws = s.draws ∧
        (∀ r ∈ s.registerMap, a.toNat = r.1 → t.busOut.toNat = r.2) ∧
        ∀ b : Buffer, b.base ≤ a.toNat → a.toNat < b.base + b.size →
          t.busOut.toNat = s.hostByte a.toNat + 2 ^ 8 * s.hostByte (a.toNat + 1) + 2 ^ 16 * s.hostByte (a.toNat + 2) +
            2 ^ 24 * s.hostByte (a.toNat + 3))

/-- 20_memory.md R77: while a command runs, a read of a register other than ID, CTRL, STATUS, IEN, ERRCODE and CMD, or of a
buffer, returns a fresh unspecified value; a read of one of those six returns its defined value. That TROM counts as a buffer
here is the model's choice (entry 6). -/
def Obligations.ReadWhileBusyIsADraw : Prop :=
  ∀ (s : State) (a : BusAddr) (rest : List Turn), s.schedule = .read a :: rest → s.busy = true → a.toNat % 4 = 0 →
    (∀ r, a.toNat < 0x100 → regAt a.toNat = some r →
      (r ∈ [Reg.id, .ctrl, .status, .ien, .errcode, .cmd] →
        step s = .next { s with schedule := rest, busOut := s.readReg r }) ∧
      (r ∉ [Reg.id, .ctrl, .status, .ien, .errcode, .cmd] →
        step s = .next { s with schedule := rest, busOut := Config.busDraw s.draws, draws := s.draws + 1 })) ∧
    (∀ b : Buffer, b.base ≤ a.toNat → a.toNat < b.base + b.size →
      step s = .next { s with schedule := rest, busOut := Config.busDraw s.draws, draws := s.draws + 1 })

/-- 10_state.md R23: a read of STATUS shows each flag at its bit and 0 in the reserved bits, at any time. -/
def Obligations.StatusReadShowsTheFlags : Prop :=
  ∀ (s : State) (rest : List Turn), s.schedule = .read 0x0008#16 :: rest →
    ∃ t, step s = .next t ∧
      t.busOut.toNat = s.busy.toNat + 2 * s.status.done.toNat + 4 * s.status.err.toNat + 8 * s.status.exh.toNat +
        16 * s.status.rdv.toNat + 32 * s.status.eovf.toNat

/-- 20_memory.md R68: a misaligned access of either kind is rejected with BUSALIGN and OP 0xFF, a read returns 0, and
nothing else changes. -/
def Obligations.MisalignedAccessIsRejected : Prop :=
  ∀ (s : State) (a : BusAddr) (d : Word) (lat : Latency) (rest : List Turn), a.toNat % 4 ≠ 0 →
    (s.schedule = .read a :: rest →
      step s = .next (({ s with schedule := rest, busOut := 0 } : State).recorded 0x0A 0xFF)) ∧
    (s.schedule = .write a d lat :: rest →
      step s = .next (({ s with schedule := rest } : State).recorded 0x0A 0xFF))

/-- 20_memory.md R69: an aligned read of an unmapped address or a reserved offset returns 0; an aligned write to one, to a
read-only register or to TROM, BLK, LPCOUT or PCM has no effect and raises no error. That such a read returns 0 while a
command runs, too, is the model's choice (entry 6). -/
def Obligations.UnmappedAndReadOnlyAreIgnored : Prop :=
  ∀ (s : State) (a : BusAddr) (d : Word) (lat : Latency) (rest : List Turn), a.toNat % 4 = 0 →
    ((a.toNat < 0x100 ∧ regAt a.toNat = none) ∨ (0x100 ≤ a.toNat ∧ bufferAt a.toNat = none) →
      (s.schedule = .read a :: rest → step s = .next { s with schedule := rest, busOut := 0 }) ∧
      (s.schedule = .write a d lat :: rest → step s = .next { s with schedule := rest })) ∧
    (s.schedule = .write a d lat :: rest →
      (∃ r ∈ [Reg.id, .errcode, .result, .rate, .lcg, .prevGain, .gainAdj, .cmdcnt, .rdRng, .rdVal, .rdTell, .rdNbits,
          .rdOffs, .rdRem, .rdEndOffs, .rdEndWin, .rdNendBits] ++ (List.ofFn fun j : Fin 16 => Reg.slpc j),
        a.toNat < 0x100 ∧ regAt a.toNat = some r) ∨
      (∃ b ∈ [Buffer.trom, .blk, .lpcout, .pcm], b.base ≤ a.toNat ∧ a.toNat < b.base + b.size) →
      step s = .next { s with schedule := rest })

/-- 20_memory.md R67: an aligned write to a writable buffer is rejected with BUSYWR while a command runs, else with BSLOCK
when it is to BSBUF while RDV = 1, else stores the word, lowest address least significant, and changes no other byte and
no register. -/
def Obligations.BufferWriteStoresOneWord : Prop :=
  ∀ (s : State) (a : BusAddr) (d : Word) (lat : Latency) (rest : List Turn) (b : Buffer),
    s.schedule = .write a d lat :: rest → a.toNat % 4 = 0 →
    b ∈ [Buffer.bsbuf, .tram, .pulses, .exc, .ltpin, .lpca] → b.base ≤ a.toNat → a.toNat < b.base + b.size →
    (s.busy = true →
      step s = .next (({ s with schedule := rest } : State).recorded 0x03 0xFF)) ∧
    (s.busy = false → b = .bsbuf → s.status.rdv = true →
      step s = .next (({ s with schedule := rest } : State).recorded 0x09 0xFF)) ∧
    (s.busy = false → ¬ (b = .bsbuf ∧ s.status.rdv = true) →
      ∃ t, step s = .next t ∧ t = { s with schedule := rest, mem := t.mem } ∧
        (∀ j < 4, (t.mem.read (a.toNat + j)).toNat = d.toNat / 256 ^ j % 256) ∧
        ∀ x, Outside a.toNat 4 x → t.mem.read x = s.mem.read x)

/-- 20_memory.md R67 with 10_state.md R28, R30, R33, R34: a write of CFG, SEED, a GAIN or a LOGGAIN register is rejected with
BUSYWR and OP 0xFF while a command runs and stores nothing; on an idle block the value written reads back as its defined
bits, reserved values included, and every other register as before. -/
def Obligations.WrittenRegisterReadsBackItsDefinedBits : Prop :=
  ∀ (s : State) (d : Word) (lat : Latency) (a : BusAddr) (mask : Word),
    (a, mask) ∈ [(0x001C#16, 0x00000377#32), (0x0024#16, 0x00000003#32), (0x0030#16, 0xFFFFFFFF#32),
      (0x0034#16, 0xFFFFFFFF#32), (0x0038#16, 0xFFFFFFFF#32), (0x003C#16, 0xFFFFFFFF#32), (0x0040#16, 0x0000003F#32),
      (0x0044#16, 0x0000003F#32), (0x0048#16, 0x0000003F#32), (0x004C#16, 0x0000003F#32)] →
    (∀ rest, s.schedule = .write a d lat :: rest → s.busy = true →
      step s = .next (({ s with schedule := rest } : State).recorded 0x03 0xFF)) ∧
    (∀ rest, s.schedule = .write a d lat :: .read a :: rest → s.busy = false →
      ∃ t u, step s = .next t ∧ step t = .next u ∧ u.busOut = d &&& mask ∧
        (∀ r : Reg, regAt a.toNat ≠ some r → u.readReg r = s.readReg r) ∧
        u = { s with
          schedule := rest, busOut := u.busOut, cfg := u.cfg, seed := u.seed, gain := u.gain, loggain := u.loggain })

/-- 10_state.md R29 with 20_memory.md R67 and 70_reset_and_hazards.md R276: a write of LEN is rejected with BUSYWR while a
command runs, else with BSLOCK while RDV = 1, else stores the value clamped to 1280. That the clamp looks at the whole
word is the model's choice (entry 9). -/
def Obligations.LenIsClampedAndLocked : Prop :=
  ∀ (s : State) (d : Word) (lat : Latency) (rest : List Turn), s.schedule = .write 0x0020#16 d lat :: rest →
    (s.busy = true → step s = .next (({ s with schedule := rest } : State).recorded 0x03 0xFF)) ∧
    (s.busy = false → s.status.rdv = true →
      step s = .next (({ s with schedule := rest } : State).recorded 0x09 0xFF)) ∧
    (s.busy = false → s.status.rdv = false →
      ∃ t, step s = .next t ∧ t = { s with schedule := rest, len := t.len } ∧ t.len.toNat = min d.toNat 1280)

/-! ## Errors, interrupt, reset -/

/-- 60_exceptions.md R239 and 10_state.md R23: a write of STATUS, at any time, clears DONE with bit 1 and ERR, EOVF and
ERRCODE together with bit 2, and changes nothing else. -/
def Obligations.StatusWriteClearsByOnes : Prop :=
  ∀ (s : State) (d : Word) (lat : Latency) (rest : List Turn), s.schedule = .write 0x0008#16 d lat :: rest →
    step s = .next { s with
      schedule := rest
      status := { s.status with
        done := s.status.done && !d.getLsbD 1
        err := s.status.err && !d.getLsbD 2
        eovf := s.status.eovf && !d.getLsbD 2 }
      errcode := if d.getLsbD 2 then { code := 0, op := 0 } else s.errcode }

/-- 10_state.md R25: every step keeps ERRCODE and EOVF at 0 while ERR = 0. -/
def Obligations.EveryStepKeepsErrcodeZeroWithoutError : Prop :=
  ∀ s t : State, ErrorInv s → step s = .next t → ErrorInv t

/-- 60_exceptions.md R240: IRQ from the flags and their enables, which a write of IEN sets at any time. -/
def Obligations.InterruptFollowsEnabledFlags : Prop :=
  ∀ (s : State) (d : Word) (lat : Latency) (rest : List Turn), s.schedule = .write 0x000C#16 d lat :: rest →
    ∃ t, step s = .next t ∧ t = { s with schedule := rest, ien := t.ien } ∧
      t.irq = ((s.status.done && d.getLsbD 1) || (s.status.err && d.getLsbD 2) || (s.status.exh && d.getLsbD 3))

/-- 70_reset_and_hazards.md R260, R261, 10_state.md R22: the reset input, and a write of CTRL with bit 0 = 1 in any state,
give every register its reset value, drop a pending command, clear every buffer and keep TROM; a write of CTRL with bit
0 = 0 has no effect. What is kept of the model's own fields is the model's choice (entry 15). -/
def Obligations.ResetClearsEverythingButTrom : Prop :=
  ∀ (s : State) (d : Word) (lat : Latency) (rest : List Turn),
    (s.schedule = .reset :: rest ∨ (s.schedule = .write 0x0004#16 d lat :: rest ∧ d.getLsbD 0 = true) →
      ∃ t, step s = .next t ∧
        t = { State.reset with schedule := rest, busOut := s.busOut, draws := s.draws, mem := t.mem } ∧
        ∀ a, t.mem.read a =
          if 0x2000 ≤ a ∧ a < 0x2500 then s.mem.read a else 0) ∧
    (s.schedule = .write 0x0004#16 d lat :: rest → d.getLsbD 0 = false → step s = .next { s with schedule := rest })

/-- 70_reset_and_hazards.md R260: the reset value of every register, read over the bus, of every buffer byte and of IRQ. -/
def Obligations.ResetValuesOfTheRegisters : Prop :=
  (∀ r : Reg, State.reset.readReg r =
    match r with
    | .id => 0x52445801#32
    | .gain _ => 0x00010000#32
    | .prevGain => 0x00010000#32
    | .gainAdj => 0x00010000#32
    | _ => 0#32) ∧
  State.reset.pending = none ∧ State.reset.irq = false ∧
  ∀ a, ¬ (0x2000 ≤ a ∧ a < 0x2500) → State.reset.mem.read a = 0

/-! ## Invariants and whole runs -/

/-- Every step keeps the memory in canonical form: addresses rising, no entry equal to what an unlisted address reads as.
The form is the model's own representation of the buffers, a DESIGN CHOICE (entry 19), and no rule of the spec. -/
def Obligations.EveryStepKeepsTheMemoryCanonical : Prop :=
  ∀ s t : State, MemoryInv s → step s = .next t → MemoryInv t

/-- 10_state.md R51, 20_memory.md R64, R78: no step changes a byte of TROM. -/
def Obligations.TromNeverChanges : Prop :=
  ∀ s t : State, step s = .next t → ∀ k < 1280, t.mem.read (0x2000 + k) = s.mem.read (0x2000 + k)

/-- 40_control.md R110 to R112, 70_reset_and_hazards.md R275 (the spec's own inference): what an acceptance checked stays
true until the completion, whatever the host does meanwhile. -/
def Obligations.EveryStepKeepsThePendingCommandAcceptable : Prop :=
  ∀ s t : State, PendingInv s → step s = .next t → PendingInv t

/-- 70_reset_and_hazards.md R269 and 40_control.md R112: from a state that meets the invariants every step answers a next
state that meets them: no bitstream, buffer content or access makes the block fail or stop. -/
def Obligations.EveryStepCompletesAndKeepsTheInvariants : Prop :=
  ∀ s : State, Inv s → ∃ t, step s = .next t ∧ Inv t

/-- The state after reset meets the invariants. That its TROM is well-formed rests on the model's choice of contents
(entry 7). -/
def Obligations.ResetMeetsTheInvariants : Prop := Inv State.reset
end

