-- ==== Sys2Proof/Laws/Ops.lean ====
section
/-! SUPPORT. What the shared operations can do, said once: a command run or issued, the engine's turn, a step. -/

namespace Sys2Proof.Machine

/-- `exec` is the shared operation over a command's checks and effect. -/
theorem exec_eq (i : Instr) (s : State) : exec i s = s.runCommand i (checkOf i s) (effectOf i) := by
  cases i <;> rfl

/-- A command that is not accepted: what it is rejected with. -/
theorem runCommand_reject {i : Instr} {chk : Option ErrCode} {eff : State → Result} {s : State}
    (h : s.busy = true ∨ chk ≠ none) :
    ∃ e, s.runCommand i chk eff = .next (s.raise e i.opcode) ∧
      (s.busy = true ∧ e = .cmdBusy ∨ s.busy = false ∧ chk = some e) := by
  unfold State.runCommand
  cases hb : s.busy <;> cases chk <;> simp_all

/-- An accepted command runs its effect on the state after acceptance. -/
theorem runCommand_accept {i : Instr} {eff : State → Result} {s : State} (h : s.busy = false) :
    s.runCommand i none eff = eff (s.accept (encode i)) := by
  simp [State.runCommand, h]

/-- Everything `exec` can do. -/
theorem exec_cases (i : Instr) (s : State) :
    (∃ e, exec i s = .next (s.raise e i.opcode) ∧
      (s.busy = true ∧ e = .cmdBusy ∨ s.busy = false ∧ checkOf i s = some e)) ∨
    (Accepts i s ∧ exec i s = effectOf i (s.accept (encode i))) := by
  rw [exec_eq]
  by_cases hb : s.busy = true
  · exact .inl (runCommand_reject (.inl hb))
  · by_cases hc : checkOf i s = none
    · simp only [Bool.not_eq_true] at hb
      exact .inr ⟨⟨hb, hc⟩, by rw [hc, runCommand_accept hb]⟩
    · exact .inl (runCommand_reject (.inr hc))

/-- What a command issued with a latency does. -/
theorem issue_cases (i : Instr) (s : State) :
    (∃ e, s.issue i (checkOf i s) = s.raise e i.opcode ∧
      (s.busy = true ∧ e = .cmdBusy ∨ s.busy = false ∧ checkOf i s = some e)) ∨
    (Accepts i s ∧ s.issue i (checkOf i s) = s.accept (encode i)) := by
  unfold State.issue Accepts
  cases hb : s.busy <;> cases hc : checkOf i s <;> simp

/-- Everything the engine's turn can do. -/
theorem engineTurn_cases (s : State) :
    (s.pending = none ∧ s.engineTurn = .next s) ∨
    (∃ w i, s.pending = some w ∧ decode w = .ok i ∧ checkOf i s = none ∧ s.engineTurn = effectOf i s) ∨
    s.engineTurn = .fault .pendingNotAccepted := by
  unfold State.engineTurn
  split
  · exact .inl ⟨‹_›, rfl⟩
  · split
    · exact .inr (.inr rfl)
    · split
      · exact .inr (.inr rfl)
      · exact .inr (.inl ⟨_, _, ‹_›, ‹_›, ‹_›, rfl⟩)

/-- The effect of a command answers a next state, or refuses a malformed TROM. -/
theorem effectOf_cases (i : Instr) (s : State) :
    (∃ t, effectOf i s = .next t) ∨ (s.mem.tromWf = false ∧ effectOf i s = .refused .tromMalformed) := by
  cases i <;> simp only [effectOf, effectNop, effectRdInit, effectRdIcdf, effectRdBits, effectRdBitlogp,
    effectRdClose, effectExcSeed, effectExcDecode, effectExcRecon, effectGainDeq, effectLpcSynth, effectGainScale,
    effectSynSubfr, effectSynReset, State.withTrom] <;> first
    | exact .inl ⟨_, rfl⟩
    | (cases s.mem.tromWf
       · exact .inr ⟨rfl, rfl⟩
       · exact .inl ⟨_, rfl⟩)

/-- Every effect that answers a next state ends in the bookkeeping of a completion. -/
theorem effectOf_next {i : Instr} {s t : State} (h : effectOf i s = .next t) : ∃ u : State, t = u.finish := by
  cases i <;> simp only [effectOf, effectNop, effectRdInit, effectRdIcdf, effectRdBits, effectRdBitlogp,
    effectRdClose, effectExcSeed, effectExcDecode, effectExcRecon, effectGainDeq, effectLpcSynth, effectGainScale,
    effectSynSubfr, effectSynReset, State.withTrom] at h <;> first
    | (cases h; exact ⟨_, rfl⟩)
    | (split at h
       · cases h; exact ⟨_, rfl⟩
       · cases h)

/-- A step with no turn left is the engine's turn. -/
theorem step_nil {s : State} (h : s.schedule = []) : step s = s.engineTurn := by
  unfold step; rw [h]

/-- A step takes the next turn of the schedule. -/
theorem step_cons {s : State} {t : Turn} {rest : List Turn} (h : s.schedule = t :: rest) :
    step s = ({ s with schedule := rest } : State).takeTurn t := by
  unfold step; rw [h]

/-- A write of CMD: an illegal word is rejected. -/
theorem writeCmd_illegal {w : Word} {e : DecodeError} {lat : Latency} {s : State} (h : decode w = .error e) :
    s.writeCmd w lat = .next (s.raise (if s.busy then .cmdBusy else .illCmd) (opField w)) := by
  unfold State.writeCmd; rw [h]

/-- A write of CMD with zero latency runs the command. -/
theorem writeCmd_zero {w : Word} {i : Instr} {s : State} (h : decode w = .ok i) :
    s.writeCmd w .zero = exec i s := by
  unfold State.writeCmd; rw [h]

/-- A write of CMD with a latency issues the command. -/
theorem writeCmd_later {w : Word} {i : Instr} {s : State} (h : decode w = .ok i) :
    s.writeCmd w .later = .next (s.issue i (checkOf i s)) := by
  unfold State.writeCmd; rw [h]

end Sys2Proof.Machine
end

