-- ==== Sys2Proof/Laws/Bus.lean ====
section
/-! SUPPORT. Everything a bus access, and so a step, can do, said once. -/

namespace Sys2Proof.Machine

/-- A buffer address is at or above 0x100. -/
theorem Buffer.base_ge (b : Buffer) : 0x100 ≤ b.base := by cases b <;> decide

/-- The buffer found at an address covers it. -/
theorem bufferAt_some {a : Nat} {b : Buffer} (h : bufferAt a = some b) : b.base ≤ a ∧ a < b.base + b.size := by
  have := List.find?_some h
  simpa [Buffer.covers] using this

/-- The buffers do not overlap: an address a buffer covers is at that buffer. -/
theorem bufferAt_eq {a : Nat} {b : Buffer} (h1 : b.base ≤ a) (h2 : a < b.base + b.size) : bufferAt a = some b := by
  have key : ∀ b' : Buffer, b'.covers a = decide (b' = b) := fun b' => by
    rw [Buffer.covers, ← Bool.decide_and]
    refine decide_eq_decide.mpr ⟨fun h => ?_, fun h => h ▸ ⟨h1, h2⟩⟩
    cases b <;> cases b' <;> first
      | rfl
      | (simp only [Buffer.base, Buffer.size] at h h1 h2; omega)
  unfold bufferAt
  simp only [key]
  cases b <;> rfl

/-- Everything a bus read can do. -/
theorem busRead_cases (a : BusAddr) (s : State) :
    (a.toNat % 4 ≠ 0 ∧ s.busRead a = (s.raise .busAlign 0xFF#8).drive 0) ∨
    (a.toNat % 4 = 0 ∧ ∃ w, s.busRead a = s.drive w) ∨
    (a.toNat % 4 = 0 ∧ s.busy = true ∧ s.busRead a = s.drawRead) := by
  unfold State.busRead
  by_cases ha : a.toNat % 4 = 0
  · right
    simp only [ha, ne_eq, not_true_eq_false, if_false, true_and]
    split
    · split
      · exact .inl ⟨_, rfl⟩
      · split
        · rename_i h
          simp only [Bool.and_eq_true] at h
          exact .inr ⟨h.1, rfl⟩
        · exact .inl ⟨_, rfl⟩
    · split
      · exact .inl ⟨_, rfl⟩
      · split
        · exact .inr ⟨‹_›, rfl⟩
        · exact .inl ⟨_, rfl⟩
  · exact .inl ⟨ha, by simp [ha]⟩

/-- A byte outside TROM is shown as it is. -/
theorem hostByte_of_not_covers {m : Memory} {a : Nat} (h : Buffer.trom.covers a = false) : m.hostByte a = m.read a := by
  simp [Memory.hostByte, h]

/-- A byte of a table of TROM is shown as it is. -/
theorem hostByte_of_inRomTable {m : Memory} {a : Nat} (h : inRomTable (a - Buffer.trom.base) = true) :
    m.hostByte a = m.read a := by
  simp [Memory.hostByte, h]

/-- The tables and the gaps of TROM make up the whole of it. -/
theorem inRomTable_eq : ∀ off < 1280, inRomTable off = !decide (∃ g ∈ romGaps, g.1 ≤ off ∧ off < g.2) := by
  decide +kernel

/-- What the host reads of a byte, in numbers. -/
theorem toNat_hostByte (s : State) (a : Nat) : (s.mem.hostByte a).toNat = s.hostByte a := by
  unfold Memory.hostByte State.hostByte
  have hc : Buffer.trom.covers a = true ↔ 0x2000 ≤ a ∧ a < 0x2000 + 1280 := by
    rw [Buffer.covers, Bool.and_eq_true, decide_eq_true_eq, decide_eq_true_eq]
    exact Iff.rfl
  by_cases ht : Buffer.trom.covers a = true
  · have hb := hc.mp ht
    have hg : (∃ g ∈ romGaps, 0x2000 + g.1 ≤ a ∧ a < 0x2000 + g.2) ↔
        ∃ g ∈ romGaps, g.1 ≤ a - 0x2000 ∧ a - 0x2000 < g.2 :=
      exists_congr fun g => and_congr_right fun _ => by omega
    simp only [ht, Bool.true_and, Buffer.base, inRomTable_eq _ (show a - 0x2000 < 1280 by omega), Bool.not_not,
      decide_eq_true_eq, hg]
    split <;> rfl
  · have hg : ¬ ∃ g ∈ romGaps, 0x2000 + g.1 ≤ a ∧ a < 0x2000 + g.2 := by
      rw [hc] at ht
      simp only [romGaps, List.mem_cons, List.not_mem_nil, or_false, exists_eq_or_imp, exists_eq_left]
      omega
    simp [ht, hg]

/-- What a bus write that is not an error, a command, or a reset can do. -/
inductive PlainWrite (s : State) : State → Prop where
  | ignored : PlainWrite s s
  | status (d : Word) : PlainWrite s (s.writeStatus d)
  | ien (e : IntEnable) : PlainWrite s { s with ien := e }
  | data (r : Reg) (d : Word) : r.hostWritable = true → s.busy = false → (r = .len → s.status.rdv = false) →
      PlainWrite s (s.storeReg r d)
  | buffer (b : Buffer) (a : Nat) (d : Word) : b.hostWritable = true → s.busy = false →
      (b = .bsbuf → s.status.rdv = false) → a % 4 = 0 → b.base ≤ a → a + 4 ≤ b.base + b.size →
      PlainWrite s { s with mem := s.mem.store a (bytesOfWord d) }

/-- Everything a bus write can do. -/
theorem busWrite_cases (a : BusAddr) (d : Word) (lat : Latency) (s : State) :
    (∃ e, s.busWrite a d lat = .next (s.raise e 0xFF#8)) ∨ s.busWrite a d lat = .next s.resetBlock ∨
    (a = cmdAddr ∧ s.busWrite a d lat = s.writeCmd d lat) ∨
    (∃ t, s.busWrite a d lat = .next t ∧ PlainWrite s t) := by
  unfold State.busWrite
  split
  · exact .inl ⟨_, rfl⟩
  · rename_i ha
    have ha' : a.toNat % 4 = 0 := by omega
    split
    · split
      · exact .inr (.inr (.inr ⟨_, rfl, .ignored⟩))
      · rename_i r hr
        unfold State.writeReg
        split
        · split
          · exact .inr (.inl rfl)
          · exact .inr (.inr (.inr ⟨_, rfl, .ignored⟩))
        · exact .inr (.inr (.inr ⟨_, rfl, .status d⟩))
        · exact .inr (.inr (.inr ⟨_, rfl, .ien _⟩))
        · refine .inr (.inr (.inl ⟨?_, rfl⟩))
          refine BitVec.eq_of_toNat_eq ?_
          unfold regAt at hr
          split at hr <;> first
            | (cases hr; rename_i h; exact h)
            | cases hr
            | (split at hr <;> cases hr)
        · split
          · exact .inr (.inr (.inr ⟨_, rfl, .ignored⟩))
          · split
            · exact .inl ⟨_, rfl⟩
            · split
              · exact .inl ⟨_, rfl⟩
              · rename_i h1 h2 h3
                refine .inr (.inr (.inr ⟨_, rfl, .data r d (by simpa using h1) (by simpa using h2) fun h => ?_⟩))
                simpa using fun hv => h3 ⟨h, hv⟩
    · split
      · exact .inr (.inr (.inr ⟨_, rfl, .ignored⟩))
      · rename_i b hb
        obtain ⟨h1, h2⟩ := bufferAt_some hb
        unfold State.writeBuffer
        split
        · exact .inr (.inr (.inr ⟨_, rfl, .ignored⟩))
        · split
          · exact .inl ⟨_, rfl⟩
          · split
            · exact .inl ⟨_, rfl⟩
            · rename_i g1 g2 g3
              refine .inr (.inr (.inr ⟨_, rfl,
                .buffer b a.toNat d (by simpa using g1) (by simpa using g2) (fun h => ?_) ha' h1 ?_⟩))
              · simpa using fun hv => g3 ⟨h, hv⟩
              · cases b <;> simp only [Buffer.base, Buffer.size] at h1 h2 ⊢ <;> omega

/-- Everything a write of CMD can do: a rejection, a command run to its completion, or a command accepted and pending. -/
theorem writeCmd_cases (w : Word) (lat : Latency) (s : State) :
    (∃ e, s.writeCmd w lat = .next (s.raise e (opField w))) ∨
    (∃ i, decode w = .ok i ∧ lat = .zero ∧ s.writeCmd w lat = exec i s) ∨
    (∃ i, decode w = .ok i ∧ lat = .later ∧ s.writeCmd w lat = .next (s.issue i (checkOf i s))) := by
  cases hd : decode w with
  | error e => exact .inl ⟨_, writeCmd_illegal hd⟩
  | ok i =>
    cases lat
    · exact .inr (.inl ⟨i, rfl, rfl, writeCmd_zero hd⟩)
    · exact .inr (.inr ⟨i, rfl, rfl, writeCmd_later hd⟩)

end Sys2Proof.Machine
end

