-- ==== Sys2Proof/Laws/Memory.lean ====
section
/-! SUPPORT. The laws of the memory: a read after a store, the canonical form is kept, and the wider elements. -/

namespace Sys2Proof.Machine

namespace Memory

/-- The addresses a memory lists. -/
abbrev keys (m : Memory) : List Nat := m.map Prod.fst

theorem read_of_not_mem {m : Memory} {a : Nat} (h : a ∉ keys m) : m.read a = defaultByte a := by
  induction m with
  | nil => rfl
  | cons c r ih =>
    obtain ⟨b, v⟩ := c
    simp only [keys, List.map_cons, List.mem_cons, not_or] at h
    rw [Memory.read, if_neg (fun e => h.1 e.symm)]
    exact ih h.2

theorem read_append {m r : Memory} {a : Nat} :
    Memory.read (m ++ r) a = if a ∈ keys m then m.read a else Memory.read r a := by
  induction m with
  | nil => simp [keys]
  | cons c m ih =>
    obtain ⟨b, v⟩ := c
    simp only [List.cons_append, Memory.read, keys, List.map_cons, List.mem_cons]
    by_cases h : b = a
    · simp [h]
    · have h' : a ≠ b := fun e => h e.symm
      simp only [h, h', if_false, false_or]
      exact ih

theorem mem_keys_filter {m : Memory} {p : Nat → Bool} {a : Nat} :
    a ∈ keys (m.filter fun c => p c.1) ↔ a ∈ keys m ∧ p a = true := by
  simp only [keys, List.mem_map, List.mem_filter]
  constructor
  · rintro ⟨c, ⟨hc, hp⟩, rfl⟩
    exact ⟨⟨c, hc, rfl⟩, hp⟩
  · rintro ⟨⟨c, hc, rfl⟩, hp⟩
    exact ⟨c, ⟨hc, hp⟩, rfl⟩

theorem read_filter {m : Memory} {p : Nat → Bool} {a : Nat} :
    Memory.read (m.filter fun c => p c.1) a = if p a then m.read a else defaultByte a := by
  by_cases hp : p a = true
  · rw [if_pos hp]
    induction m with
    | nil => rfl
    | cons c m ih =>
      obtain ⟨b, v⟩ := c
      by_cases hb : b = a
      · subst hb
        simp [hp, Memory.read]
      · by_cases hpb : p b = true
        · simp only [List.filter_cons, hpb, if_true, Memory.read, hb, if_false]
          exact ih
        · simp only [List.filter_cons, hpb, Memory.read, hb, if_false]
          exact ih
  · rw [if_neg hp]
    exact read_of_not_mem fun h => hp (mem_keys_filter.mp h).2

theorem mem_keys_cells {bs : List Byte} {base a : Nat} (h : a ∈ keys (cells base bs)) :
    base ≤ a ∧ a < base + bs.length := by
  induction bs generalizing base with
  | nil => simp [cells, keys] at h
  | cons v bs ih =>
    rw [cells] at h
    have step : ∀ h' : a ∈ keys (cells (base + 1) bs), base ≤ a ∧ a < base + (v :: bs).length := fun h' => by
      have := ih h'
      simp only [List.length_cons]
      omega
    split at h
    · exact step h
    · simp only [keys, List.map_cons, List.mem_cons] at h
      rcases h with rfl | h
      · simp
      · exact step h

theorem read_cells {bs : List Byte} {base a : Nat} (h : base ≤ a ∧ a < base + bs.length) :
    (cells base bs).read a = bs.getD (a - base) 0 := by
  induction bs generalizing base with
  | nil => simp at h; omega
  | cons v bs ih =>
    rw [cells]
    by_cases hb : a = base
    · subst hb
      split
      · rw [read_of_not_mem]
        · simp_all
        · intro hk
          have := mem_keys_cells hk
          omega
      · simp [Memory.read]
    · have ih' := ih (base := base + 1) (by simp only [List.length_cons] at h; omega)
      have hi : a - base = (a - (base + 1)) + 1 := by omega
      rw [hi, List.getD_cons_succ, ← ih']
      split
      · rfl
      · rw [Memory.read, if_neg (fun e => hb e.symm)]

/-- A read after a store: the stored byte inside the stored range, the byte of before outside it. -/
theorem read_store (m : Memory) (base : Nat) (bs : List Byte) (a : Nat) :
    (m.store base bs).read a =
      if base ≤ a ∧ a < base + bs.length then bs.getD (a - base) 0 else m.read a := by
  have hlow := @mem_keys_filter m (fun k => decide (k < base)) a
  have hrlow := @read_filter m (fun k => decide (k < base)) a
  have hrhigh := @read_filter m (fun k => decide (base + bs.length ≤ k)) a
  rw [store, read_append, read_append, hrlow, hrhigh]
  simp only [hlow, decide_eq_true_eq]
  by_cases h1 : a < base
  · have hc : a ∉ keys (cells base bs) := fun hk => by have := mem_keys_cells hk; omega
    have h2 : ¬ base + bs.length ≤ a := by omega
    have h3 : ¬ (base ≤ a ∧ a < base + bs.length) := by omega
    simp only [h1, h2, h3, hc, and_true, if_true, if_false]
    split
    · rfl
    · exact (read_of_not_mem ‹_›).symm
  · by_cases h2 : base + bs.length ≤ a
    · have hc : a ∉ keys (cells base bs) := fun hk => by have := mem_keys_cells hk; omega
      have h3 : ¬ (base ≤ a ∧ a < base + bs.length) := by omega
      simp [h1, h2, h3, hc]
    · have h3 : base ≤ a ∧ a < base + bs.length := by omega
      simp only [h1, h2, h3, and_false, and_self, if_true, if_false]
      split
      · exact read_cells h3
      · rw [← read_cells h3]
        exact (read_of_not_mem ‹_›).symm

theorem wfFrom_mono {m : Memory} {lo lo' : Nat} (h : lo ≤ lo') (hm : wfFrom lo' m = true) : wfFrom lo m = true := by
  cases m with
  | nil => rfl
  | cons c r =>
    obtain ⟨b, v⟩ := c
    simp only [wfFrom, Bool.and_eq_true, decide_eq_true_eq] at hm ⊢
    exact ⟨⟨by omega, hm.1.2⟩, hm.2⟩

theorem wfFrom_append {m r : Memory} {lo k : Nat} (hm : wfFrom lo m = true) (hk : ∀ a ∈ keys m, a < k)
    (hlo : lo ≤ k) (hr : wfFrom k r = true) : wfFrom lo (m ++ r) = true := by
  induction m generalizing lo with
  | nil => exact wfFrom_mono hlo hr
  | cons c m ih =>
    obtain ⟨b, v⟩ := c
    simp only [List.cons_append, wfFrom, Bool.and_eq_true, decide_eq_true_eq] at hm ⊢
    have hb : b < k := hk b (by simp [keys])
    exact ⟨hm.1, ih hm.2 (fun a ha => hk a (by simp only [keys, List.map_cons, List.mem_cons]; exact .inr ha)) hb⟩

theorem wfFrom_filter {m : Memory} {p : Host.Cell → Bool} {lo : Nat} (hm : wfFrom lo m = true) :
    wfFrom lo (m.filter p) = true := by
  induction m generalizing lo with
  | nil => rfl
  | cons c m ih =>
    obtain ⟨b, v⟩ := c
    simp only [wfFrom, Bool.and_eq_true, decide_eq_true_eq] at hm
    rw [List.filter_cons]
    split
    · simp only [wfFrom, Bool.and_eq_true, decide_eq_true_eq]
      exact ⟨hm.1, ih hm.2⟩
    · exact wfFrom_mono (by omega) (ih hm.2)

theorem wfFrom_of_keys {m : Memory} {lo k : Nat} (hm : wfFrom lo m = true) (hk : ∀ a ∈ keys m, k ≤ a) :
    wfFrom k m = true := by
  cases m with
  | nil => rfl
  | cons c r =>
    obtain ⟨b, v⟩ := c
    simp only [wfFrom, Bool.and_eq_true, decide_eq_true_eq] at hm ⊢
    exact ⟨⟨hk b (by simp [keys]), hm.1.2⟩, hm.2⟩

theorem wfFrom_cells (base : Nat) (bs : List Byte) : wfFrom base (cells base bs) = true := by
  induction bs generalizing base with
  | nil => rfl
  | cons v bs ih =>
    rw [cells]
    split
    · exact wfFrom_mono (by omega) (ih (base + 1))
    · simp only [wfFrom, Bool.and_eq_true, decide_eq_true_eq]
      exact ⟨⟨Nat.le_refl _, ‹_›⟩, ih (base + 1)⟩

/-- A store keeps the canonical form. -/
theorem wf_store {m : Memory} (h : m.wf = true) (base : Nat) (bs : List Byte) : (m.store base bs).wf = true := by
  refine wfFrom_append (k := base) (wfFrom_filter h) ?_ (Nat.zero_le _) ?_
  · intro a ha
    simpa using (mem_keys_filter (p := fun k => decide (k < base)).mp ha).2
  · refine wfFrom_append (k := base + bs.length) (wfFrom_cells base bs) ?_ (by omega) ?_
    · intro a ha
      exact (mem_keys_cells ha).2
    · refine wfFrom_of_keys (wfFrom_filter h) ?_
      intro a ha
      simpa using (mem_keys_filter (p := fun k => decide (base + bs.length ≤ k)).mp ha).2

/-- A reset of the buffers keeps the canonical form. -/
theorem wf_resetBuffers {m : Memory} (h : m.wf = true) : m.resetBuffers.wf = true := wfFrom_filter h

/-- After a reset TROM reads as before and every other address as an unlisted one. -/
theorem read_resetBuffers (m : Memory) (a : Nat) :
    m.resetBuffers.read a = if Buffer.trom.covers a then m.read a else defaultByte a := read_filter

/-- Memories that read the same bytes have the same words. -/
theorem word_congr {m m' : Memory} {a : Nat} (h : ∀ j < 4, m.read (a + j) = m'.read (a + j)) :
    m.word a = m'.word a := by
  have h0 := h 0 (by omega)
  simp only [Nat.add_zero] at h0
  simp only [word, h0, h 1 (by omega), h 2 (by omega), h 3 (by omega)]

/-- Memories that read the same bytes have the same halfwords. -/
theorem half_congr {m m' : Memory} {a : Nat} (h : ∀ j < 2, m.read (a + j) = m'.read (a + j)) :
    m.half a = m'.half a := by
  have h0 := h 0 (by omega)
  simp only [Nat.add_zero] at h0
  simp only [half, h0, h 1 (by omega)]

@[simp] theorem length_load (m : Memory) (base n : Nat) : (m.load base n).length = n := by simp [load]

@[simp] theorem length_halves (m : Memory) (base n : Nat) : (m.halves base n).length = n := by simp [halves]

@[simp] theorem length_words (m : Memory) (base n : Nat) : (m.words base n).length = n := by simp [words]

theorem getD_load (m : Memory) {base n i : Nat} (h : i < n) : (m.load base n).getD i 0 = m.read (base + i) := by
  simp [load, List.getD, h]

theorem getD_halves (m : Memory) {base n i : Nat} (h : i < n) :
    (m.halves base n).getD i 0 = m.half (base + 2 * i) := by
  simp [halves, List.getD, h]

theorem getD_words (m : Memory) {base n i : Nat} (h : i < n) :
    (m.words base n).getD i 0 = (m.word (base + 4 * i)).toInt := by
  simp [words, List.getD, h]

end Memory

/-- A list of blocks of equal length laid end to end: element `j` of block `i`. -/
theorem getD_flatMap {α : Type} {f : α → List Byte} {n : Nat} (hf : ∀ v, (f v).length = n) (vs : List α)
    {i j : Nat} (hj : j < n) (d : α) (hi : i < vs.length) :
    (vs.flatMap f).getD (n * i + j) 0 = (f (vs.getD i d)).getD j 0 := by
  induction vs generalizing i with
  | nil => simp at hi
  | cons v vs ih =>
    cases i with
    | zero =>
      simp only [Nat.mul_zero, Nat.zero_add, List.flatMap_cons, List.getD_cons_zero]
      exact List.getD_append _ _ _ _ (by rw [hf]; exact hj)
    | succ i =>
      simp only [List.length_cons] at hi
      have he : n * (i + 1) + j = (f v).length + (n * i + j) := by rw [hf]; ring
      rw [List.flatMap_cons, he, List.getD_append_right _ _ _ _ (by omega), Nat.add_sub_cancel_left,
        List.getD_cons_succ]
      exact ih (by omega)

theorem length_flatMap_const {α : Type} {f : α → List Byte} {n : Nat} (hf : ∀ v, (f v).length = n) (vs : List α) :
    (vs.flatMap f).length = n * vs.length := by
  induction vs with
  | nil => simp
  | cons v vs ih => simp [List.flatMap_cons, hf, ih]; ring

theorem wordOfBytes_bytesOfWord (w : Word) :
    wordOfBytes ((bytesOfWord w).getD 0 0) ((bytesOfWord w).getD 1 0) ((bytesOfWord w).getD 2 0)
      ((bytesOfWord w).getD 3 0) = w := by
  simp only [bytesOfWord, wordOfBytes, List.getD_cons_zero, List.getD_cons_succ]
  refine BitVec.eq_of_getLsbD_eq fun i hi => ?_
  simp only [BitVec.getLsbD_append, BitVec.getLsbD_extractLsb']
  split
  · simp [*]
  · split
    · have : 8 + (i - 8) = i := by omega
      simp [*]
    · split
      · have : 16 + (i - 8 - 8) = i := by omega
        simp [*]
      · have : 24 + (i - 8 - 8 - 8) = i := by omega
        have : i - 8 - 8 - 8 < 8 := by omega
        simp [*]

theorem halfOfBytes_bytesOfHalf (h : BitVec 16) :
    ((bytesOfHalf h).getD 1 0 ++ (bytesOfHalf h).getD 0 0 : BitVec 16) = h := by
  simp only [bytesOfHalf, List.getD_cons_zero, List.getD_cons_succ]
  refine BitVec.eq_of_getLsbD_eq fun i hi => ?_
  simp only [BitVec.getLsbD_append, BitVec.getLsbD_extractLsb']
  split
  · simp [*]
  · have : 8 + (i - 8) = i := by omega
    have : i - 8 < 8 := by omega
    simp [*]

namespace Memory

/-- A word element after a store of words: the stored value. -/
theorem word_storeWords (m : Memory) (base : Nat) (vs : List Int) {i : Nat} (hi : i < vs.length) :
    (m.storeWords base vs).word (base + 4 * i) = BitVec.ofInt 32 (vs.getD i 0) := by
  have hlen := length_flatMap_const (f := fun v => bytesOfWord (BitVec.ofInt 32 v)) (n := 4) (fun _ => rfl) vs
  have hr : ∀ j < 4, (m.storeWords base vs).read (base + 4 * i + j) =
      (bytesOfWord (BitVec.ofInt 32 (vs.getD i 0))).getD j 0 := fun j hj => by
    rw [storeWords, read_store, hlen, if_pos (by omega), show base + 4 * i + j - base = 4 * i + j by omega]
    exact getD_flatMap (n := 4) (fun _ => rfl) vs hj 0 hi
  have h0 := hr 0 (by omega)
  rw [Nat.add_zero] at h0
  rw [word, h0, hr 1 (by omega), hr 2 (by omega), hr 3 (by omega), wordOfBytes_bytesOfWord]

/-- A 16-bit element after a store of 16-bit elements: the stored value. -/
theorem half_storeHalves (m : Memory) (base : Nat) (vs : List Int) {i : Nat} (hi : i < vs.length) :
    (m.storeHalves base vs).half (base + 2 * i) = (BitVec.ofInt 16 (vs.getD i 0)).toInt := by
  have hlen := length_flatMap_const (f := fun v => bytesOfHalf (BitVec.ofInt 16 v)) (n := 2) (fun _ => rfl) vs
  have hr : ∀ j < 2, (m.storeHalves base vs).read (base + 2 * i + j) =
      (bytesOfHalf (BitVec.ofInt 16 (vs.getD i 0))).getD j 0 := fun j hj => by
    rw [storeHalves, read_store, hlen, if_pos (by omega), show base + 2 * i + j - base = 2 * i + j by omega]
    exact getD_flatMap (n := 2) (fun _ => rfl) vs hj 0 hi
  have h0 := hr 0 (by omega)
  rw [Nat.add_zero] at h0
  rw [half, h0, hr 1 (by omega), halfOfBytes_bytesOfHalf]

/-- A byte outside a store of words reads as before. -/
theorem read_storeWords_outside (m : Memory) {base a : Nat} {vs : List Int} (h : Outside base (4 * vs.length) a) :
    (m.storeWords base vs).read a = m.read a := by
  have hlen := length_flatMap_const (f := fun v => bytesOfWord (BitVec.ofInt 32 v)) (n := 4) (fun _ => rfl) vs
  unfold Outside at h
  rw [storeWords, read_store, hlen, if_neg (by omega)]

/-- A byte outside a store of 16-bit elements reads as before. -/
theorem read_storeHalves_outside (m : Memory) {base a : Nat} {vs : List Int} (h : Outside base (2 * vs.length) a) :
    (m.storeHalves base vs).read a = m.read a := by
  have hlen := length_flatMap_const (f := fun v => bytesOfHalf (BitVec.ofInt 16 v)) (n := 2) (fun _ => rfl) vs
  unfold Outside at h
  rw [storeHalves, read_store, hlen, if_neg (by omega)]

theorem wf_storeWords {m : Memory} (h : m.wf = true) (base : Nat) (vs : List Int) :
    (m.storeWords base vs).wf = true := wf_store h _ _

theorem wf_storeHalves {m : Memory} (h : m.wf = true) (base : Nat) (vs : List Int) :
    (m.storeHalves base vs).wf = true := wf_store h _ _

end Memory

end Sys2Proof.Machine
end

