-- ==== Sys2Proof/Laws/PerInstr.lean ====
section
/-! SUPPORT. What holds of every command as syntax, one lemma per constructor. -/

namespace Sys2Proof.Laws

/-- The fields of the word of a well-formed command are its opcode, its operand and 0 (30_encoding.md R90 to R92). -/
def FieldsOfEncode.Statement (i : Instr) : Prop :=
  i.wellFormed = true →
    opField (encode i) = i.opcode ∧ (aField (encode i)).toNat = i.operand ∧ rsvField (encode i) = 0

/-- The three fields of a word put together from them. -/
theorem fields_of_append (r : BitVec 16) (a o : Byte) :
    BitVec.extractLsb' 0 8 (r ++ a ++ o) = o ∧ BitVec.extractLsb' 8 8 (r ++ a ++ o) = a ∧
      BitVec.extractLsb' 16 16 (r ++ a ++ o) = r := by
  refine ⟨?_, ?_, ?_⟩ <;> refine BitVec.eq_of_getLsbD_eq fun i hi => ?_
  · rw [BitVec.getLsbD_extractLsb', BitVec.getLsbD_append]
    simp [hi]
  · rw [BitVec.getLsbD_extractLsb', BitVec.getLsbD_append, if_neg (by omega), BitVec.getLsbD_append,
      if_pos (by omega)]
    simp [hi]
  · rw [BitVec.getLsbD_extractLsb', BitVec.getLsbD_append, if_neg (by omega), BitVec.getLsbD_append,
      if_neg (by omega), show 16 + i - 8 - 8 = i by omega]
    simp [hi]

/-- What every lemma of the family comes down to. -/
theorem fieldsOfEncode_all (i : Instr) : FieldsOfEncode.Statement i := by
  intro h
  obtain ⟨ho, ha, hr⟩ := fields_of_append 0#16 (BitVec.ofNat 8 i.operand) i.opcode
  refine ⟨ho, ?_, hr⟩
  have ha' : aField (encode i) = BitVec.ofNat 8 i.operand := ha
  rw [ha', BitVec.toNat_ofNat, Nat.mod_eq_of_lt (of_decide_eq_true h)]

theorem FieldsOfEncode.nop : FieldsOfEncode.Statement .nop := fieldsOfEncode_all _
theorem FieldsOfEncode.rdInit : FieldsOfEncode.Statement .rdInit := fieldsOfEncode_all _
theorem FieldsOfEncode.rdIcdf (off : Nat) : FieldsOfEncode.Statement (.rdIcdf off) := fieldsOfEncode_all _
theorem FieldsOfEncode.rdBits (n : Nat) : FieldsOfEncode.Statement (.rdBits n) := fieldsOfEncode_all _
theorem FieldsOfEncode.rdBitlogp (logp : Nat) : FieldsOfEncode.Statement (.rdBitlogp logp) := fieldsOfEncode_all _
theorem FieldsOfEncode.rdClose : FieldsOfEncode.Statement .rdClose := fieldsOfEncode_all _
theorem FieldsOfEncode.excSeed : FieldsOfEncode.Statement .excSeed := fieldsOfEncode_all _
theorem FieldsOfEncode.excDecode : FieldsOfEncode.Statement .excDecode := fieldsOfEncode_all _
theorem FieldsOfEncode.excRecon : FieldsOfEncode.Statement .excRecon := fieldsOfEncode_all _
theorem FieldsOfEncode.gainDeq : FieldsOfEncode.Statement .gainDeq := fieldsOfEncode_all _
theorem FieldsOfEncode.lpcSynth (k : Nat) : FieldsOfEncode.Statement (.lpcSynth k) := fieldsOfEncode_all _
theorem FieldsOfEncode.gainScale (k : Nat) : FieldsOfEncode.Statement (.gainScale k) := fieldsOfEncode_all _
theorem FieldsOfEncode.synSubfr (k : Nat) : FieldsOfEncode.Statement (.synSubfr k) := fieldsOfEncode_all _
theorem FieldsOfEncode.synReset : FieldsOfEncode.Statement .synReset := fieldsOfEncode_all _

end Sys2Proof.Laws
end

