-- ==== Sys2Proof/Laws/RangeCoder.lean ====
section
/-! SUPPORT. What the primitives of the range decoder do, said once, in numbers: the front byte, one round of NORMALIZE,
NORMALIZE, that each entry point leaves the registers in range, and decoding stages in order (42_excitation.md R160). -/

namespace Sys2Proof.Machine

/-- A front read takes the byte at the index, 0 past the end, and moves the index at most to the end. -/
theorem rdByte_eq {buf : List Byte} {rd : RangeState} (hlen : buf.length < 2048) (hoffs : rd.offs.toNat ≤ buf.length) :
    rdByte buf rd = (buf.getD rd.offs.toNat 0, { rd with offs := BitVec.ofNat 11 (min (rd.offs.toNat + 1) buf.length) }) := by
  unfold rdByte
  split
  · congr 2
    refine BitVec.eq_of_toNat_eq ?_
    rw [BitVec.toNat_add, BitVec.toNat_ofNat, Nat.min_eq_left (by omega)]
    rfl
  · have h : buf.length ≤ rd.offs.toNat := by omega
    have he : BitVec.ofNat 11 (min (rd.offs.toNat + 1) buf.length) = rd.offs := by
      refine BitVec.eq_of_toNat_eq ?_
      rw [BitVec.toNat_ofNat]
      omega
    rw [he, List.getD_eq_default _ _ h]

/-- One round of NORMALIZE on a range of at most 2^23, in numbers. -/
theorem shiftIn_front {buf : List Byte} {rd : RangeState} (hlen : buf.length < 2048)
    (hoffs : rd.offs.toNat ≤ buf.length) (hrng : rd.rng.toNat ≤ 2 ^ 23) (hval : rd.val.toNat < rd.rng.toNat) :
    (shiftIn buf rd).rng.toNat = rd.rng.toNat * 256 ∧
    (shiftIn buf rd).val.toNat =
      rd.val.toNat * 256 + (255 - (rd.rem.toNat * 256 + (buf.getD rd.offs.toNat 0).toNat) / 2 % 256) ∧
    (shiftIn buf rd).rem = buf.getD rd.offs.toNat 0 ∧ (shiftIn buf rd).nbits = rd.nbits + 8 ∧
    (shiftIn buf rd).offs.toNat = min (rd.offs.toNat + 1) buf.length ∧
    (shiftIn buf rd).endOffs = rd.endOffs ∧ (shiftIn buf rd).endWin = rd.endWin ∧
    (shiftIn buf rd).nendBits = rd.nendBits := by
  rw [shiftIn, rdByte_eq hlen hoffs]
  generalize buf.getD rd.offs.toNat 0 = b
  refine ⟨?_, ?_, rfl, rfl, ?_, rfl, rfl, rfl⟩
  · simp only [BitVec.toNat_shiftLeft, Nat.shiftLeft_eq]
    omega
  · have hs : ((((rd.rem ++ b : BitVec 16) >>> 1) &&& 0xFF#16).setWidth 32).toNat =
        (rd.rem.toNat * 256 + b.toNat) / 2 % 256 := by
      have hb := b.isLt
      have happ : (rd.rem ++ b : BitVec 16).toNat = rd.rem.toNat * 256 + b.toNat := by
        rw [BitVec.toNat_append, Nat.shiftLeft_eq, Nat.mul_comm, ← Nat.two_pow_add_eq_or_of_lt hb, Nat.mul_comm]
      rw [BitVec.toNat_setWidth, BitVec.toNat_and, BitVec.toNat_ushiftRight, happ, Nat.shiftRight_eq_div_pow,
        show (0xFF#16).toNat = 2 ^ 8 - 1 from rfl, Nat.and_two_pow_sub_one_eq_mod, Nat.pow_one]
      omega
    have hs' : (BitVec.setWidth 32 ((rd.rem ++ b) >>> 1 &&& 255)).toNat =
        (rd.rem.toNat * 256 + b.toNat) / 2 % 256 := hs
    have hm : ((0x7FFFFFFF : Word)).toNat = 2 ^ 31 - 1 := rfl
    rw [BitVec.toNat_and, hm, Nat.and_two_pow_sub_one_eq_mod,
      BitVec.toNat_add, BitVec.toNat_shiftLeft, Nat.shiftLeft_eq, BitVec.toNat_sub, hs']
    have : (255 : Word).toNat = 255 := rfl
    omega
  · simp only [BitVec.toNat_ofNat]
    omega

/-- NORMALIZE from a nonempty range leaves the registers in range; the window of the raw bits is untouched. -/
theorem normalize_rangeOk {buf : List Byte} {rd : RangeState} (hlen : buf.length < 2048) (h0 : 0 < rd.rng.toNat)
    (hrng : rd.rng.toNat ≤ 2 ^ 31) (hval : rd.val.toNat < rd.rng.toNat) (hoffs : rd.offs.toNat ≤ buf.length)
    (hend : rd.endOffs.toNat ≤ buf.length) (hnend : rd.nendBits.toNat ≤ 32)
    (hwin : rd.endWin.toNat < 2 ^ rd.nendBits.toNat) : RangeOk buf.length (normalize buf rd) := by
  have loop : ∀ (n : Nat) (rd : RangeState), 2 ^ 23 < rd.rng.toNat * 256 ^ n → rd.rng.toNat ≤ 2 ^ 31 →
      rd.val.toNat < rd.rng.toNat → rd.offs.toNat ≤ buf.length → rd.endOffs.toNat ≤ buf.length →
      rd.nendBits.toNat ≤ 32 → rd.endWin.toNat < 2 ^ rd.nendBits.toNat →
      RangeOk buf.length (normalizeLoop buf n rd) := by
    intro n
    induction n with
    | zero => intro rd h1 h2 h3 h4 h5 h6 h7; exact ⟨by simpa [normalizeLoop] using h1, h2, h3, h4, h5, h6, h7⟩
    | succ n ih =>
      intro rd h1 h2 h3 h4 h5 h6 h7
      rw [normalizeLoop]
      split
      · have hle : rd.rng.toNat ≤ 2 ^ 23 := by
          have := BitVec.le_def.mp ‹_›
          simpa using this
        obtain ⟨r, v, _, _, o, e, w, ne⟩ := shiftIn_front hlen h4 hle h3
        refine ih _ ?_ ?_ ?_ ?_ (e ▸ h5) (ne ▸ h6) (by rw [w, ne]; exact h7)
        · rw [r, Nat.mul_assoc, Nat.mul_comm 256]; exact h1
        · omega
        · omega
        · omega
      · refine ⟨?_, h2, h3, h4, h5, h6, h7⟩
        have := mt BitVec.le_def.mpr ‹_›
        simpa using this
  exact loop 3 rd (by omega) hrng hval hoffs hend hnend hwin

@[simp] theorem Coder.checkExh_rd (len : Nat) (c : Coder) : (c.checkExh len).rd = c.rd := by
  unfold Coder.checkExh; split <;> rfl

/-- EXH after the check of a range decoder operation. -/
@[simp] theorem Coder.checkExh_exh (len : Nat) (c : Coder) :
    (c.checkExh len).exh = (c.exh || decide (8 * len < c.rd.tell.toNat)) := by
  unfold Coder.checkExh
  split <;> rename_i h
  · simp only [decide_eq_true (show 8 * len < c.rd.tell.toNat from h), Bool.or_true]
  · simp only [decide_eq_false (show ¬ 8 * len < c.rd.tell.toNat from h), Bool.or_false]

/-- Everything the search of a symbol can answer: from an upper bound above the value, a symbol, its upper bound above the
value and its lower bound at most the value. -/
theorem icdfSearch_bounds {r d : Nat} {ts : List Byte} {u k : Nat} (hu : d < u) :
    d < (icdfSearch r d ts u k).2.1 ∧ (icdfSearch r d ts u k).2.1 ≤ max u (r * 255) ∧
      (icdfSearch r d ts u k).2.2 ≤ d := by
  induction ts generalizing u k with
  | nil => exact ⟨hu, Nat.le_max_left _ _, Nat.zero_le _⟩
  | cons t ts ih =>
    rw [icdfSearch]
    split
    · exact ⟨hu, Nat.le_max_left _ _, ‹_›⟩
    · obtain ⟨h1, h2, h3⟩ := ih (u := r * t.toNat) (k := k + 1) (by omega)
      have ht : r * t.toNat ≤ r * 255 := Nat.mul_le_mul_left r (by have := t.isLt; omega)
      exact ⟨h1, by omega, h3⟩

/-- The symbol found lies in the table when its last byte is 0 (41_range_decoder.md R146). -/
theorem icdfSearch_lt {r d : Nat} {ts : List Byte} {u k : Nat} (h : ts.getLast? = some 0) :
    (icdfSearch r d ts u k).1 < k + ts.length := by
  induction ts generalizing u k with
  | nil => simp at h
  | cons t ts ih =>
    rw [icdfSearch]
    split
    · simp
    · cases ts with
      | nil => simp_all
      | cons t' ts' =>
        have := ih (u := r * t.toNat) (k := k + 1) (by simpa using h)
        simp only [List.length_cons] at this ⊢
        omega

/-- Decoding a symbol keeps the registers in range, whatever the table (41_range_decoder.md R147). -/
theorem Coder.icdf_rangeOk {buf t : List Byte} {c : Coder} (hlen : buf.length < 2048)
    (h : RangeOk buf.length c.rd) : RangeOk buf.length (c.icdf buf t).2.rd := by
  obtain ⟨h1, h2, h3, h4, h5, h6, h7⟩ := h
  obtain ⟨b1, b2, b3⟩ := icdfSearch_bounds (r := c.rd.rng.toNat / 256) (ts := t) (k := 0) h3
  have hb : (icdfSearch (c.rd.rng.toNat / 256) c.rd.val.toNat t c.rd.rng.toNat 0).2.1 ≤ 2 ^ 31 := by omega
  unfold Coder.icdf
  simp only [Coder.checkExh_rd]
  refine normalize_rangeOk hlen ?_ ?_ ?_ h4 h5 h6 h7 <;> simp only [BitVec.toNat_ofNat] <;> omega

/-- Decoding a bit keeps the registers in range (41_range_decoder.md R147). -/
theorem Coder.bitLogp_rangeOk {buf : List Byte} {logp : Nat} {c : Coder} (hlen : buf.length < 2048) (hp : 1 ≤ logp)
    (hp' : logp ≤ 15) (h : RangeOk buf.length c.rd) : RangeOk buf.length (c.bitLogp buf logp).2.rd := by
  obtain ⟨h1, h2, h3, h4, h5, h6, h7⟩ := h
  have hs : (c.rd.rng >>> logp).toNat = c.rd.rng.toNat / 2 ^ logp := by
    rw [BitVec.toNat_ushiftRight, Nat.shiftRight_eq_div_pow]
  have hlo : 2 ^ logp ≤ c.rd.rng.toNat := Nat.le_trans (Nat.pow_le_pow_right (by omega) hp') (by omega)
  have hpos : 0 < c.rd.rng.toNat / 2 ^ logp := Nat.div_pos hlo (by positivity)
  have hhalf : c.rd.rng.toNat / 2 ^ logp ≤ c.rd.rng.toNat / 2 :=
    Nat.div_le_div_left (by simpa using Nat.pow_le_pow_right (n := 2) (by omega) hp) (by omega)
  unfold Coder.bitLogp
  simp only [Coder.checkExh_rd]
  split <;> rename_i hd
  · have hd' : c.rd.val.toNat < (c.rd.rng >>> logp).toNat := BitVec.lt_def.mp (of_decide_eq_true hd)
    exact normalize_rangeOk hlen (by simp only; omega) (by simp only; omega) hd' h4 h5 h6 h7
  · have hd' : ¬ c.rd.val.toNat < (c.rd.rng >>> logp).toNat := fun hlt => hd (decide_eq_true (BitVec.lt_def.mpr hlt))
    refine normalize_rangeOk hlen ?_ ?_ ?_ h4 h5 h6 h7 <;> simp only [BitVec.toNat_sub, hs] <;> omega

/-- A back read takes a byte and moves the count of back bytes at most to the length. -/
theorem rdByteEnd_eq {buf : List Byte} {rd : RangeState} (hlen : buf.length < 2048)
    (hend : rd.endOffs.toNat ≤ buf.length) :
    (rdByteEnd buf rd).2 = { rd with endOffs := BitVec.ofNat 11 (min (rd.endOffs.toNat + 1) buf.length) } := by
  unfold rdByteEnd
  split
  · simp only
    congr 1
    refine BitVec.eq_of_toNat_eq ?_
    rw [BitVec.toNat_add, BitVec.toNat_ofNat, Nat.min_eq_left (by omega)]
    rfl
  · have he : BitVec.ofNat 11 (min (rd.endOffs.toNat + 1) buf.length) = rd.endOffs := by
      refine BitVec.eq_of_toNat_eq ?_
      rw [BitVec.toNat_ofNat]
      omega
    rw [he]

/-- One round of the refill: the byte lies above the bits that are there. -/
theorem refillRound_window {buf : List Byte} {rd : RangeState} (hlen : buf.length < 2048)
    (hend : rd.endOffs.toNat ≤ buf.length) (hn : rd.nendBits.toNat ≤ 24)
    (hw : rd.endWin.toNat < 2 ^ rd.nendBits.toNat) :
    (refillRound buf rd).endWin.toNat = rd.endWin.toNat + 2 ^ rd.nendBits.toNat * (rdByteEnd buf rd).1.toNat ∧
    (refillRound buf rd).nendBits.toNat = rd.nendBits.toNat + 8 ∧
    (refillRound buf rd).endOffs.toNat = min (rd.endOffs.toNat + 1) buf.length ∧
    (refillRound buf rd).rng = rd.rng ∧ (refillRound buf rd).val = rd.val ∧ (refillRound buf rd).offs = rd.offs ∧
    (refillRound buf rd).rem = rd.rem ∧ (refillRound buf rd).nbits = rd.nbits := by
  have hr := rdByteEnd_eq hlen hend
  unfold refillRound
  simp only [hr]
  refine ⟨?_, ?_, ?_, trivial, trivial, trivial, trivial, trivial⟩
  · have hb := (rdByteEnd buf rd).1.isLt
    have hpow : (2 : Nat) ^ rd.nendBits.toNat * 2 ^ 8 ≤ 2 ^ 32 := by
      rw [← pow_add]
      exact Nat.pow_le_pow_right (by omega) (by omega)
    have hlt : 2 ^ rd.nendBits.toNat * (rdByteEnd buf rd).1.toNat < 2 ^ 32 :=
      Nat.lt_of_lt_of_le (Nat.mul_lt_mul_of_pos_left hb (by positivity)) hpow
    rw [BitVec.toNat_or, BitVec.toNat_shiftLeft, Nat.shiftLeft_eq, BitVec.toNat_setWidth,
      Nat.mod_eq_of_lt (by omega : (rdByteEnd buf rd).1.toNat < 2 ^ 32), Nat.mul_comm, Nat.mod_eq_of_lt hlt, Nat.or_comm,
      ← Nat.two_pow_add_eq_or_of_lt hw, Nat.add_comm]
  · rw [BitVec.toNat_add, show (8 : BitVec 6).toNat = 8 from rfl]
    omega
  · rw [BitVec.toNat_ofNat]
    omega

/-- The refill from a window of at most 24 bits: more than 24 and at most 32 bits, everything else in range. -/
theorem refill_rangeOk {buf : List Byte} (hlen : buf.length < 2048) (n : Nat) {rd : RangeState}
    (h : RangeOk buf.length rd) (hn : rd.nendBits.toNat ≤ 24) (hfuel : 24 < rd.nendBits.toNat + 8 * n) :
    RangeOk buf.length (refill buf n rd) ∧ 24 < (refill buf n rd).nendBits.toNat := by
  induction n generalizing rd with
  | zero => omega
  | succ n ih =>
    obtain ⟨h1, h2, h3, h4, h5, h6, h7⟩ := h
    obtain ⟨w, av, eo, r, v, o, _, _⟩ := refillRound_window hlen h5 hn h7
    have hb := (rdByteEnd buf rd).1.isLt
    have hok : RangeOk buf.length (refillRound buf rd) := by
      refine ⟨r ▸ h1, r ▸ h2, by rw [v, r]; exact h3, o ▸ h4, by omega, by omega, ?_⟩
      rw [w, av, pow_add]
      have := Nat.mul_le_mul_left (2 ^ rd.nendBits.toNat) (show (rdByteEnd buf rd).1.toNat + 1 ≤ 2 ^ 8 by omega)
      rw [Nat.mul_add] at this
      omega
    rw [refill]
    split
    · exact ⟨hok, ‹_›⟩
    · exact ih hok (by omega) (by omega)

/-- Reading raw bits keeps the registers in range (41_range_decoder.md R147). -/
theorem Coder.rawBits_rangeOk {buf : List Byte} {n : Nat} {c : Coder} (hlen : buf.length < 2048) (hn : n ≤ 25)
    (h : RangeOk buf.length c.rd) : RangeOk buf.length (c.rawBits buf n).2.rd := by
  have key : ∀ rd : RangeState, RangeOk buf.length rd → n ≤ rd.nendBits.toNat →
      RangeOk buf.length { rd with
        endWin := rd.endWin >>> n
        nendBits := rd.nendBits - BitVec.ofNat 6 n
        nbits := rd.nbits + BitVec.ofNat 32 n } := by
    rintro rd ⟨h1, h2, h3, h4, h5, h6, h7⟩ hle
    have hav : (rd.nendBits - BitVec.ofNat 6 n).toNat = rd.nendBits.toNat - n := by
      rw [BitVec.toNat_sub, BitVec.toNat_ofNat]
      omega
    refine ⟨h1, h2, h3, h4, h5, by simp only [hav]; omega, ?_⟩
    simp only [hav, BitVec.toNat_ushiftRight, Nat.shiftRight_eq_div_pow]
    rw [Nat.div_lt_iff_lt_mul (by positivity), ← pow_add, Nat.sub_add_cancel hle]
    exact h7
  unfold Coder.rawBits
  simp only [Coder.checkExh_rd]
  split
  · obtain ⟨hok, hav⟩ := refill_rangeOk hlen 4 h (by omega) (by omega)
    exact key _ hok (by omega)
  · exact key _ h (by omega)

/-- The start leaves the registers in range (41_range_decoder.md R132). -/
theorem Coder.start_rangeOk {buf : List Byte} (hlen : buf.length < 2048) : RangeOk buf.length (Coder.start buf).rd := by
  unfold Coder.start
  simp only [Coder.checkExh_rd]
  rw [rdByte_eq hlen (by simp [RangeState.reset])]
  generalize buf.getD _ 0 = b
  refine normalize_rangeOk hlen (by simp) (by simp) ?_ ?_ (by simp [RangeState.reset]) (by simp [RangeState.reset])
    (by simp [RangeState.reset])
  · have h : ∀ b : Byte, (127 - (b >>> 1).setWidth 32 : Word).toNat < (128 : Word).toNat := by decide +kernel
    exact h b
  · simp only [BitVec.toNat_ofNat]
    omega

/-! ## Stages in order -/

/-- No stage leaves the range decoder as it is. -/
theorem stages_zero {α : Type} {f : Nat → Coder → α × Coder} {x : Nat → α} {c : Coder} : Stages f 0 c x c :=
  ⟨fun _ => c, rfl, rfl, fun _ h => absurd h (Nat.not_lt_zero _)⟩

/-- One stage. -/
theorem stages_one {α : Type} {f : Nat → Coder → α × Coder} {x : Nat → α} {c c' : Coder} (h : (x 0, c') = f 0 c) :
    Stages f 1 c x c' :=
  ⟨fun j => if j = 0 then c else c', by simp, by simp, fun j hj => by
    obtain rfl : j = 0 := by omega
    simpa using h⟩

/-- Stages one after the other. -/
theorem stages_trans {α : Type} {f : Nat → Coder → α × Coder} {x : Nat → α} {m n : Nat} {c1 c2 c3 : Coder}
    (h1 : Stages f m c1 x c2) (h2 : Stages (fun j => f (m + j)) n c2 (fun j => x (m + j)) c3) :
    Stages f (m + n) c1 x c3 := by
  obtain ⟨a, a0, am, ah⟩ := h1
  obtain ⟨b, b0, bn, bh⟩ := h2
  refine ⟨fun j => if j ≤ m then a j else b (j - m), by simp [a0], ?_, fun j hj => ?_⟩
  · by_cases hn : n = 0
    · subst hn
      simp [am, ← bn, b0]
    · simp [hn, bn]
  · by_cases h : j < m
    · simp [show j ≤ m by omega, show j + 1 ≤ m by omega, ah j h]
    · have hb := bh (j - m) (by omega)
      simp only [show m + (j - m) = j by omega] at hb
      by_cases h' : j = m
      · subst h'
        simp only [Nat.sub_self] at hb
        simp [am, ← b0, ← hb]
      · simp [show ¬ j ≤ m by omega, show ¬ j + 1 ≤ m by omega, ← hb]
        congr 1
        omega

/-- Stages that agree below `n` are the same `n` stages. -/
theorem stages_congr {α : Type} {f g : Nat → Coder → α × Coder} {x y : Nat → α} {n : Nat} {c c' : Coder}
    (h : Stages f n c x c') (hf : ∀ j < n, f j = g j) (hx : ∀ j < n, x j = y j) : Stages g n c y c' := by
  obtain ⟨cs, h0, hn, hs⟩ := h
  exact ⟨cs, h0, hn, fun j hj => by rw [← hf j hj, ← hx j hj, hs j hj]⟩

/-- A stage on every element gives a result for every element. -/
@[simp] theorem mapCoder_length {α β : Type} (f : α → Coder → β × Coder) (as : List α) (c : Coder) :
    (mapCoder f as c).1.length = as.length := by
  induction as generalizing c with
  | nil => rfl
  | cons a as ih => simp [mapCoder, ih]

/-- A stage run on every element of a list is that many stages in order. -/
theorem mapCoder_stages {α β : Type} (f : α → Coder → β × Coder) (d : α) (e : β) (as : List α) (c : Coder) :
    Stages (fun j => f (as.getD j d)) as.length c (fun j => (mapCoder f as c).1.getD j e) (mapCoder f as c).2 := by
  induction as generalizing c with
  | nil => exact stages_zero
  | cons a as ih =>
    rw [List.length_cons, Nat.add_comm]
    exact stages_trans (c2 := (f a c).2) (stages_one rfl)
      (stages_congr (ih (f a c).2) (fun j _ => by simp [Nat.add_comm 1]) fun j _ => by simp [Nat.add_comm 1, mapCoder])

/-- Stages on the 16 samples of each of `n` blocks are `16 * n` stages on the samples of the frame. -/
theorem stages_samples {α β : Type} (g : Nat → α → Coder → β × Coder) (as : Nat → List α) (ys : Nat → List β) (d : α)
    (e : β) (n : Nat) {c c' : Coder} (hl : ∀ b < n, (as b).length = 16)
    (h : Stages (fun b => mapCoder (g b) (as b)) n c ys c') :
    Stages (fun i => g (i / 16) ((as (i / 16)).getD (i % 16) d)) (16 * n) c (fun i => (ys (i / 16)).getD (i % 16) e)
      c' := by
  obtain ⟨cs, h0, hn, hs⟩ := h
  induction n generalizing c' with
  | zero =>
    subst h0 hn
    exact stages_zero
  | succ n ih =>
    refine stages_trans (m := 16 * n) (n := 16) (c2 := cs n)
      (ih (fun b hb => hl b (by omega)) rfl fun j hj => hs j (by omega)) ?_
    have hlast := hs n (by omega)
    simp only at hlast
    have hmap := mapCoder_stages (g n) d e (as n) (cs n)
    rw [hl n (by omega), ← hlast, hn] at hmap
    refine stages_congr hmap (fun j hj => ?_) fun j hj => ?_ <;>
      rw [show (16 * n + j) / 16 = n by omega, show (16 * n + j) % 16 = j by omega]

end Sys2Proof.Machine
end

