-- ==== Sys2Proof/Laws/State.lean ====
section
/-! SUPPORT. One lemma per field of State for every named update: what the update leaves in the field. -/

namespace Sys2Proof.Machine

variable (s : State)

/-! ## `raise` -/

@[simp] theorem State.raise_status (e : ErrCode) (op : Byte) :
    (s.raise e op).status = if s.status.err then { s.status with eovf := true } else { s.status with err := true } := by
  unfold State.raise; split <;> rfl
@[simp] theorem State.raise_ien (e : ErrCode) (op : Byte) : (s.raise e op).ien = s.ien := by
  unfold State.raise; split <;> rfl
@[simp] theorem State.raise_errcode (e : ErrCode) (op : Byte) :
    (s.raise e op).errcode = if s.status.err then s.errcode else { code := e.code, op := op } := by
  unfold State.raise; split <;> rfl
@[simp] theorem State.raise_cmd (e : ErrCode) (op : Byte) : (s.raise e op).cmd = s.cmd := by
  unfold State.raise; split <;> rfl
@[simp] theorem State.raise_pending (e : ErrCode) (op : Byte) : (s.raise e op).pending = s.pending := by
  unfold State.raise; split <;> rfl
@[simp] theorem State.raise_result (e : ErrCode) (op : Byte) : (s.raise e op).result = s.result := by
  unfold State.raise; split <;> rfl
@[simp] theorem State.raise_cfg (e : ErrCode) (op : Byte) : (s.raise e op).cfg = s.cfg := by
  unfold State.raise; split <;> rfl
@[simp] theorem State.raise_len (e : ErrCode) (op : Byte) : (s.raise e op).len = s.len := by
  unfold State.raise; split <;> rfl
@[simp] theorem State.raise_seed (e : ErrCode) (op : Byte) : (s.raise e op).seed = s.seed := by
  unfold State.raise; split <;> rfl
@[simp] theorem State.raise_rate (e : ErrCode) (op : Byte) : (s.raise e op).rate = s.rate := by
  unfold State.raise; split <;> rfl
@[simp] theorem State.raise_lcg (e : ErrCode) (op : Byte) : (s.raise e op).lcg = s.lcg := by
  unfold State.raise; split <;> rfl
@[simp] theorem State.raise_gain (e : ErrCode) (op : Byte) : (s.raise e op).gain = s.gain := by
  unfold State.raise; split <;> rfl
@[simp] theorem State.raise_loggain (e : ErrCode) (op : Byte) : (s.raise e op).loggain = s.loggain := by
  unfold State.raise; split <;> rfl
@[simp] theorem State.raise_prevGain (e : ErrCode) (op : Byte) : (s.raise e op).prevGain = s.prevGain := by
  unfold State.raise; split <;> rfl
@[simp] theorem State.raise_gainAdj (e : ErrCode) (op : Byte) : (s.raise e op).gainAdj = s.gainAdj := by
  unfold State.raise; split <;> rfl
@[simp] theorem State.raise_cmdcnt (e : ErrCode) (op : Byte) : (s.raise e op).cmdcnt = s.cmdcnt := by
  unfold State.raise; split <;> rfl
@[simp] theorem State.raise_rd (e : ErrCode) (op : Byte) : (s.raise e op).rd = s.rd := by
  unfold State.raise; split <;> rfl
@[simp] theorem State.raise_slpc (e : ErrCode) (op : Byte) : (s.raise e op).slpc = s.slpc := by
  unfold State.raise; split <;> rfl
@[simp] theorem State.raise_mem (e : ErrCode) (op : Byte) : (s.raise e op).mem = s.mem := by
  unfold State.raise; split <;> rfl
@[simp] theorem State.raise_schedule (e : ErrCode) (op : Byte) : (s.raise e op).schedule = s.schedule := by
  unfold State.raise; split <;> rfl
@[simp] theorem State.raise_busOut (e : ErrCode) (op : Byte) : (s.raise e op).busOut = s.busOut := by
  unfold State.raise; split <;> rfl
@[simp] theorem State.raise_draws (e : ErrCode) (op : Byte) : (s.raise e op).draws = s.draws := by
  unfold State.raise; split <;> rfl

/-! ## `clearError` -/

@[simp] theorem State.clearError_status : (s.clearError).status = { s.status with err := false, eovf := false } := rfl
@[simp] theorem State.clearError_ien : (s.clearError).ien = s.ien := rfl
@[simp] theorem State.clearError_errcode : (s.clearError).errcode = { code := 0, op := 0 } := rfl
@[simp] theorem State.clearError_cmd : (s.clearError).cmd = s.cmd := rfl
@[simp] theorem State.clearError_pending : (s.clearError).pending = s.pending := rfl
@[simp] theorem State.clearError_result : (s.clearError).result = s.result := rfl
@[simp] theorem State.clearError_cfg : (s.clearError).cfg = s.cfg := rfl
@[simp] theorem State.clearError_len : (s.clearError).len = s.len := rfl
@[simp] theorem State.clearError_seed : (s.clearError).seed = s.seed := rfl
@[simp] theorem State.clearError_rate : (s.clearError).rate = s.rate := rfl
@[simp] theorem State.clearError_lcg : (s.clearError).lcg = s.lcg := rfl
@[simp] theorem State.clearError_gain : (s.clearError).gain = s.gain := rfl
@[simp] theorem State.clearError_loggain : (s.clearError).loggain = s.loggain := rfl
@[simp] theorem State.clearError_prevGain : (s.clearError).prevGain = s.prevGain := rfl
@[simp] theorem State.clearError_gainAdj : (s.clearError).gainAdj = s.gainAdj := rfl
@[simp] theorem State.clearError_cmdcnt : (s.clearError).cmdcnt = s.cmdcnt := rfl
@[simp] theorem State.clearError_rd : (s.clearError).rd = s.rd := rfl
@[simp] theorem State.clearError_slpc : (s.clearError).slpc = s.slpc := rfl
@[simp] theorem State.clearError_mem : (s.clearError).mem = s.mem := rfl
@[simp] theorem State.clearError_schedule : (s.clearError).schedule = s.schedule := rfl
@[simp] theorem State.clearError_busOut : (s.clearError).busOut = s.busOut := rfl
@[simp] theorem State.clearError_draws : (s.clearError).draws = s.draws := rfl

/-! ## `clearDone` -/

@[simp] theorem State.clearDone_status : (s.clearDone).status = { s.status with done := false } := rfl
@[simp] theorem State.clearDone_ien : (s.clearDone).ien = s.ien := rfl
@[simp] theorem State.clearDone_errcode : (s.clearDone).errcode = s.errcode := rfl
@[simp] theorem State.clearDone_cmd : (s.clearDone).cmd = s.cmd := rfl
@[simp] theorem State.clearDone_pending : (s.clearDone).pending = s.pending := rfl
@[simp] theorem State.clearDone_result : (s.clearDone).result = s.result := rfl
@[simp] theorem State.clearDone_cfg : (s.clearDone).cfg = s.cfg := rfl
@[simp] theorem State.clearDone_len : (s.clearDone).len = s.len := rfl
@[simp] theorem State.clearDone_seed : (s.clearDone).seed = s.seed := rfl
@[simp] theorem State.clearDone_rate : (s.clearDone).rate = s.rate := rfl
@[simp] theorem State.clearDone_lcg : (s.clearDone).lcg = s.lcg := rfl
@[simp] theorem State.clearDone_gain : (s.clearDone).gain = s.gain := rfl
@[simp] theorem State.clearDone_loggain : (s.clearDone).loggain = s.loggain := rfl
@[simp] theorem State.clearDone_prevGain : (s.clearDone).prevGain = s.prevGain := rfl
@[simp] theorem State.clearDone_gainAdj : (s.clearDone).gainAdj = s.gainAdj := rfl
@[simp] theorem State.clearDone_cmdcnt : (s.clearDone).cmdcnt = s.cmdcnt := rfl
@[simp] theorem State.clearDone_rd : (s.clearDone).rd = s.rd := rfl
@[simp] theorem State.clearDone_slpc : (s.clearDone).slpc = s.slpc := rfl
@[simp] theorem State.clearDone_mem : (s.clearDone).mem = s.mem := rfl
@[simp] theorem State.clearDone_schedule : (s.clearDone).schedule = s.schedule := rfl
@[simp] theorem State.clearDone_busOut : (s.clearDone).busOut = s.busOut := rfl
@[simp] theorem State.clearDone_draws : (s.clearDone).draws = s.draws := rfl

/-! ## `accept` -/

@[simp] theorem State.accept_status (w : Word) : (s.accept w).status = { s.status with done := false } := rfl
@[simp] theorem State.accept_ien (w : Word) : (s.accept w).ien = s.ien := rfl
@[simp] theorem State.accept_errcode (w : Word) : (s.accept w).errcode = s.errcode := rfl
@[simp] theorem State.accept_cmd (w : Word) : (s.accept w).cmd = w := rfl
@[simp] theorem State.accept_pending (w : Word) : (s.accept w).pending = some w := rfl
@[simp] theorem State.accept_result (w : Word) : (s.accept w).result = s.result := rfl
@[simp] theorem State.accept_cfg (w : Word) : (s.accept w).cfg = s.cfg := rfl
@[simp] theorem State.accept_len (w : Word) : (s.accept w).len = s.len := rfl
@[simp] theorem State.accept_seed (w : Word) : (s.accept w).seed = s.seed := rfl
@[simp] theorem State.accept_rate (w : Word) : (s.accept w).rate = s.rate := rfl
@[simp] theorem State.accept_lcg (w : Word) : (s.accept w).lcg = s.lcg := rfl
@[simp] theorem State.accept_gain (w : Word) : (s.accept w).gain = s.gain := rfl
@[simp] theorem State.accept_loggain (w : Word) : (s.accept w).loggain = s.loggain := rfl
@[simp] theorem State.accept_prevGain (w : Word) : (s.accept w).prevGain = s.prevGain := rfl
@[simp] theorem State.accept_gainAdj (w : Word) : (s.accept w).gainAdj = s.gainAdj := rfl
@[simp] theorem State.accept_cmdcnt (w : Word) : (s.accept w).cmdcnt = s.cmdcnt := rfl
@[simp] theorem State.accept_rd (w : Word) : (s.accept w).rd = s.rd := rfl
@[simp] theorem State.accept_slpc (w : Word) : (s.accept w).slpc = s.slpc := rfl
@[simp] theorem State.accept_mem (w : Word) : (s.accept w).mem = s.mem := rfl
@[simp] theorem State.accept_schedule (w : Word) : (s.accept w).schedule = s.schedule := rfl
@[simp] theorem State.accept_busOut (w : Word) : (s.accept w).busOut = s.busOut := rfl
@[simp] theorem State.accept_draws (w : Word) : (s.accept w).draws = s.draws := rfl

/-! ## `finish` -/

@[simp] theorem State.finish_status : (s.finish).status = { s.status with done := true } := rfl
@[simp] theorem State.finish_ien : (s.finish).ien = s.ien := rfl
@[simp] theorem State.finish_errcode : (s.finish).errcode = s.errcode := rfl
@[simp] theorem State.finish_cmd : (s.finish).cmd = s.cmd := rfl
@[simp] theorem State.finish_pending : (s.finish).pending = none := rfl
@[simp] theorem State.finish_result : (s.finish).result = s.result := rfl
@[simp] theorem State.finish_cfg : (s.finish).cfg = s.cfg := rfl
@[simp] theorem State.finish_len : (s.finish).len = s.len := rfl
@[simp] theorem State.finish_seed : (s.finish).seed = s.seed := rfl
@[simp] theorem State.finish_rate : (s.finish).rate = s.rate := rfl
@[simp] theorem State.finish_lcg : (s.finish).lcg = s.lcg := rfl
@[simp] theorem State.finish_gain : (s.finish).gain = s.gain := rfl
@[simp] theorem State.finish_loggain : (s.finish).loggain = s.loggain := rfl
@[simp] theorem State.finish_prevGain : (s.finish).prevGain = s.prevGain := rfl
@[simp] theorem State.finish_gainAdj : (s.finish).gainAdj = s.gainAdj := rfl
@[simp] theorem State.finish_cmdcnt : (s.finish).cmdcnt = s.cmdcnt + 1 := rfl
@[simp] theorem State.finish_rd : (s.finish).rd = s.rd := rfl
@[simp] theorem State.finish_slpc : (s.finish).slpc = s.slpc := rfl
@[simp] theorem State.finish_mem : (s.finish).mem = s.mem := rfl
@[simp] theorem State.finish_schedule : (s.finish).schedule = s.schedule := rfl
@[simp] theorem State.finish_busOut : (s.finish).busOut = s.busOut := rfl
@[simp] theorem State.finish_draws : (s.finish).draws = s.draws := rfl

/-! ## `setCoder` -/

@[simp] theorem State.setCoder_status (c : Coder) : (s.setCoder c).status = { s.status with exh := c.exh } := rfl
@[simp] theorem State.setCoder_ien (c : Coder) : (s.setCoder c).ien = s.ien := rfl
@[simp] theorem State.setCoder_errcode (c : Coder) : (s.setCoder c).errcode = s.errcode := rfl
@[simp] theorem State.setCoder_cmd (c : Coder) : (s.setCoder c).cmd = s.cmd := rfl
@[simp] theorem State.setCoder_pending (c : Coder) : (s.setCoder c).pending = s.pending := rfl
@[simp] theorem State.setCoder_result (c : Coder) : (s.setCoder c).result = s.result := rfl
@[simp] theorem State.setCoder_cfg (c : Coder) : (s.setCoder c).cfg = s.cfg := rfl
@[simp] theorem State.setCoder_len (c : Coder) : (s.setCoder c).len = s.len := rfl
@[simp] theorem State.setCoder_seed (c : Coder) : (s.setCoder c).seed = s.seed := rfl
@[simp] theorem State.setCoder_rate (c : Coder) : (s.setCoder c).rate = s.rate := rfl
@[simp] theorem State.setCoder_lcg (c : Coder) : (s.setCoder c).lcg = s.lcg := rfl
@[simp] theorem State.setCoder_gain (c : Coder) : (s.setCoder c).gain = s.gain := rfl
@[simp] theorem State.setCoder_loggain (c : Coder) : (s.setCoder c).loggain = s.loggain := rfl
@[simp] theorem State.setCoder_prevGain (c : Coder) : (s.setCoder c).prevGain = s.prevGain := rfl
@[simp] theorem State.setCoder_gainAdj (c : Coder) : (s.setCoder c).gainAdj = s.gainAdj := rfl
@[simp] theorem State.setCoder_cmdcnt (c : Coder) : (s.setCoder c).cmdcnt = s.cmdcnt := rfl
@[simp] theorem State.setCoder_rd (c : Coder) : (s.setCoder c).rd = c.rd := rfl
@[simp] theorem State.setCoder_slpc (c : Coder) : (s.setCoder c).slpc = s.slpc := rfl
@[simp] theorem State.setCoder_mem (c : Coder) : (s.setCoder c).mem = s.mem := rfl
@[simp] theorem State.setCoder_schedule (c : Coder) : (s.setCoder c).schedule = s.schedule := rfl
@[simp] theorem State.setCoder_busOut (c : Coder) : (s.setCoder c).busOut = s.busOut := rfl
@[simp] theorem State.setCoder_draws (c : Coder) : (s.setCoder c).draws = s.draws := rfl

/-! ## `drive` -/

@[simp] theorem State.drive_status (w : Word) : (s.drive w).status = s.status := rfl
@[simp] theorem State.drive_ien (w : Word) : (s.drive w).ien = s.ien := rfl
@[simp] theorem State.drive_errcode (w : Word) : (s.drive w).errcode = s.errcode := rfl
@[simp] theorem State.drive_cmd (w : Word) : (s.drive w).cmd = s.cmd := rfl
@[simp] theorem State.drive_pending (w : Word) : (s.drive w).pending = s.pending := rfl
@[simp] theorem State.drive_result (w : Word) : (s.drive w).result = s.result := rfl
@[simp] theorem State.drive_cfg (w : Word) : (s.drive w).cfg = s.cfg := rfl
@[simp] theorem State.drive_len (w : Word) : (s.drive w).len = s.len := rfl
@[simp] theorem State.drive_seed (w : Word) : (s.drive w).seed = s.seed := rfl
@[simp] theorem State.drive_rate (w : Word) : (s.drive w).rate = s.rate := rfl
@[simp] theorem State.drive_lcg (w : Word) : (s.drive w).lcg = s.lcg := rfl
@[simp] theorem State.drive_gain (w : Word) : (s.drive w).gain = s.gain := rfl
@[simp] theorem State.drive_loggain (w : Word) : (s.drive w).loggain = s.loggain := rfl
@[simp] theorem State.drive_prevGain (w : Word) : (s.drive w).prevGain = s.prevGain := rfl
@[simp] theorem State.drive_gainAdj (w : Word) : (s.drive w).gainAdj = s.gainAdj := rfl
@[simp] theorem State.drive_cmdcnt (w : Word) : (s.drive w).cmdcnt = s.cmdcnt := rfl
@[simp] theorem State.drive_rd (w : Word) : (s.drive w).rd = s.rd := rfl
@[simp] theorem State.drive_slpc (w : Word) : (s.drive w).slpc = s.slpc := rfl
@[simp] theorem State.drive_mem (w : Word) : (s.drive w).mem = s.mem := rfl
@[simp] theorem State.drive_schedule (w : Word) : (s.drive w).schedule = s.schedule := rfl
@[simp] theorem State.drive_busOut (w : Word) : (s.drive w).busOut = w := rfl
@[simp] theorem State.drive_draws (w : Word) : (s.drive w).draws = s.draws := rfl

/-! ## `drawRead` -/

@[simp] theorem State.drawRead_status : (s.drawRead).status = s.status := rfl
@[simp] theorem State.drawRead_ien : (s.drawRead).ien = s.ien := rfl
@[simp] theorem State.drawRead_errcode : (s.drawRead).errcode = s.errcode := rfl
@[simp] theorem State.drawRead_cmd : (s.drawRead).cmd = s.cmd := rfl
@[simp] theorem State.drawRead_pending : (s.drawRead).pending = s.pending := rfl
@[simp] theorem State.drawRead_result : (s.drawRead).result = s.result := rfl
@[simp] theorem State.drawRead_cfg : (s.drawRead).cfg = s.cfg := rfl
@[simp] theorem State.drawRead_len : (s.drawRead).len = s.len := rfl
@[simp] theorem State.drawRead_seed : (s.drawRead).seed = s.seed := rfl
@[simp] theorem State.drawRead_rate : (s.drawRead).rate = s.rate := rfl
@[simp] theorem State.drawRead_lcg : (s.drawRead).lcg = s.lcg := rfl
@[simp] theorem State.drawRead_gain : (s.drawRead).gain = s.gain := rfl
@[simp] theorem State.drawRead_loggain : (s.drawRead).loggain = s.loggain := rfl
@[simp] theorem State.drawRead_prevGain : (s.drawRead).prevGain = s.prevGain := rfl
@[simp] theorem State.drawRead_gainAdj : (s.drawRead).gainAdj = s.gainAdj := rfl
@[simp] theorem State.drawRead_cmdcnt : (s.drawRead).cmdcnt = s.cmdcnt := rfl
@[simp] theorem State.drawRead_rd : (s.drawRead).rd = s.rd := rfl
@[simp] theorem State.drawRead_slpc : (s.drawRead).slpc = s.slpc := rfl
@[simp] theorem State.drawRead_mem : (s.drawRead).mem = s.mem := rfl
@[simp] theorem State.drawRead_schedule : (s.drawRead).schedule = s.schedule := rfl
@[simp] theorem State.drawRead_busOut : (s.drawRead).busOut = Config.busDraw s.draws := rfl
@[simp] theorem State.drawRead_draws : (s.drawRead).draws = s.draws + 1 := rfl

/-! ## BUSY -/

@[simp] theorem State.raise_busy (e : ErrCode) (op : Byte) : (s.raise e op).busy = s.busy := by simp [State.busy]
@[simp] theorem State.accept_busy (w : Word) : (s.accept w).busy = true := rfl
@[simp] theorem State.finish_busy : s.finish.busy = false := rfl
@[simp] theorem State.setCoder_busy (c : Coder) : (s.setCoder c).busy = s.busy := rfl

/-- The bitstream depends on the memory and LEN alone. -/
@[simp] theorem State.accept_bitstream (w : Word) : (s.accept w).bitstream = s.bitstream := rfl
@[simp] theorem State.accept_coder (w : Word) : (s.accept w).coder = s.coder := rfl
@[simp] theorem State.accept_hostTable (off : Nat) (w : Word) : (s.accept w).hostTable off = s.hostTable off := rfl
@[simp] theorem State.accept_gainOf (k : Nat) (w : Word) : (s.accept w).gainOf k = s.gainOf k := rfl

/-- Acceptance changes no input of a check. -/
theorem checkOf_accept (i : Instr) (w : Word) : checkOf i (s.accept w) = checkOf i s := by
  cases i <;> rfl

end Sys2Proof.Machine
end

