-- ==== Sys2Proof/Tests/Slice0.lean ====
section
/-! SUPPORT. The model's own tests: words written out from 30_encoding.md, single steps whose results are the vectors of
95_test_vectors.md (named at each test), and for every statement with hypotheses a concrete case that meets them. -/

namespace Sys2Proof.Tests

set_option Elab.async false

open Sys2Proof Sys2Proof.Machine

/-! ## Well-formedness -/

theorem test_wellFormed_refuses_wide_operand :
    (Instr.rdIcdf 256).wellFormed = false ∧ (Instr.rdBits 256).wellFormed = false ∧
    (Instr.rdBitlogp 300).wellFormed = false ∧ (Instr.lpcSynth 256).wellFormed = false ∧
    (Instr.gainScale 1000).wellFormed = false ∧ (Instr.synSubfr 256).wellFormed = false := by decide

theorem test_wellFormed_admits_every_operand_of_the_field :
    (Instr.rdIcdf 255).wellFormed = true ∧ (Instr.rdBits 255).wellFormed = true ∧ Instr.nop.wellFormed = true := by decide

/-! ## Decoding: the words are written out from 30_encoding.md R90, R93 (vector K3), bits 31..16, 15..8, 7..0 -/

theorem test_decode_nop : decode 0b0000000000000000_00000000_00000000#32 = .ok .nop := by decide
theorem test_decode_rdInit : decode 0b0000000000000000_00000000_00000001#32 = .ok .rdInit := by decide
theorem test_decode_rdIcdf : decode 0b0000000000000000_01000000_00000010#32 = .ok (.rdIcdf 0x40) := by decide
theorem test_decode_rdBits : decode 0b0000000000000000_00011001_00000011#32 = .ok (.rdBits 25) := by decide
theorem test_decode_rdBitlogp : decode 0b0000000000000000_00000001_00000100#32 = .ok (.rdBitlogp 1) := by decide
theorem test_decode_rdClose : decode 0b0000000000000000_00000000_00000101#32 = .ok .rdClose := by decide
theorem test_decode_excSeed : decode 0b0000000000000000_00000000_00010000#32 = .ok .excSeed := by decide
theorem test_decode_excDecode : decode 0b0000000000000000_00000000_00010001#32 = .ok .excDecode := by decide
theorem test_decode_excRecon : decode 0b0000000000000000_00000000_00010010#32 = .ok .excRecon := by decide
theorem test_decode_gainDeq : decode 0b0000000000000000_00000000_00100000#32 = .ok .gainDeq := by decide
theorem test_decode_lpcSynth : decode 0b0000000000000000_00000001_00100001#32 = .ok (.lpcSynth 1) := by decide
theorem test_decode_gainScale : decode 0b0000000000000000_00000010_00100010#32 = .ok (.gainScale 2) := by decide
theorem test_decode_synSubfr : decode 0b0000000000000000_00000011_00100011#32 = .ok (.synSubfr 3) := by decide
theorem test_decode_synReset : decode 0b0000000000000000_00000000_00100100#32 = .ok .synReset := by decide

/-- Vectors K4 to K6 and the edges of the reserved opcodes (30_encoding.md R94). -/
theorem test_decode_refuses_illegal_words :
    decode 0x00000013#32 = .error .reservedOpcode ∧ decode 0x00000006#32 = .error .reservedOpcode ∧
    decode 0x00000025#32 = .error .reservedOpcode ∧ decode 0x000000FF#32 = .error .reservedOpcode ∧
    decode 0x00000100#32 = .error .operandOfFormatN ∧ decode 0x00010021#32 = .error .reservedBits := by decide

theorem test_decodeTableWord : decodeTableWord 32 0x1903 = some (.rdBits 25) ∧ decodeTableWord 8 0x24 = some .synReset ∧
    decodeTableWord 32 0x13 = none := by decide

/-! ## Single steps, against 95_test_vectors.md -/

/-- The next state of an outcome. -/
def after : Result → State
  | .next s => s
  | _ => State.reset

/-- A memory that lists the bytes `bs` from address `a` on. -/
def cells (a : Nat) (bs : List Nat) : Memory := Memory.store [] a (bs.map (BitVec.ofNat 8))

/-- The reset state with one turn to come. -/
def turn (t : Turn) (s : State) : State := { s with schedule := [t] }

/-- Range decoder registers with an empty window. -/
def front (rng val : Word) (nbits : Nat) (offs : Nat) (rem : Nat) : RangeState :=
  { RangeState.reset with
    rng := rng, val := val, nbits := BitVec.ofNat 32 nbits, offs := BitVec.ofNat 11 offs, rem := BitVec.ofNat 8 rem }

/-- A bitstream in BSBUF. -/
def stream (bs : List Nat) : State := { State.reset with mem := cells 0x1000 bs, len := BitVec.ofNat 11 bs.length }

/-- The range decoder running on a bitstream. -/
def running (bs : List Nat) (rd : RangeState) : State :=
  { stream bs with rd := rd, status := { State.reset.status with rdv := true } }

/-- After vector D1: RD_INIT on `12 34 56 78 9A`. -/
def d1 : State := running [0x12, 0x34, 0x56, 0x78, 0x9A] (front 0x80000000 0x76E5D4C3 33 4 0x78)

/-- The state with a table at `TRAM[0]`. -/
def withTable (bs : List Nat) (s : State) : State := { s with mem := s.mem.store 0x1800 (bs.map (BitVec.ofNat 8)) }

/-- K1. -/
theorem test_nop :
    let t := after (exec .nop { State.reset with cmdcnt := 5 })
    t.cmdcnt = 6 ∧ t.statusWord = 0x02 ∧ t.cmd = 0 := by decide +kernel

/-- D1. -/
theorem test_rdInit :
    let t := after (exec .rdInit (stream [0x12, 0x34, 0x56, 0x78, 0x9A]))
    t.rd = d1.rd ∧ t.rd.tell = 1 ∧ t.status.exh = false ∧ t.status.rdv = true := by decide +kernel

/-- D2. -/
theorem test_rdInit_empty :
    let t := after (exec .rdInit State.reset)
    t.rd.val = 0x7FFFFFFF ∧ t.rd.offs = 0 ∧ t.rd.rem = 0 ∧ t.status.exh = true := by decide +kernel

/-- D5. -/
theorem test_rdIcdf :
    let t := after (exec (.rdIcdf 0) (withTable [192, 128, 64, 0] d1))
    t.result = 0 ∧ t.rd.rng = 0x20000000 ∧ t.rd.val = 0x16E5D4C3 ∧ t.rd.tell = 3 := by decide +kernel

/-- D12. -/
theorem test_rdIcdf_normalizes :
    let t := after (exec (.rdIcdf 0) (withTable [1, 0] (running [255, 255, 255, 255] (front 0x80000000 0 33 4 255))))
    t.result = 1 ∧ t.rd.rng = 0x80000000 ∧ t.rd.val = 0x0000007F ∧ t.rd.nbits = 41 ∧ t.rd.tell = 9 := by decide +kernel

/-- D22. -/
theorem test_rdBits :
    let t := after (exec (.rdBits 4) (running [0xA5, 0x5A, 0x0F] (front 0x80000000 0x2D52F87F 33 3 0)))
    t.result = 15 ∧ t.rd.endOffs = 3 ∧ t.rd.endWin = 0x000A55A0 ∧ t.rd.nendBits = 28 ∧ t.rd.nbits = 37 := by decide +kernel

/-- D25. -/
theorem test_rdBits_widest :
    let t := after (exec (.rdBits 25) (running [1, 2, 3, 4, 5, 6] (front 0x80000000 0x7EFEFDFD 33 4 4)))
    t.result = 0x01040506 ∧ t.rd.endOffs = 4 ∧ t.rd.endWin = 1 ∧ t.rd.nendBits = 7 ∧ t.rd.nbits = 58 := by decide +kernel

/-- D14. -/
theorem test_rdBitlogp :
    let t := after (exec (.rdBitlogp 1) { d1 with rd := front 0x11000000 0x07E5D4C3 33 4 0x78 })
    t.result = 1 ∧ t.rd.rng = 0x08800000 ∧ t.rd.val = 0x07E5D4C3 ∧ t.rd.tell = 5 := by decide +kernel

/-- D20. -/
theorem test_rdBitlogp_widest :
    let t := after (exec (.rdBitlogp 15) (running [0x80, 0, 0, 0] (front 0x80000000 0x3FFFFFFF 33 4 0)))
    t.result = 0 ∧ t.rd.rng = 0x7FFF0000 ∧ t.rd.val = 0x3FFEFFFF ∧ t.rd.tell = 2 := by decide +kernel

/-- Section 2.2, RD_CLOSE from D1. -/
theorem test_rdClose :
    let t := after (exec .rdClose d1)
    t.statusWord = 0x02 ∧ t.rd = d1.rd := by decide +kernel

/-- X1, the second case. -/
theorem test_excSeed :
    let t := after (exec .excSeed (running [0xFF, 0xFF] (front 0x80000000 0x00007FFF 33 2 0)))
    t.seed = 3 ∧ t.result = 3 ∧ t.rd.rng = 0x20000000 ∧ t.rd.val = 0x00007FFF := by decide +kernel

/-- The start of X3: RD_INIT and EXC_SEED on 16 bytes 80. -/
def x3 : State :=
  { running (List.replicate 16 0x80) (front 0x20000000 0x1FBFBFBF 33 4 0x80) with cfg := Cfg.ofWord 0x10, seed := 2 }

/-- X3. -/
theorem test_excDecode :
    let t := after (exec .excDecode x3)
    t.rate = 0 ∧ t.rd = front 0x00AEFB00 0x0010AEBF 121 15 0x80 ∧ t.status.exh = false ∧
    t.mem.words 0x3400 6 = [2, 2, 12, 0, 32, 0] ∧
    t.mem.halves 0x3000 48 =
      [0, 0, 0, 0, 0, 0, 0, 0, 1, 0, 0, 0, 0, 0, 0, -1] ++ [0, 0, 0, 0, 0, 0, 0, -1, 0, 0, 0, 0, -1, 0, 0, 0] ++
      [-1, 2, 0, 4, 0, 0, 0, 0, 0, 0, 0, 0, 5, 0, 0, 0] ∧
    t.mem.halves 0x3080 17 = [-1, 0, 0, 0, 0, 0, 0, 0, 0, 1, 1, -1, -1, 0, 0, 0, 0] := by decide +kernel

/-- X12. -/
theorem test_excRecon :
    let t := after (exec .excRecon
      { State.reset with cfg := Cfg.ofWord 0x60, seed := 2, mem := cells 0x3000 [3, 0, 0xFE, 0xFF, 0, 0, 1, 0] })
    t.mem.words 0x4000 6 = [49472, -29888, 1600, -16704, 1600, -1600] ∧ t.lcg = 0xA86624A8 := by decide +kernel

/-- X11. -/
theorem test_excRecon_extremes :
    let t := after (exec .excRecon
      { State.reset with mem := cells 0x3000 [0, 0x80, 0xFF, 0x7F, 1, 0, 0xFF, 0xFF] })
    t.mem.words 0x4000 4 = [-536868032, -536854848, 16704, -13504] ∧ t.lcg = 0x7CC2F67B := by decide +kernel

/-- Y1. -/
theorem test_gainDeq :
    (after (exec .gainDeq { State.reset with loggain := #v[0, 1, 62, 63] })).gain =
      #v[81920, 96256, 1434451968, 1686110208] := by decide +kernel

/-- The start of Y3. -/
def y3 : State :=
  { State.reset with
    gain := State.reset.gain.set 0 0x01000000
    mem := (cells 0x5400 [0x00, 0x08]).store 0x4000 (bytesOfWord 16384) }

/-- Y3. -/
theorem test_lpcSynth :
    let t := after (exec (.lpcSynth 0) y3)
    t.gainAdj = 255 ∧ t.prevGain = 0x01000000 ∧ t.mem.words 0x5800 6 = [16464, 8304, 4224, 2192, 1168, 656] ∧
    t.mem.words 0x58A0 2 = [0, 0] ∧ t.slpc = Vector.replicate 16 160 := by decide +kernel

/-- Y9. -/
theorem test_lpcSynth_order16 :
    let t := after (exec (.lpcSynth 0)
      { State.reset with
        cfg := Cfg.ofWord 0x102
        mem := (cells 0x5400 (List.flatten (List.replicate 16 [0, 1]))).store 0x4000 (bytesOfWord 16384) })
    t.mem.words 0x5800 8 = [16512, 1152, 1216, 1280, 1360, 1440, 1520, 1600] ∧
    t.mem.words 0x5938 2 = [2176, 2176] := by decide +kernel

/-- Y4. -/
theorem test_gainScale :
    let t := after (exec (.gainScale 0)
      { y3 with mem := Memory.storeWords [] 0x5800 [16464, 8304, 4224, 2192, 1168, 656] })
    t.mem.halves 0x6000 6 = [257, 130, 66, 34, 18, 10] := by decide +kernel

/-- Y12. -/
theorem test_gainScale_wraps :
    let t := after (exec (.gainScale 0)
      { State.reset with
        gain := State.reset.gain.set 0 0x7FFFFFFF
        mem := Memory.storeWords [] 0x5800 [268435536, 2147483647, 2147483647] })
    t.mem.halves 0x6000 3 = [144, -130, -130] := by decide +kernel

/-- Y5. -/
theorem test_synSubfr :
    let t := after (exec (.synSubfr 1)
      { State.reset with
        gain := State.reset.gain.set 1 0x02000000, prevGain := 0x01000000
        slpc := Vector.replicate 16 160, mem := cells 0x5420 [0x00, 0x08] })
    t.gainAdj = 32767 ∧ t.mem.words 0x5800 4 = [112, 128, 144, 144] ∧ t.mem.halves 0x6050 4 = [4, 4, 5, 5] ∧
    t.cmdcnt = 1 := by decide +kernel

/-- Y15. -/
theorem test_synSubfr_saturates :
    let t := after (exec (.synSubfr 0) { State.reset with mem := Memory.storeWords [] 0x4000 [2 ^ 31 - 81] })
    t.mem.words 0x5800 1 = [2147483647] ∧ t.mem.halves 0x6000 1 = [32767] := by decide +kernel

/-- Y16. -/
theorem test_synReset :
    let t := after (exec .synReset { State.reset with slpc := Vector.replicate 16 144, prevGain := 0x02000000 })
    t.slpc = Vector.replicate 16 0 ∧ t.prevGain = 0x00010000 ∧ t.gainAdj = 0x00010000 := by decide +kernel

/-- K4 and T13: the first error is kept, the second sets EOVF. -/
theorem test_error_is_recorded :
    let t := after (step (turn (.write 0x14 0x13 .zero) State.reset))
    let u := after (step (turn (.write 0x14 0x100 .later) t))
    t.statusWord = 0x04 ∧ t.errcode.word = 0x1301 ∧ t.cmdcnt = 0 ∧ u.statusWord = 0x24 ∧ u.errcode.word = 0x1301 := by
  decide +kernel

/-- X8: NOINIT before BADCFG. -/
theorem test_check_order :
    (after (exec .excDecode { d1 with cfg := Cfg.ofWord 0x03 })).errcode.word = 0x1105 ∧
    (after (exec .excDecode { State.reset with cfg := Cfg.ofWord 0x03 })).errcode.word = 0x1104 := by decide +kernel

/-- K10, K11 and T12. -/
theorem test_bus :
    (after (step (turn (.write 0x20 4000 .zero) State.reset))).len = 1280 ∧
    (after (step (turn (.write 0x1C 0xFFFFFFFF .zero) State.reset))).cfg.word = 0x377 ∧
    (after (step (turn (.write 0x1001 5 .zero) State.reset))).errcode.word = 0xFF0A ∧
    (after (step (turn (.write 0x1001 5 .zero) State.reset))).mem = [] := by decide +kernel

/-- The step after `withFetchWord` runs the word: the example of 43_synthesis.md R204. -/
theorem test_withFetchWord :
    step ({ State.reset with gainAdj := 7 }.withFetchWord 32 0x24) = exec .synReset { State.reset with gainAdj := 7 } := by
  rfl

/-- The contents of TROM that reset reads meet 10_state.md R52. -/
theorem test_reset_trom : State.reset.mem.tromWf = true := by decide +kernel

/-! ## Witnesses: for every statement with hypotheses, states and operands that meet them together -/

/-- The reset state with turns to come. -/
def sched (ts : List Turn) (s : State) : State := { s with schedule := ts }

/-- A state with the command of the word `w` pending. -/
def pendingOn (w : Word) (s : State) : State := { s with cmd := w, pending := some w }

/-- The reset state with a configuration. -/
def cfgd (c : Word) : State := { State.reset with cfg := Cfg.ofWord c }

/-- The outcome is a next state. -/
def isNext : Result → Bool
  | .next _ => true
  | _ => false

theorem eq_next_after {r : Result} (h : isNext r = true) : r = .next (after r) := by
  cases r <;> first | rfl | cases h

theorem rangeOk_d1 : RangeOk d1.len.toNat d1.rd := by constructor <;> decide +kernel

theorem pendingInv_nop (ts : List Turn) : PendingInv (sched ts (pendingOn 0 State.reset)) := by
  intro w h
  cases h
  exact ⟨rfl, rfl, .nop, rfl, rfl⟩

theorem not_isReset_of_cmdcnt {s t : State} (h : t.cmdcnt ≠ 0) : ¬ IsReset s t := by
  rintro ⟨rest, rfl⟩
  exact h rfl

theorem witness_EncodeThenDecodeGivesTheCommand : (Instr.rdBits 255).wellFormed = true ∧ Instr.nop.wellFormed = true := by
  decide

theorem witness_DecodedWordIsTheWordOfItsCommand :
    decode 0x0000FF02#32 = .ok (.rdIcdf 255) ∧ decode 0x00000024#32 = .ok .synReset := by decide

/-- Each of the three grounds, at the edges of the reserved opcodes. -/
theorem witness_IllegalWordIsRejectedWithIllcmd :
    (IllegalWord 0x06#32 ∧ IllegalWord 0x0F#32 ∧ IllegalWord 0x13#32 ∧ IllegalWord 0x1F#32 ∧
      IllegalWord 0x25#32 ∧ IllegalWord 0xFF#32 ∧ IllegalWord 0x00010021#32 ∧
      IllegalWord 0x80000000#32 ∧ IllegalWord 0x00000100#32 ∧ IllegalWord 0x0000FF24#32) ∧
    (sched [.write cmdAddr 0x13 .later] State.reset).busy = false := by
  refine ⟨⟨?_, ?_, ?_, ?_, ?_, ?_, ?_, ?_, ?_, ?_⟩, rfl⟩ <;>
  · simp only [IllegalWord, formatNOpcodes, formatAOpcodes]
    decide

theorem witness_StepRunsTheDecodedCommand :
    decode 0x00000323#32 = .ok (.synSubfr 3) ∧
    (sched [.write cmdAddr 0x323 .zero] State.reset).schedule = .write cmdAddr 0x323 .zero :: [] ∧
    (sched [.write cmdAddr 0x323 .later] State.reset).schedule = .write cmdAddr 0x323 .later :: [] := ⟨rfl, rfl, rfl⟩

/-- Busy, illegal, and rejected by a check of its own. -/
theorem witness_RejectedCommandChangesOnlyTheErrorRecord :
    ¬ ((pendingOn 0 State.reset).busy = false ∧
      ∃ i, decode 0#32 = .ok i ∧ checkOf i (pendingOn 0 State.reset) = none) ∧
    ¬ (State.reset.busy = false ∧ ∃ i, decode 0x13#32 = .ok i ∧ checkOf i State.reset = none) ∧
    ¬ (State.reset.busy = false ∧ ∃ i, decode 0x10#32 = .ok i ∧ checkOf i State.reset = none) := by
  refine ⟨fun h => by simp [State.busy, pendingOn] at h, ?_, ?_⟩ <;> rintro ⟨-, i, hi, hc⟩
  · have : decode 0x13#32 = .error .reservedOpcode := rfl
    simp [this] at hi
  · have : decode 0x10#32 = .ok .excSeed := rfl
    rw [this] at hi
    cases hi
    exact absurd hc (by decide)

theorem witness_AcceptanceSetsPendingAndBusy :
    decode 0x1#32 = .ok .rdInit ∧ Accepts .rdInit (sched [.write cmdAddr 0x1 .later] State.reset) := ⟨rfl, rfl, rfl⟩

/-- Both ways the engine comes to its turn. -/
theorem witness_PendingCommandCompletes :
    (sched [.engine] (pendingOn 0x20 State.reset)).schedule = .engine :: [] ∧
    (pendingOn 0x20 State.reset).schedule = [] ∧ (pendingOn 0x20 State.reset).pending = some 0x20 ∧
    decode 0x20#32 = .ok .gainDeq ∧ checkOf .gainDeq (pendingOn 0x20 State.reset) = none ∧
    (pendingOn 0x20 State.reset).mem.tromWf = true := ⟨rfl, rfl, rfl, rfl, rfl, test_reset_trom⟩

theorem witness_LatencyDoesNotChangeTheResult :
    (Instr.lpcSynth 1).wellFormed = true ∧ Accepts (.lpcSynth 1) State.reset := ⟨rfl, rfl, rfl⟩

theorem witness_CommandWhileBusyIsRejected :
    (sched [.write cmdAddr 0x1 .zero] (pendingOn 0 State.reset)).busy = true := rfl

theorem completes_engine : Completes (sched [.engine] (pendingOn 0 State.reset)) := .inl ⟨nofun, .inr ⟨[], rfl⟩⟩

theorem completes_idle_host : Completes (pendingOn 0 State.reset) := .inl ⟨nofun, .inl rfl⟩

theorem completes_zero_latency : Completes (sched [.write cmdAddr 0 .zero] { State.reset with cmdcnt := 0xFFFFFFFF }) :=
  .inr ⟨0, .nop, [], rfl, rfl, rfl, rfl⟩

/-- A zero-latency write of CMD that is rejected completes nothing, whatever DONE. -/
theorem not_completes_illegal (s : State) : ¬ Completes (sched [.write cmdAddr 0x13 .zero] s) := by
  rintro (⟨-, h | ⟨_, h⟩⟩ | ⟨w, i, rest, h, hd, -⟩)
  · cases h
  · cases h
  · cases h
    cases hd

/-- The three ways a command completes, the counter at its end in one; a reset and a soft reset; a rejection on an idle
block whose DONE is 1. -/
theorem witness_CommandCounterCountsCompletions :
    (Completes (sched [.engine] (pendingOn 0 State.reset)) ∧
      ∃ t, step (sched [.engine] (pendingOn 0 State.reset)) = .next t ∧ t.cmdcnt = 1) ∧
    (Completes (pendingOn 0 State.reset) ∧ ∃ t, step (pendingOn 0 State.reset) = .next t ∧ t.cmdcnt = 1) ∧
    (let s := sched [.write cmdAddr 0 .zero] { State.reset with cmdcnt := 0xFFFFFFFF }
     Completes s ∧ ∃ t, step s = .next t ∧ t.cmdcnt = 0) ∧
    (TakesReset (sched [.reset] State.reset) ∧ ∃ t, step (sched [.reset] State.reset) = .next t) ∧
    (TakesReset (sched [.write 0x0004 1 .zero] State.reset) ∧
      ∃ t, step (sched [.write 0x0004 1 .zero] State.reset) = .next t) ∧
    (let s := sched [.write cmdAddr 0x13 .zero] { State.reset with status := { State.reset.status with done := true } }
     ¬ Completes s ∧ ¬ TakesReset s ∧ ∃ t, step s = .next t ∧ t.status.done = true) := by
  refine ⟨⟨completes_engine, _, eq_next_after (by decide +kernel), by decide +kernel⟩,
    ⟨completes_idle_host, _, eq_next_after (by decide +kernel), by decide +kernel⟩,
    ⟨completes_zero_latency, _, eq_next_after (by decide +kernel), by decide +kernel⟩,
    ⟨.inl ⟨[], rfl⟩, _, eq_next_after (by decide +kernel)⟩,
    ⟨.inr ⟨1, .zero, [], rfl, rfl⟩, _, eq_next_after (by decide +kernel)⟩,
    not_completes_illegal _, ?_, _, eq_next_after (by decide +kernel), by decide +kernel⟩
  rintro (⟨_, h⟩ | ⟨_, _, _, h, -⟩) <;> cases h

theorem witness_DecodingNeedsInit : State.reset.busy = false ∧ State.reset.status.rdv = false := ⟨rfl, rfl⟩

/-- A table that increases, no byte 0 up to the last byte of TRAM, and the operands next to the legal ones. -/
theorem witness_RangeCommandsRejectBadOperands :
    d1.busy = false ∧ d1.status.rdv = true ∧
    (∀ n, HasTable 0 n (withTable [1, 2, 0] d1) → ¬ NonIncreasing ((withTable [1, 2, 0] d1).tableByte 0) n) ∧
    (∀ n, ¬ HasTable 255 n { d1 with mem := d1.mem.store 0x18FF [9] }) ∧
    25 < 26 ∧ (0 = 0 ∨ 15 < 0) ∧ (16 = 0 ∨ 15 < 16) := by
  refine ⟨rfl, rfl, ?_, ?_, by decide, by decide, by decide⟩
  · rintro n ⟨h1, -, h3, h4⟩ h
    have hb : (withTable [1, 2, 0] d1).tableByte 0 0 = 1 ∧ (withTable [1, 2, 0] d1).tableByte 0 1 = 2 := by decide +kernel
    by_cases hn : n = 1
    · subst hn
      have h3' : (withTable [1, 2, 0] d1).tableByte 0 0 = 0 := h3
      omega
    · have : (withTable [1, 2, 0] d1).tableByte 0 1 ≤ (withTable [1, 2, 0] d1).tableByte 0 0 := h 0 (by omega)
      omega
  · rintro n ⟨h1, h2, h3, -⟩
    have hn : n = 1 := by omega
    subst hn
    exact absurd h3 (by decide +kernel)

theorem witness_ReservedFrameConfigurationIsRejected :
    (cfgd 0x03).busy = false ∧ (cfgd 0x03).cfg.bw = 3 ∧ (cfgd 0x30).cfg.stype = 3 := by decide

/-- Each check at the edge of its range: BW = 3; k = NSF for both frame sizes; a gain of 0 and of 2^31. -/
theorem witness_SubframeCommandsRejectInOrder :
    (cfgd 0x03).busy = false ∧ (cfgd 0x03).cfg.bw = 3 ∧
    ((cfgd 0).cfg.bw ≠ 3 ∧ (if (cfgd 0).cfg.fsz then 4 else 2) ≤ 2) ∧
    ((cfgd 6).cfg.bw ≠ 3 ∧ (if (cfgd 6).cfg.fsz then 4 else 2) ≤ 4) ∧
    (1 < (if (cfgd 0).cfg.fsz then 4 else 2) ∧
      ({ cfgd 0 with gain := (cfgd 0).gain.set 1 0 }.gainOf 1).toNat = 0 ∧
      2 ^ 31 ≤ ({ cfgd 0 with gain := (cfgd 0).gain.set 1 0x80000000 }.gainOf 1).toNat) := by decide +kernel

theorem witness_NopOnlyCounts : State.reset.busy = false ∧ (0x100#32).toNat % 256 = 0 ∧ 0x100#32 ≠ 0 := by decide

theorem witness_RdInitStartsOnTheFirstBytes : State.reset.busy = false ∧ (stream [1, 2, 3]).busy = false := ⟨rfl, rfl⟩

/-- A table of four bytes, and one of one byte at the last byte of TRAM. -/
theorem witness_RdIcdfDecodesTheSymbolOfTheInterval :
    d1.busy = false ∧ d1.status.rdv = true ∧
    (HasTable 0 4 (withTable [192, 128, 64, 0] d1) ∧
      NonIncreasing ((withTable [192, 128, 64, 0] d1).tableByte 0) 4) ∧
    (HasTable 255 1 d1 ∧ NonIncreasing (d1.tableByte 255) 1) := by
  refine ⟨rfl, rfl, ⟨⟨by decide, by decide, by decide +kernel, ?_⟩, ?_⟩,
    ⟨by decide, by decide, by decide +kernel, fun j hj => absurd hj (by omega)⟩, fun j hj => absurd hj (by omega)⟩ <;>
  · intro j hj
    have hj' : j < 3 := by omega
    clear hj
    revert j
    decide +kernel

/-- The narrowest and the widest read, from an empty window and from a full one. -/
theorem witness_RdBitsReadsFromTheBack :
    d1.busy = false ∧ d1.status.rdv = true ∧ 0 ≤ 25 ∧ 25 ≤ 25 ∧
    (d1.rd.endWin.toNat < 2 ^ d1.rd.nendBits.toNat ∧ d1.rd.nendBits.toNat ≤ 32 ∧ d1.rd.endOffs.toNat ≤ d1.len.toNat) ∧
    (let rd := { d1.rd with endWin := 0xFFFFFFFF, nendBits := 32, endOffs := 5 }
     rd.endWin.toNat < 2 ^ rd.nendBits.toNat ∧ rd.nendBits.toNat ≤ 32 ∧ rd.endOffs.toNat ≤ d1.len.toNat) := by
  decide +kernel

/-- The value just below and at the lower part of the range, for both edges of `logp`. -/
theorem witness_RdBitlogpSplitsTheRange :
    d1.busy = false ∧ d1.status.rdv = true ∧ (1 ≤ 1 ∧ 1 ≤ 15) ∧ (1 ≤ 15 ∧ 15 ≤ 15) ∧
    (let s := { d1 with rd := front 0x80000000 0x3FFFFFFF 33 4 0 }
     s.rd.val.toNat < s.rd.rng.toNat / 2 ^ 1) ∧
    (let s := { d1 with rd := front 0x80000000 0x40000000 33 4 0 }
     s.rd.rng.toNat / 2 ^ 1 ≤ s.rd.val.toNat) ∧
    (let s := { d1 with rd := front 0x80000000 0x00010000 33 4 0 }
     s.rd.rng.toNat / 2 ^ 15 ≤ s.rd.val.toNat) := by decide +kernel

/-- The smallest and the largest range. -/
theorem witness_NormalizeAppendsStreamBits :
    ([1, 2, 3] : List Byte).length ≤ 1280 ∧
    (let rd := front 1 0 33 3 0
     0 < rd.rng.toNat ∧ rd.rng.toNat ≤ 2 ^ 31 ∧ rd.val.toNat < rd.rng.toNat ∧
       rd.offs.toNat ≤ ([1, 2, 3] : List Byte).length) ∧
    (let rd := front 0x80000000 0x7FFFFFFF 33 0 0
     0 < rd.rng.toNat ∧ rd.rng.toNat ≤ 2 ^ 31 ∧ rd.val.toNat < rd.rng.toNat ∧
       rd.offs.toNat ≤ ([1, 2, 3] : List Byte).length) := by decide +kernel

theorem witness_RdCloseClearsRdvOnly : d1.busy = false ∧ (0x105#32).toNat % 256 = 5 ∧ 0x105#32 ≠ 0x00000005#32 := by
  decide

theorem witness_EveryStepKeepsTheRangeDecoderInRange :
    RangeInv (sched [.write cmdAddr 0x0103 .zero] d1) ∧
    ∃ t, step (sched [.write cmdAddr 0x0103 .zero] d1) = .next t ∧ t.status.rdv = true :=
  ⟨fun _ => rangeOk_d1, _, eq_next_after (by decide +kernel), by decide +kernel⟩

/-- EXH cleared by RD_INIT, and by a reset. -/
theorem witness_ExhaustionIsSticky :
    (let s := sched [.write cmdAddr 1 .zero] { stream [1] with status := { State.reset.status with exh := true } }
     PendingInv s ∧ s.status.exh = true ∧ ∃ t, step s = .next t ∧ t.status.exh = false) ∧
    (let s := sched [.reset] { State.reset with status := { State.reset.status with exh := true } }
     PendingInv s ∧ s.status.exh = true ∧ ∃ t, step s = .next t ∧ t.status.exh = false) :=
  ⟨⟨fun w h => by simp [sched, stream, State.reset] at h, rfl, _, eq_next_after (by decide +kernel), by decide +kernel⟩,
    ⟨fun w h => by simp [sched, State.reset] at h, rfl, _, eq_next_after (by decide +kernel), by decide +kernel⟩⟩

theorem witness_BitstreamIsLockedWhileValid :
    ∃ t, step (sched [.write 0x1000 0xFFFFFFFF .zero] d1) = .next t ∧ d1.status.rdv = true ∧ t.status.rdv = true :=
  ⟨_, eq_next_after (by decide +kernel), rfl, by decide +kernel⟩

theorem witness_ExcSeedDecodesTheSeed :
    x3.busy = false ∧ x3.status.rdv = true ∧ x3.mem.tromWf = true := by decide +kernel

theorem witness_PulseCountFollowsTheEscapes : Memory.tromWf [] = true ∧ 8 ≤ 8 ∧ 0 ≤ 8 :=
  ⟨test_reset_trom, by decide, by decide⟩

theorem witness_LsbsAndSignsFollowTheirSymbols : (BlockCount.mk 16 10).sum ≤ 16 ∧ 1 < [3, 0].length := by decide

/-- The whole block and one sample, with no pulse and with the most. -/
theorem witness_ShellSplitsKeepThePulseCount :
    Memory.tromWf [] = true ∧ (4 ≤ 4 ∧ 4 = 3 + 1) ∧ (0 ≤ 4 ∧ 0 = 0) ∧ (0 ≤ 16 ∧ 0 = 0) ∧ 16 ≤ 16 :=
  ⟨test_reset_trom, by decide, by decide, by decide, by decide⟩

/-- The split tables of the recommended and test TROM at the edges of 10_state.md R51: `TROM[0x100]` for one pulse and the
17 bytes from `0x100 + 152 * 3 + 135` on for sixteen. -/
theorem test_splitTable :
    splitTable [] 0 1 = [romByte 0x100, romByte 0x101] ∧ (splitTable [] 3 16).length = 17 ∧
    (splitTable [] 3 16).head? = some (romByte 0x34F) := by decide +kernel

theorem witness_ExcDecodeWritesTheFrame :
    x3.busy = false ∧ x3.status.rdv = true ∧ x3.cfg.bw ≠ 3 ∧ x3.cfg.stype ≠ 3 ∧ x3.mem.tromWf = true :=
  ⟨rfl, rfl, by decide, by decide, witness_ExcSeedDecodesTheSeed.2.2⟩

theorem witness_ExcDecodeIsBounded : ∃ t, x3.busy = false ∧ x3.status.rdv = true ∧ x3.cfg.bw ≠ 3 ∧ x3.cfg.stype ≠ 3 ∧
    exec .excDecode x3 = .next t := by
  refine ⟨(excDecode (x3.accept (encode .excDecode))).finish, rfl, rfl, by decide, by decide, ?_⟩
  have h : (x3.accept (encode .excDecode)).mem.tromWf = true := witness_ExcSeedDecodesTheSeed.2.2
  rw [exec_eq, show checkOf .excDecode x3 = none from rfl, runCommand_accept rfl, effectOf, effectExcDecode,
    State.withTrom, if_pos h]

theorem witness_ExcReconScalesAndDithers :
    (cfgd 0x60).busy = false ∧ (cfgd 0x60).cfg.bw ≠ 3 ∧ (cfgd 0x60).cfg.stype ≠ 3 ∧ (cfgd 0x60).mem.tromWf = true :=
  ⟨rfl, by decide, by decide, test_reset_trom⟩

theorem witness_GainDeqLooksUpFourGains :
    State.reset.busy = false ∧ State.reset.mem.tromWf = true ∧ (0x120#32).toNat % 256 = 0x20 ∧
    0x120#32 ≠ 0x00000020#32 := ⟨rfl, test_reset_trom, rfl, by decide⟩

/-- The last subframe of both frame sizes, at the smallest and the largest gain. -/
theorem subframeReady_edges :
    SubframeReady 1 { cfgd 0 with gain := (cfgd 0).gain.set 1 1 } ∧
    SubframeReady 3 { cfgd 6 with gain := (cfgd 6).gain.set 3 0x7FFFFFFF } := by
  refine ⟨⟨?_, ?_, ?_, ?_⟩, ⟨?_, ?_, ?_, ?_⟩⟩ <;> decide +kernel

theorem witness_LpcSynthFiltersTheSubframe :
    (cfgd 0).busy = false ∧ SubframeReady 1 { cfgd 0 with gain := (cfgd 0).gain.set 1 1 } ∧
    SubframeReady 3 { cfgd 6 with gain := (cfgd 6).gain.set 3 0x7FFFFFFF } := ⟨rfl, subframeReady_edges⟩

theorem witness_GainScaleWritesTheSubframePcm :
    (cfgd 0).busy = false ∧ SubframeReady 1 { cfgd 0 with gain := (cfgd 0).gain.set 1 1 } ∧
    SubframeReady 3 { cfgd 6 with gain := (cfgd 6).gain.set 3 0x7FFFFFFF } := ⟨rfl, subframeReady_edges⟩

theorem witness_SynSubfrIsLpcSynthThenGainScale :
    (cfgd 0).busy = false ∧ SubframeReady 1 { cfgd 0 with gain := (cfgd 0).gain.set 1 1 } ∧
    SubframeReady 3 { cfgd 6 with gain := (cfgd 6).gain.set 3 0x7FFFFFFF } := ⟨rfl, subframeReady_edges⟩

theorem witness_SynResetClearsTheFilterState :
    d1.busy = false ∧ (0x124#32).toNat % 256 = 0x24 ∧ 0x124#32 ≠ 0x00000024#32 := by decide

theorem witness_EveryStepKeepsPrevGainLegal :
    PrevGainInv (sched [.write cmdAddr 0x24 .zero] { State.reset with prevGain := 0x7FFFFFFF }) ∧
    ∃ t, step (sched [.write cmdAddr 0x24 .zero] { State.reset with prevGain := 0x7FFFFFFF }) = .next t :=
  ⟨by unfold PrevGainInv; decide, _, eq_next_after (by decide +kernel)⟩

theorem witness_FrameOfTheRangeCommands :
    ∃ t, Instr.rdBits 4 ∈ [Instr.nop, .rdInit, .rdIcdf 4, .rdBits 4, .rdBitlogp 4, .rdClose] ∧
      exec (.rdBits 4) d1 = .next t ∧ Accepts (.rdBits 4) d1 := ⟨_, by decide, eq_next_after (by decide +kernel), rfl, rfl⟩

theorem witness_FrameOfTheExcitationCommands :
    ∃ t, Instr.excDecode ∈ [Instr.excSeed, .excDecode, .excRecon] ∧ exec .excDecode x3 = .next t ∧
      Accepts .excDecode x3 :=
  let ⟨t, _, _, _, _, h⟩ := witness_ExcDecodeIsBounded
  ⟨t, by decide, h, rfl, rfl⟩

theorem witness_FrameOfTheSynthesisCommands :
    ∃ t, Instr.synSubfr 1 ∈ [Instr.gainDeq, .lpcSynth 1, .gainScale 1, .synSubfr 1, .synReset] ∧
      exec (.synSubfr 1) State.reset = .next t ∧ Accepts (.synSubfr 1) State.reset := ⟨_, by decide, eq_next_after (by decide +kernel), rfl, rfl⟩

theorem witness_ResultRegistersChangeOnlyByTheirCommands :
    PendingInv (sched [.engine] (pendingOn 0 State.reset)) ∧
    ∃ t, step (sched [.engine] (pendingOn 0 State.reset)) = .next t ∧
      ¬ IsReset (sched [.engine] (pendingOn 0 State.reset)) t :=
  ⟨pendingInv_nop _, _, eq_next_after (by decide +kernel), not_isReset_of_cmdcnt (by decide +kernel)⟩

/-- No offset stands for two registers. -/
theorem test_registerMap_offsets : ((State.reset.registerMap.map Prod.fst).Nodup) ∧ State.reset.registerMap.length = 48 := by
  decide +kernel

/-- 10_state.md R51: the contents of TROM at reset are 0 outside the tables. -/
theorem test_rom_layout : ∀ off < 1280, inRomTable off = false → romByte off = 0 := by decide +kernel

/-- 10_state.md R51: the word at 0x2010 holds the last two bytes of the rate tables; the two bytes behind them read 0,
listed or not. -/
theorem test_read_of_rom_gap :
    (after (step (turn (.read 0x2010) { State.reset with mem := cells 0x2010 [1, 2, 3, 4] }))).busOut = 0x00000201 := by
  decide +kernel

/-- The first and the last register, the first and the last word of a buffer, and an offset of TROM that no table
takes. -/
theorem witness_AlignedReadHasNoSideEffect :
    (sched [.read 0x1000] State.reset).busy = false ∧
    ((0x000, 0x52445801) ∈ State.reset.registerMap ∧ (0x0000#16).toNat = 0x000) ∧
    ((0x0FC, 0) ∈ State.reset.registerMap ∧ (0x00FC#16).toNat = 0x0FC) ∧
    ((0x1000#16).toNat % 4 = 0 ∧ (0x627C#16).toNat % 4 = 0 ∧ (0x23FC#16).toNat % 4 = 0) ∧
    (Buffer.trom.base ≤ (0x23FC#16).toNat ∧ (0x23FC#16).toNat < Buffer.trom.base + Buffer.trom.size ∧
      ∃ g ∈ romGaps, 0x2000 + g.1 ≤ (0x23FC#16).toNat ∧ (0x23FC#16).toNat < 0x2000 + g.2) ∧
    (Buffer.bsbuf.base ≤ (0x1000#16).toNat ∧ (0x1000#16).toNat < Buffer.bsbuf.base + Buffer.bsbuf.size) ∧
    (Buffer.pcm.base ≤ (0x627C#16).toNat ∧ (0x627C#16).toNat < Buffer.pcm.base + Buffer.pcm.size) := by decide +kernel

/-- A register that may be read while a command runs, one that may not, and the last word of a buffer. -/
theorem witness_ReadWhileBusyIsADraw :
    (sched [.read 0x18] (pendingOn 0 State.reset)).busy = true ∧
    (regAt (0x08#16).toNat = some .status ∧ Reg.status ∈ [Reg.id, .ctrl, .status, .ien, .errcode, .cmd]) ∧
    (regAt (0x18#16).toNat = some .result ∧ Reg.result ∉ [Reg.id, .ctrl, .status, .ien, .errcode, .cmd]) ∧
    (regAt (0xFC#16).toNat = some (.slpc 15) ∧ (0xFC#16).toNat < 0x100 ∧ (0xFC#16).toNat % 4 = 0) ∧
    (Buffer.trom.base ≤ (0x24FC#16).toNat ∧ (0x24FC#16).toNat < Buffer.trom.base + Buffer.trom.size) := by decide

theorem witness_StatusReadShowsTheFlags : (sched [.read 0x0008#16] State.reset).schedule = .read 0x0008#16 :: [] := rfl

theorem witness_MisalignedAccessIsRejected :
    (0x0001#16).toNat % 4 ≠ 0 ∧ (0xFFFF#16).toNat % 4 ≠ 0 ∧
    (sched [.read 0x0001#16] State.reset).schedule = .read 0x0001#16 :: [] ∧
    (sched [.write 0xFFFF#16 0 .zero] State.reset).schedule = .write 0xFFFF#16 0 .zero :: [] := by decide

/-- A reserved offset, unmapped addresses at the edges of a buffer, a read-only register and buffer. -/
theorem witness_UnmappedAndReadOnlyAreIgnored :
    ((0x84#16).toNat % 4 = 0 ∧ (0x84#16).toNat < 0x100 ∧ regAt (0x84#16).toNat = none) ∧
    (0x100 ≤ (0x0FFC#16).toNat ∧ bufferAt (0x0FFC#16).toNat = none) ∧
    (0x100 ≤ (0x1500#16).toNat ∧ bufferAt (0x1500#16).toNat = none) ∧
    ((0x18#16).toNat < 0x100 ∧ regAt (0x18#16).toNat = some .result) ∧
    (Buffer.blk.base ≤ (0x344C#16).toNat ∧ (0x344C#16).toNat < Buffer.blk.base + Buffer.blk.size) := by decide

/-- A write while a command runs, a locked one, and one that stores, at the last word of the buffer. -/
theorem witness_BufferWriteStoresOneWord :
    (0x14FC#16).toNat % 4 = 0 ∧ (Buffer.bsbuf.base ≤ (0x14FC#16).toNat ∧
      (0x14FC#16).toNat < Buffer.bsbuf.base + Buffer.bsbuf.size) ∧
    (sched [.write 0x14FC#16 7 .zero] (pendingOn 0 State.reset)).busy = true ∧
    ((sched [.write 0x14FC#16 7 .zero] d1).busy = false ∧ d1.status.rdv = true) ∧
    ((sched [.write 0x14FC#16 7 .zero] State.reset).busy = false ∧
      ¬ (Buffer.bsbuf = .bsbuf ∧ State.reset.status.rdv = true)) := by decide +kernel

/-- A write of CFG while a command runs (vector T8) and on an idle block, and the last of the registers. -/
theorem witness_WrittenRegisterReadsBackItsDefinedBits :
    ((sched [.write 0x001C#16 0 .zero] (pendingOn 0 State.reset)).busy = true ∧
      (sched [.write 0x004C#16 7 .later] (pendingOn 0 State.reset)).busy = true) ∧
    (sched [.write 0x001C#16 0xFFFFFFFF .zero, .read 0x001C#16] State.reset).busy = false ∧
    (sched [.write 0x001C#16 0xFFFFFFFF .zero, .read 0x001C#16] State.reset).schedule =
      .write 0x001C#16 0xFFFFFFFF .zero :: .read 0x001C#16 :: [] := by decide

theorem witness_LenIsClampedAndLocked :
    (sched [.write 0x0020#16 1281 .zero] (pendingOn 0 State.reset)).busy = true ∧
    ((sched [.write 0x0020#16 1281 .zero] d1).busy = false ∧ d1.status.rdv = true) ∧
    ((sched [.write 0x0020#16 1281 .zero] State.reset).busy = false ∧ State.reset.status.rdv = false) := by decide +kernel

theorem witness_StatusWriteClearsByOnes :
    (sched [.write 0x0008#16 6 .zero] (pendingOn 0 State.reset)).schedule = .write 0x0008#16 6 .zero :: [] := rfl

theorem witness_EveryStepKeepsErrcodeZeroWithoutError :
    ErrorInv (sched [.write cmdAddr 0x13 .zero] State.reset) ∧
    ∃ t, step (sched [.write cmdAddr 0x13 .zero] State.reset) = .next t ∧ t.status.err = true :=
  ⟨fun _ => ⟨rfl, rfl, rfl⟩, _, eq_next_after (by decide +kernel), by decide +kernel⟩

theorem witness_InterruptFollowsEnabledFlags :
    (sched [.write 0x000C#16 4 .later] State.reset).schedule = .write 0x000C#16 4 .later :: [] := rfl

/-- The reset input, a soft reset while a command runs, and a write of CTRL that is none. -/
theorem witness_ResetClearsEverythingButTrom :
    (sched [.reset] d1).schedule = .reset :: [] ∧
    ((sched [.write 0x0004#16 1 .zero] (pendingOn 0 d1)).schedule = .write 0x0004#16 1 .zero :: [] ∧
      (1#32).getLsbD 0 = true) ∧
    (0xFFFFFFFE#32).getLsbD 0 = false := ⟨rfl, ⟨rfl, rfl⟩, rfl⟩

theorem witness_EveryStepKeepsTheMemoryCanonical :
    MemoryInv (sched [.write 0x1000 0 .zero] (stream [5, 0, 7])) ∧
    ∃ t, step (sched [.write 0x1000 0 .zero] (stream [5, 0, 7])) = .next t ∧ t.mem = [] :=
  ⟨by unfold MemoryInv; decide +kernel, _, eq_next_after (by decide +kernel), by decide +kernel⟩

theorem witness_TromNeverChanges : ∃ t, step (sched [.write 0x2000 7 .zero] State.reset) = .next t := ⟨_, eq_next_after (by decide +kernel)⟩

theorem witness_EveryStepKeepsThePendingCommandAcceptable :
    PendingInv (sched [.write 0x8 2 .zero] (pendingOn 0 State.reset)) ∧
    ∃ t, step (sched [.write 0x8 2 .zero] (pendingOn 0 State.reset)) = .next t ∧ t.pending = some 0 :=
  ⟨pendingInv_nop _, _, eq_next_after (by decide +kernel), by decide +kernel⟩

/-- A state with a command pending, a bitstream, an error recorded and the range decoder running. -/
theorem witness_EveryStepCompletesAndKeepsTheInvariants :
    Inv (sched [.read 0x1000] (pendingOn 0
      { d1 with
        errcode := { code := 1, op := 0x13 }, status := { State.reset.status with rdv := true, err := true } })) where
  range _ := rangeOk_d1
  error h := by cases h
  pending w h := by cases h; exact ⟨rfl, rfl, .nop, rfl, rfl⟩
  prevGain := by unfold PrevGainInv; decide
  len := by unfold LenInv; decide
  memory := by unfold MemoryInv; decide +kernel
  trom := by unfold TromInv; decide +kernel

end Sys2Proof.Tests
end

section
/-! The commands without their bookkeeping: what each leaves alone, said once for all of them. -/

namespace Sys2Proof.Machine

/-- What a command does besides the bookkeeping of its completion, where it does not refuse a malformed TROM. -/
def workOf (i : Instr) (s : State) : State :=
  match i with
  | .nop => s
  | .rdInit =>
    let s1 := s.setCoder (Coder.start s.bitstream)
    { s1 with status := { s1.status with rdv := true } }
  | .rdIcdf off =>
    let r := s.coder.icdf s.bitstream ((s.hostTable off).getD [])
    { s.setCoder r.2 with result := BitVec.ofNat 32 r.1 }
  | .rdBits n =>
    let r := s.coder.rawBits s.bitstream n
    { s.setCoder r.2 with result := BitVec.ofNat 32 r.1 }
  | .rdBitlogp logp =>
    let r := s.coder.bitLogp s.bitstream logp
    { s.setCoder r.2 with result := BitVec.ofNat 32 r.1 }
  | .rdClose => { s with status := { s.status with rdv := false } }
  | .excSeed => excSeed s
  | .excDecode => excDecode s
  | .excRecon => excRecon s
  | .gainDeq => gainDeq s
  | .lpcSynth k => lpcSynth k s
  | .gainScale k => gainScale k s
  | .synSubfr k => gainScale k (lpcSynth k s)
  | .synReset => synReset s

theorem withTrom_eq_next {s t u : State} (h : s.withTrom u = .next t) : t = u := by
  unfold State.withTrom at h
  split at h
  · exact (Host.Outcome.next.inj h).symm
  · cases h

/-- A completion that answers a next state is the command's work and the bookkeeping. -/
theorem effectOf_eq_next {i : Instr} {s t : State} (h : effectOf i s = .next t) : t = (workOf i s).finish := by
  cases i with
  | excSeed | excDecode | excRecon | gainDeq => exact withTrom_eq_next h
  | _ => exact (Host.Outcome.next.inj h).symm

@[simp] theorem workOf_cmdcnt (i : Instr) (s : State) : (workOf i s).cmdcnt = s.cmdcnt := by cases i <;> rfl
@[simp] theorem workOf_errcode (i : Instr) (s : State) : (workOf i s).errcode = s.errcode := by cases i <;> rfl
@[simp] theorem workOf_err (i : Instr) (s : State) : (workOf i s).status.err = s.status.err := by cases i <;> rfl
@[simp] theorem workOf_eovf (i : Instr) (s : State) : (workOf i s).status.eovf = s.status.eovf := by cases i <;> rfl
@[simp] theorem workOf_len (i : Instr) (s : State) : (workOf i s).len = s.len := by cases i <;> rfl

/-- The buffers the commands write begin at PULSES. -/
theorem workOf_read_below_pulses (i : Instr) (s : State) {a : Nat} (ha : a < Buffer.pulses.base) :
    (workOf i s).mem.read a = s.mem.read a := by
  have below {b : Nat} (n : Nat) (hb : Buffer.pulses.base ≤ b) : Outside b n a := .inl (Nat.lt_of_lt_of_le ha hb)
  have lpc (k : Nat) : (lpcSynth k s).mem.read a = s.mem.read a :=
    Memory.read_storeWords_outside _ (below _ (by decide))
  have scale (k : Nat) (u : State) : (gainScale k u).mem.read a = u.mem.read a :=
    Memory.read_storeHalves_outside _ (below _ (Nat.le_add_right_of_le (by decide)))
  cases i with
  | excDecode =>
    exact (Memory.read_storeWords_outside _ (below _ (by decide))).trans
      (Memory.read_storeHalves_outside _ (below _ (Nat.le_refl _)))
  | excRecon => exact Memory.read_storeWords_outside _ (below _ (by decide))
  | lpcSynth k => exact lpc k
  | gainScale k => exact scale k s
  | synSubfr k => exact (scale k _).trans (lpc k)
  | _ => rfl

end Sys2Proof.Machine
end

section
/-! Everything a step can do, with what makes it a completion or a reset. -/

namespace Sys2Proof.Machine

/-! ## The operations of a write -/

/-- A rejection leaves what 60_exceptions.md R236 records. -/
theorem raise_eq_recorded (e : ErrCode) (op : Byte) (s : State) : s.raise e op = s.recorded e.code op := by
  unfold State.raise State.recorded
  cases h : s.status.err <;> simp [h]

/-- A write of STATUS in one record: bit 1 clears DONE, bit 2 the error (10_state.md R23). -/
theorem writeStatus_eq (d : Word) (s : State) :
    s.writeStatus d = { s with
      status := { s.status with
        done := s.status.done && !d.getLsbD 1
        err := s.status.err && !d.getLsbD 2
        eovf := s.status.eovf && !d.getLsbD 2 }
      errcode := if d.getLsbD 2 then { code := 0, op := 0 } else s.errcode } := by
  unfold State.writeStatus
  cases d.getLsbD 1 <;> cases d.getLsbD 2 <;> simp [State.clearDone, State.clearError]

@[simp] theorem storeReg_status (r : Reg) (d : Word) (s : State) : (s.storeReg r d).status = s.status := by
  cases r <;> rfl
@[simp] theorem storeReg_errcode (r : Reg) (d : Word) (s : State) : (s.storeReg r d).errcode = s.errcode := by
  cases r <;> rfl
@[simp] theorem storeReg_cmdcnt (r : Reg) (d : Word) (s : State) : (s.storeReg r d).cmdcnt = s.cmdcnt := by
  cases r <;> rfl
@[simp] theorem storeReg_rd (r : Reg) (d : Word) (s : State) : (s.storeReg r d).rd = s.rd := by cases r <;> rfl
@[simp] theorem storeReg_mem (r : Reg) (d : Word) (s : State) : (s.storeReg r d).mem = s.mem := by cases r <;> rfl
theorem storeReg_len {r : Reg} (h : r ≠ .len) (d : Word) (s : State) : (s.storeReg r d).len = s.len := by
  cases r <;> first | rfl | contradiction

namespace PlainWrite

variable {s t : State} (h : PlainWrite s t)
include h

theorem cmdcnt : t.cmdcnt = s.cmdcnt := by
  cases h with
  | status d => rw [writeStatus_eq]
  | data r d => exact storeReg_cmdcnt r d s
  | _ => rfl

/-- A plain write moves neither the range decoder nor LEN under it. -/
theorem rangeDecoder : t.status.rdv = s.status.rdv ∧ t.rd = s.rd ∧ (s.status.rdv = true → t.len = s.len) := by
  cases h with
  | status d => rw [writeStatus_eq]; exact ⟨rfl, rfl, fun _ => rfl⟩
  | data r d _ _ hlen =>
    refine ⟨by simp, by simp, fun hv => storeReg_len (fun hr => ?_) d s⟩
    exact absurd hv (by simp [hlen hr])
  | _ => exact ⟨rfl, rfl, fun _ => rfl⟩

/-- No buffer the host may write lies in TROM. -/
theorem read_trom {k : Nat} (hk : k < 1280) : t.mem.read (0x2000 + k) = s.mem.read (0x2000 + k) := by
  cases h with
  | status d => rw [writeStatus_eq]
  | data r d => rw [storeReg_mem]
  | buffer b a d hw _ _ _ hlo hhi =>
    have outside : ¬ (a ≤ 0x2000 + k ∧ 0x2000 + k < a + 4) := by
      cases b <;> first | contradiction | (simp only [Buffer.base, Buffer.size] at hlo hhi; omega)
    exact (Memory.read_store _ _ _ _).trans (if_neg outside)
  | _ => rfl

end PlainWrite

/-! ## Which write is a reset -/

theorem eq_of_regAt_ctrl {n : Nat} (h : regAt n = some .ctrl) : n = 4 := by
  unfold regAt at h
  split at h <;> first | rfl | cases h | (split at h <;> cases h)

theorem eq_of_regAt_cmd {n : Nat} (h : regAt n = some .cmd) : n = 0x014 := by
  unfold regAt at h
  split at h <;> first | rfl | cases h | (split at h <;> cases h)

/-- A write of a register but CTRL and CMD is rejected or plain. -/
theorem writeReg_cases {r : Reg} (hctrl : r ≠ .ctrl) (hcmd : r ≠ .cmd) (d : Word) (lat : Latency) (s : State) :
    (∃ e, s.writeReg r d lat = .next (s.raise e 0xFF#8)) ∨
    (∃ t, s.writeReg r d lat = .next t ∧ PlainWrite s t) := by
  unfold State.writeReg
  split
  · contradiction
  · exact .inr ⟨_, rfl, .status d⟩
  · exact .inr ⟨_, rfl, .ien _⟩
  · contradiction
  · split_ifs with hw hb hl
    · exact .inr ⟨_, rfl, .ignored⟩
    · exact .inl ⟨_, rfl⟩
    · exact .inl ⟨_, rfl⟩
    · refine .inr ⟨_, rfl, .data r d (by simpa using hw) (by simpa using hb) fun hr => ?_⟩
      simpa [hr] using hl

/-- A write of an aligned buffer address is rejected or plain. -/
theorem writeBuffer_cases {b : Buffer} {a : Nat} (ha : a % 4 = 0) (hb : bufferAt a = some b) (d : Word) (s : State) :
    (∃ e, s.writeBuffer b a d = s.raise e 0xFF#8) ∨ PlainWrite s (s.writeBuffer b a d) := by
  obtain ⟨hlo, hhi⟩ := bufferAt_some hb
  unfold State.writeBuffer
  split_ifs with hw hbusy hl
  · exact .inr .ignored
  · exact .inl ⟨_, rfl⟩
  · exact .inl ⟨_, rfl⟩
  · refine .inr (.buffer b a d (by simpa using hw) (by simpa using hbusy) (fun h => by simpa [h] using hl) ha hlo ?_)
    cases b <;> simp only [Buffer.base, Buffer.size] at hlo hhi ⊢ <;> omega

theorem busWrite_ctrl (d : Word) (lat : Latency) (s : State) :
    s.busWrite 0x0004#16 d lat = .next (if d.getLsbD 0 then s.resetBlock else s) := rfl

theorem busWrite_cmd (w : Word) (lat : Latency) (s : State) : s.busWrite cmdAddr w lat = s.writeCmd w lat := rfl

/-- Everything a write of an address but that of CTRL can do: a reset is not among it. -/
theorem busWrite_cases_of_ne_ctrl {a : BusAddr} (hctrl : a ≠ 0x0004#16) (d : Word) (lat : Latency) (s : State) :
    (∃ e, s.busWrite a d lat = .next (s.raise e 0xFF#8)) ∨
    (a = cmdAddr ∧ s.busWrite a d lat = s.writeCmd d lat) ∨
    (∃ t, s.busWrite a d lat = .next t ∧ PlainWrite s t) := by
  unfold State.busWrite
  split
  · exact .inl ⟨_, rfl⟩
  · rename_i ha
    split <;> split
    · exact .inr (.inr ⟨_, rfl, .ignored⟩)
    · rename_i r hr
      by_cases hcmd : r = .cmd
      · subst hcmd
        exact .inr (.inl ⟨BitVec.eq_of_toNat_eq (eq_of_regAt_cmd hr), rfl⟩)
      · refine (writeReg_cases (fun h => hctrl ?_) hcmd d lat s).imp_right .inr
        exact BitVec.eq_of_toNat_eq (eq_of_regAt_ctrl (h ▸ hr))
    · exact .inr (.inr ⟨_, rfl, .ignored⟩)
    · rename_i b hb
      rcases writeBuffer_cases (not_not.mp ha) hb d s with ⟨e, h⟩ | h
      · exact .inl ⟨e, congrArg _ h⟩
      · exact .inr (.inr ⟨_, rfl, h⟩)

/-! ## A step -/

/-- What the step from `s` can leave, `u` being `s` with its turn taken from the schedule. A turn of the engine with
nothing pending leaves what an ignored write does. -/
inductive StepEffect (s u : State) : State → Prop where
  | plain {t : State} : PlainWrite u t → StepEffect s u t
  | raised (e : ErrCode) (op : Byte) : StepEffect s u (u.raise e op)
  | misread (e : ErrCode) (op : Byte) : StepEffect s u ((u.raise e op).drive 0)
  | driven (w : Word) : StepEffect s u (u.drive w)
  | drawn : StepEffect s u u.drawRead
  | reset : TakesReset s → StepEffect s u u.resetBlock
  | accepted (i : Instr) : Accepts i u → StepEffect s u (u.accept (encode i))
  | completed (w : Word) (i : Instr) : Completes s → u.pending = some w → decode w = .ok i → checkOf i u = none →
      StepEffect s u (workOf i u).finish
  | executed (i : Instr) : Completes s → Accepts i u → StepEffect s u (workOf i (u.accept (encode i))).finish

theorem accepts_schedule (i : Instr) (s : State) (rest : List Turn) :
    Accepts i { s with schedule := rest } ↔ Accepts i s := by cases i <;> rfl

/-- An accepted command with zero latency runs its effect on the state after acceptance. -/
theorem exec_of_accepts {i : Instr} {s : State} (h : Accepts i s) : exec i s = effectOf i (s.accept (encode i)) := by
  rw [exec_eq, h.2, runCommand_accept h.1]

/-- The engine's turn, when the step from `s` is one. -/
theorem engineTurn_effect {s u t : State} (hp : u.pending = s.pending)
    (hs : s.schedule = [] ∨ ∃ rest, s.schedule = .engine :: rest) (h : u.engineTurn = .next t) : StepEffect s u t := by
  rcases engineTurn_cases u with ⟨-, he⟩ | ⟨w, i, hw, hd, hc, he⟩ | he
  · cases he.symm.trans h
    exact .plain .ignored
  · rw [effectOf_eq_next (he.symm.trans h)]
    exact .completed w i (.inl ⟨by simp [← hp, hw], hs⟩) hw hd hc
  · cases he.symm.trans h

/-- A write of CMD. -/
theorem writeCmd_effect {s t : State} {w : Word} {lat : Latency} {rest : List Turn}
    (hs : s.schedule = .write cmdAddr w lat :: rest)
    (h : ({ s with schedule := rest } : State).writeCmd w lat = .next t) :
    StepEffect s { s with schedule := rest } t := by
  rcases writeCmd_cases w lat { s with schedule := rest } with ⟨e, he⟩ | ⟨i, hd, rfl, he⟩ | ⟨i, -, -, he⟩ <;>
    rw [he] at h
  · cases h
    exact .raised _ _
  · rcases exec_cases i { s with schedule := rest } with ⟨e, hr, -⟩ | ⟨ha, hr⟩ <;> rw [hr] at h
    · cases h
      exact .raised _ _
    · rw [effectOf_eq_next h]
      exact .executed i (.inr ⟨w, i, rest, hs, hd, (accepts_schedule i s rest).mp ha⟩) ha
  · cases h
    rcases issue_cases i { s with schedule := rest } with ⟨e, hr, -⟩ | ⟨ha, hr⟩ <;> rw [hr]
    · exact .raised _ _
    · exact .accepted i ha

/-- A write of the bus. -/
theorem busWrite_effect {s t : State} {a : BusAddr} {d : Word} {lat : Latency} {rest : List Turn}
    (hs : s.schedule = .write a d lat :: rest)
    (h : ({ s with schedule := rest } : State).busWrite a d lat = .next t) :
    StepEffect s { s with schedule := rest } t := by
  by_cases hctrl : a = 0x0004#16
  · subst hctrl
    rw [busWrite_ctrl] at h
    cases h
    split
    · exact .reset (.inr ⟨d, lat, rest, hs, ‹_›⟩)
    · exact .plain .ignored
  · rcases busWrite_cases_of_ne_ctrl hctrl d lat { s with schedule := rest } with ⟨e, he⟩ | ⟨rfl, he⟩ | ⟨v, he, hv⟩ <;>
      rw [he] at h
    · cases h
      exact .raised _ _
    · exact writeCmd_effect hs h
    · cases h
      exact .plain hv

theorem busRead_effect (s u : State) (a : BusAddr) : StepEffect s u (u.busRead a) := by
  rcases busRead_cases a u with ⟨-, he⟩ | ⟨-, w, he⟩ | ⟨-, -, he⟩ <;> rw [he]
  · exact .misread _ _
  · exact .driven w
  · exact .drawn

/-- Everything a step can do. -/
theorem step_effect {s t : State} (h : step s = .next t) : ∃ rest, StepEffect s { s with schedule := rest } t := by
  cases hs : s.schedule with
  | nil =>
    rw [step_nil hs] at h
    exact ⟨s.schedule, engineTurn_effect rfl (.inl hs) h⟩
  | cons turn rest =>
    rw [step_cons hs] at h
    refine ⟨rest, ?_⟩
    cases turn with
    | read a =>
      cases h
      exact busRead_effect s _ a
    | write a d lat => exact busWrite_effect hs h
    | reset =>
      cases h
      exact .reset (.inl ⟨rest, hs⟩)
    | engine => exact engineTurn_effect rfl (.inr ⟨rest, hs⟩) h

end Sys2Proof.Machine
end

section
/-! The range decoder stays in range through every command and access (10_state.md R55, 41_range_decoder.md R147). -/

namespace Sys2Proof.Machine

/-- A decoding stage over the bitstream `buf` keeps the range decoder registers in range. -/
def KeepsRange {α : Type} (buf : List Byte) (f : Coder → α × Coder) : Prop :=
  ∀ c : Coder, RangeOk buf.length c.rd → RangeOk buf.length (f c).2.rd

theorem mapCoder_keepsRange {α β : Type} {buf : List Byte} {f : α → Coder → β × Coder}
    (hf : ∀ a, KeepsRange buf (f a)) (as : List α) : KeepsRange buf (mapCoder f as) := by
  induction as with
  | nil => exact fun _ h => h
  | cons a as ih => exact fun c h => ih _ (hf a c h)

section
variable {buf : List Byte} (hlen : buf.length < 2048) (m : Memory)
include hlen

theorem icdf_keepsRange (t : List Byte) : KeepsRange buf (Coder.icdf buf t) := fun _ h => Coder.icdf_rangeOk hlen h

theorem escapeLoop_keepsRange (n : Nat) (b : BlockCount) : KeepsRange buf (escapeLoop buf m n b) := by
  induction n generalizing b with
  | zero => exact fun _ h => h
  | succ n ih =>
    intro c h
    rw [escapeLoop]
    split
    · exact ih _ _ (icdf_keepsRange hlen _ c h)
    · exact h

theorem pulseCount_keepsRange (rate : Nat) : KeepsRange buf (pulseCount buf m rate) := fun c h =>
  escapeLoop_keepsRange hlen m 10 _ _ (icdf_keepsRange hlen _ c h)

theorem split_keepsRange (l p : Nat) : KeepsRange buf (split buf m l p) := by
  intro c h
  unfold split
  split
  · exact h
  · exact icdf_keepsRange hlen _ c h

theorem shell_keepsRange (n p : Nat) : KeepsRange buf (shell buf m n p) := by
  induction n generalizing p with
  | zero => exact fun _ h => h
  | succ l ih => exact fun c h => ih _ _ (ih _ _ (split_keepsRange hlen m l p c h))

theorem extendSample_keepsRange (n q : Nat) : KeepsRange buf (extendSample buf m n q) := by
  induction n generalizing q with
  | zero => exact fun _ h => h
  | succ n ih => exact fun c h => ih _ _ (icdf_keepsRange hlen _ c h)

theorem signSample_keepsRange (t : List Byte) (q : Nat) : KeepsRange buf (signSample buf t q) := by
  intro c h
  unfold signSample
  split
  · exact h
  · exact icdf_keepsRange hlen t c h

/-- The five stages of EXC_DECODE in order. -/
theorem decodeFrame_rangeOk (cfg : Cfg) {c : Coder} (h : RangeOk buf.length c.rd) :
    RangeOk buf.length (decodeFrame buf m cfg c).coder.rd := by
  have shells (b) : KeepsRange buf (blockShell buf m b) := shell_keepsRange hlen m 4 b.sum
  have lsbs (x) : KeepsRange buf (blockLsbs buf m x) :=
    mapCoder_keepsRange (extendSample_keepsRange hlen m x.1.nls) x.2
  have signs (x) : KeepsRange buf (blockSigns buf m cfg x) := mapCoder_keepsRange (signSample_keepsRange hlen _) x.2
  have rate := icdf_keepsRange hlen (rateIcdf m (cfg.stype.toNat / 2)) c h
  have counts (r : Nat) := mapCoder_keepsRange (fun _ : Nat => pulseCount_keepsRange hlen m r)
    (List.range cfg.numBlocks) _ rate
  exact mapCoder_keepsRange signs _ _ (mapCoder_keepsRange lsbs _ _ (mapCoder_keepsRange shells _ _ (counts _)))

end

theorem length_bitstream (s : State) : s.bitstream.length = s.len.toNat := Memory.length_load _ _ _

/-- The invariant speaks of RDV, LEN and the decoder registers alone. -/
theorem RangeInv.congr {s t : State} (h : RangeInv s) (hv : t.status.rdv = s.status.rdv) (hrd : t.rd = s.rd)
    (hlen : s.status.rdv = true → t.len = s.len) : RangeInv t := by
  intro hr
  rw [hv] at hr
  rw [hrd, hlen hr]
  exact h hr

theorem require_eq_none {ok : Bool} {e : ErrCode} : require ok e = none ↔ ok = true := by
  cases ok <;> simp [require]

theorem rdBits_le_of_check {n : Nat} {s : State} (h : checkOf (.rdBits n) s = none) : n ≤ 25 := by
  have harg := require_eq_none.mp (Option.or_eq_none_iff.mp h).2
  exact of_decide_eq_true harg

theorem rdBitlogp_bounds_of_check {logp : Nat} {s : State} (h : checkOf (.rdBitlogp logp) s = none) :
    1 ≤ logp ∧ logp ≤ 15 := by
  have harg := require_eq_none.mp (Option.or_eq_none_iff.mp h).2
  simpa using harg

theorem workOf_rangeInv {i : Instr} {s : State} (hc : checkOf i s = none) (h : RangeInv s) : RangeInv (workOf i s) := by
  have hlen : s.bitstream.length < 2048 := by rw [length_bitstream]; exact s.len.isLt
  unfold RangeInv at h ⊢
  rw [workOf_len, ← length_bitstream] at *
  cases i with
  | rdInit => exact fun _ => Coder.start_rangeOk hlen
  | rdIcdf off => exact fun hv => Coder.icdf_rangeOk hlen (h hv)
  | rdBits n => exact fun hv => Coder.rawBits_rangeOk hlen (rdBits_le_of_check hc) (h hv)
  | rdBitlogp logp =>
    obtain ⟨hlo, hhi⟩ := rdBitlogp_bounds_of_check hc
    exact fun hv => Coder.bitLogp_rangeOk hlen hlo hhi (h hv)
  | rdClose => exact fun hv => nomatch hv
  | excSeed => exact fun hv => Coder.icdf_rangeOk hlen (h hv)
  | excDecode => exact fun hv => decodeFrame_rangeOk hlen _ _ (h hv)
  | _ => exact h

theorem raise_rangeInv {e : ErrCode} {op : Byte} {s : State} (h : RangeInv s) : RangeInv (s.raise e op) := by
  rw [raise_eq_recorded]
  exact h

/-- Settles O23: no access moves LEN or the decoder under RDV = 1, and every command that passes its checks leaves the
registers in range. -/
theorem everyStepKeepsTheRangeDecoderInRange : Obligations.EveryStepKeepsTheRangeDecoderInRange := by
  intro s t h hstep
  obtain ⟨rest, heff⟩ := step_effect hstep
  have hu : RangeInv { s with schedule := rest } := h
  cases heff with
  | plain hw =>
    obtain ⟨hv, hrd, hlen⟩ := hw.rangeDecoder
    exact hu.congr hv hrd hlen
  | raised => exact raise_rangeInv hu
  | misread => exact raise_rangeInv hu
  | driven => exact hu
  | drawn => exact hu
  | reset => exact fun hv => nomatch hv
  | accepted => exact hu
  | completed w i _ _ _ hc => exact workOf_rangeInv hc hu
  | executed i _ ha => exact workOf_rangeInv ((checkOf_accept _ i _).trans ha.2) hu

end Sys2Proof.Machine
end

section
/-! CMDCNT counts completions (10_state.md R37, 40_control.md R112). -/

namespace Sys2Proof.Machine

/-- The bookkeeping of a completed command (40_control.md R112). -/
theorem effectOf_bookkeeping {i : Instr} {s t : State} (h : effectOf i s = .next t) :
    t.cmdcnt = s.cmdcnt + 1 ∧ t.busy = false ∧ t.status.done = true := by
  obtain rfl := effectOf_eq_next h
  exact ⟨by simp, rfl, rfl⟩

theorem engineTurn_bookkeeping {s t : State} (hp : s.pending ≠ none) (h : s.engineTurn = .next t) :
    t.cmdcnt = s.cmdcnt + 1 ∧ t.busy = false ∧ t.status.done = true := by
  rcases engineTurn_cases s with ⟨hnone, -⟩ | ⟨w, i, -, -, -, he⟩ | he
  · contradiction
  · exact effectOf_bookkeeping (he.symm.trans h)
  · cases he.symm.trans h

/-- A step in which a command completes: the engine's turn, or a zero-latency write of CMD. -/
theorem step_of_completes {s t : State} (hc : Completes s) (h : step s = .next t) :
    t.cmdcnt = s.cmdcnt + 1 ∧ t.busy = false ∧ t.status.done = true := by
  obtain ⟨hp, hs⟩ | ⟨w, i, rest, hs, hd, ha⟩ := hc
  · obtain hs | ⟨rest, hs⟩ := hs
    · exact engineTurn_bookkeeping hp (step_nil hs ▸ h)
    · exact engineTurn_bookkeeping (s := { s with schedule := rest }) hp ((step_cons hs).symm.trans h)
  · have hu : Accepts i { s with schedule := rest } := (accepts_schedule i s rest).mpr ha
    rw [step_cons hs, State.takeTurn, busWrite_cmd, writeCmd_zero hd, exec_of_accepts hu] at h
    have hb := effectOf_bookkeeping h
    exact hb

theorem step_of_takesReset {s t : State} (hr : TakesReset s) (h : step s = .next t) : t.cmdcnt = 0 := by
  obtain ⟨rest, hs⟩ | ⟨d, lat, rest, hs, hd⟩ := hr <;> rw [step_cons hs] at h
  · cases h
    rfl
  · rw [State.takeTurn, busWrite_ctrl, if_pos hd] at h
    cases h
    rfl

/-- Settles O11: what a step that completes a command or resets leaves, and that every other one keeps CMDCNT. -/
theorem commandCounterCountsCompletions : Obligations.CommandCounterCountsCompletions := by
  intro s t hstep
  refine ⟨fun hc => ?_, fun hr => step_of_takesReset hr hstep, fun hc hr => ?_⟩
  · obtain ⟨hcnt, hbusy, hdone⟩ := step_of_completes hc hstep
    exact ⟨by rw [hcnt, BitVec.toNat_add]; rfl, hbusy, hdone⟩
  · obtain ⟨rest, heff⟩ := step_effect hstep
    cases heff with
    | plain hw => exact hw.cmdcnt
    | reset h => exact absurd h hr
    | completed _ _ h => exact absurd h hc
    | executed _ h => exact absurd h hc
    | _ => simp

end Sys2Proof.Machine
end

section
/-! The error record is 0 while ERR = 0 (10_state.md R25). -/

namespace Sys2Proof.Machine

/-- A rejection leaves ERR = 1. -/
theorem raise_errorInv (e : ErrCode) (op : Byte) (s : State) : ErrorInv (s.raise e op) := by
  intro h
  rw [raise_eq_recorded] at h
  cases h

theorem PlainWrite.errorInv {s t : State} (hw : PlainWrite s t) (h : ErrorInv s) : ErrorInv t := by
  cases hw with
  | status d =>
    rw [writeStatus_eq]
    unfold ErrorInv at h ⊢
    cases d.getLsbD 2
    · simpa using h
    · simp
  | data r d => simpa [ErrorInv] using h
  | _ => exact h

theorem workOf_errorInv (i : Instr) {s : State} (h : ErrorInv s) : ErrorInv (workOf i s) := by
  simpa [ErrorInv] using h

/-- Settles O52: a rejection sets ERR, and what clears ERR clears the record with it. -/
theorem everyStepKeepsErrcodeZeroWithoutError : Obligations.EveryStepKeepsErrcodeZeroWithoutError := by
  intro s t h hstep
  obtain ⟨rest, heff⟩ := step_effect hstep
  have hu : ErrorInv { s with schedule := rest } := h
  cases heff with
  | plain hw => exact hw.errorInv hu
  | raised => exact raise_errorInv _ _ _
  | misread => exact raise_errorInv _ _ _
  | driven => exact hu
  | drawn => exact hu
  | reset => exact fun _ => ⟨rfl, rfl, rfl⟩
  | accepted => exact hu
  | completed => exact workOf_errorInv _ hu
  | executed => exact workOf_errorInv _ hu

end Sys2Proof.Machine
end

section
/-! TROM, and the accesses to STATUS and LEN (10_state.md R51, R23, R29). -/

namespace Sys2Proof.Machine

/-- Settles O57: the host may write no buffer in TROM, the commands write above it, and a reset keeps it. -/
theorem tromNeverChanges : Obligations.TromNeverChanges := by
  intro s t hstep k hk
  obtain ⟨rest, heff⟩ := step_effect hstep
  have hlow : 0x2000 + k < Buffer.pulses.base := by
    change 0x2000 + k < 0x3000
    omega
  cases heff with
  | plain hw => exact hw.read_trom hk
  | reset =>
    have hcov : Buffer.trom.covers (0x2000 + k) = true := by
      have hhi : 0x2000 + k < 0x2500 := by omega
      exact Bool.and_eq_true_iff.mpr ⟨decide_eq_true (Nat.le_add_right _ _), decide_eq_true hhi⟩
    exact (Memory.read_resetBuffers _ _).trans (if_pos hcov)
  | completed => exact workOf_read_below_pulses _ _ hlow
  | executed => exact workOf_read_below_pulses _ _ hlow
  | _ => simp

/-- The STATUS word as a number (10_state.md R23). -/
theorem toNat_statusWord (s : State) :
    s.statusWord.toNat = s.busy.toNat + 2 * s.status.done.toNat + 4 * s.status.err.toNat + 8 * s.status.exh.toNat +
      16 * s.status.rdv.toNat + 32 * s.status.eovf.toNat := by
  have h : ∀ b d e x r o : Bool, (flagBit b 0 ||| flagBit d 1 ||| flagBit e 2 ||| flagBit x 3 ||| flagBit r 4 |||
      flagBit o 5).toNat = b.toNat + 2 * d.toNat + 4 * e.toNat + 8 * x.toNat + 16 * r.toNat + 32 * o.toNat := by decide
  exact h _ _ _ _ _ _

/-- A read of STATUS is exact whether a command runs or not (20_memory.md R77). -/
theorem busRead_status (s : State) : s.busRead 0x0008#16 = s.drive s.statusWord := by
  simp [State.busRead, regAt, Reg.readableWhileBusy, State.readReg]

/-- Settles O45: the read drives the STATUS word, whose six flags are at bits 0 to 5. -/
theorem statusReadShowsTheFlags : Obligations.StatusReadShowsTheFlags := by
  intro s rest hs
  refine ⟨({ s with schedule := rest } : State).drive s.statusWord, ?_, toNat_statusWord s⟩
  rw [step_cons hs, State.takeTurn, busRead_status]
  rfl

/-- A write of LEN, in the order of its checks (20_memory.md R67, 70_reset_and_hazards.md R276). -/
theorem busWrite_len (d : Word) (lat : Latency) (s : State) :
    s.busWrite 0x0020#16 d lat =
      if s.busy then .next (s.raise .busyWr 0xFF#8)
      else if s.status.rdv then .next (s.raise .bsLock 0xFF#8)
      else .next (s.storeReg .len d) := by
  simp [State.busWrite, regAt, State.writeReg, Reg.hostWritable]

/-- Settles O50 by the order of the checks of a write of LEN. -/
theorem lenIsClampedAndLocked : Obligations.LenIsClampedAndLocked := by
  intro s d lat rest hs
  rw [step_cons hs, State.takeTurn, busWrite_len]
  have hbusy : ({ s with schedule := rest } : State).busy = s.busy := rfl
  refine ⟨fun hb => ?_, fun hb hv => ?_, fun hb hv => ?_⟩
  · simp [hbusy, hb, raise_eq_recorded, ErrCode.code]
  · simp [hbusy, hb, hv, raise_eq_recorded, ErrCode.code]
  · refine ⟨({ s with schedule := rest } : State).storeReg .len d, by simp [hbusy, hb, hv], rfl, ?_⟩
    have hlt : min d.toNat Config.bsCap < 2 ^ 11 := by
      rw [Config.bsCap]
      omega
    exact (BitVec.toNat_ofNat _ _).trans (Nat.mod_eq_of_lt hlt)

end Sys2Proof.Machine
end

section
/-! What an access of the host bus does, by where its address lies (20_memory.md R61, R66 to R69, R77). -/

namespace Sys2Proof.Machine

/-- The registers lie at word-aligned offsets below 0x100 (20_memory.md R61). -/
theorem offset_of_regAt {n : Nat} {r : Reg} (h : regAt n = some r) : n < 0x100 ∧ n % 4 = 0 := by
  unfold regAt at h
  split at h
  on_goal -1 => -- the delay line, the one entry of the map that is a range
    split_ifs at h with hslpc
    exact hslpc.2
  all_goals decide

/-- No register and no buffer lies at the address (20_memory.md R69). -/
def Unmapped (a : Nat) : Prop := (a < 0x100 ∧ regAt a = none) ∨ (0x100 ≤ a ∧ bufferAt a = none)

/-- A buffer lies above the registers. -/
theorem not_lt_of_bufferAt {a : Nat} {b : Buffer} (h : bufferAt a = some b) : ¬ a < 0x100 :=
  Nat.not_lt.mpr (Nat.le_trans b.base_ge (bufferAt_some h).1)

section
variable {a : BusAddr} {r : Reg} {b : Buffer} (d : Word) (lat : Latency) (s : State)

theorem busRead_misaligned (ha : a.toNat % 4 ≠ 0) : s.busRead a = (s.raise .busAlign 0xFF#8).drive 0 := if_pos ha

theorem busRead_reg (hr : regAt a.toNat = some r) :
    s.busRead a = if s.busy && !r.readableWhileBusy then s.drawRead else s.drive (s.readReg r) := by
  obtain ⟨hlt, ha⟩ := offset_of_regAt hr
  simp [State.busRead, ha, hlt, hr]

theorem busRead_buffer (ha : a.toNat % 4 = 0) (hb : bufferAt a.toNat = some b) :
    s.busRead a = if s.busy then s.drawRead else s.drive (s.mem.hostWord a.toNat) := by
  simp [State.busRead, ha, not_lt_of_bufferAt hb, hb]

theorem busRead_unmapped (ha : a.toNat % 4 = 0) (h : Unmapped a.toNat) : s.busRead a = s.drive 0 := by
  obtain ⟨hlt, hr⟩ | ⟨hle, hb⟩ := h
  · simp [State.busRead, ha, hlt, hr]
  · simp [State.busRead, ha, Nat.not_lt.mpr hle, hb]

theorem busWrite_misaligned (ha : a.toNat % 4 ≠ 0) : s.busWrite a d lat = .next (s.raise .busAlign 0xFF#8) := if_pos ha

theorem busWrite_reg (hr : regAt a.toNat = some r) : s.busWrite a d lat = s.writeReg r d lat := by
  obtain ⟨hlt, ha⟩ := offset_of_regAt hr
  simp [State.busWrite, ha, hlt, hr]

theorem busWrite_buffer (ha : a.toNat % 4 = 0) (hb : bufferAt a.toNat = some b) :
    s.busWrite a d lat = .next (s.writeBuffer b a.toNat d) := by
  simp [State.busWrite, ha, not_lt_of_bufferAt hb, hb]

theorem busWrite_unmapped (ha : a.toNat % 4 = 0) (h : Unmapped a.toNat) : s.busWrite a d lat = .next s := by
  obtain ⟨hlt, hr⟩ | ⟨hle, hb⟩ := h
  · simp [State.busWrite, ha, hlt, hr]
  · simp [State.busWrite, ha, Nat.not_lt.mpr hle, hb]

/-- A write of a register that is neither CTRL, STATUS, IEN nor CMD, in the order of the checks of 20_memory.md R67. -/
theorem writeReg_data (h : r ∉ [Reg.ctrl, .status, .ien, .cmd]) :
    s.writeReg r d lat =
      if !r.hostWritable then .next s
      else if s.busy then .next (s.raise .busyWr 0xFF#8)
      else if r = .len ∧ s.status.rdv then .next (s.raise .bsLock 0xFF#8)
      else .next (s.storeReg r d) := by
  cases r <;> first | rfl | exact absurd h (by decide)

end

/-- The turns to come and the data of the last read are in no register. -/
@[simp] theorem readReg_schedule (r : Reg) (s : State) (turns : List Turn) :
    ({ s with schedule := turns } : State).readReg r = s.readReg r := by cases r <;> rfl

@[simp] theorem readReg_drive (r : Reg) (w : Word) (s : State) : (s.drive w).readReg r = s.readReg r := by
  cases r <;> rfl

/-! ## The two statements about rejected and unspecified accesses -/

/-- Settles O46: the alignment is the first check of both accesses. -/
theorem misalignedAccessIsRejected : Obligations.MisalignedAccessIsRejected := by
  intro s a d lat rest ha
  refine ⟨fun hs => ?_, fun hs => ?_⟩ <;> rw [step_cons hs, State.takeTurn]
  · rw [busRead_misaligned _ ha, raise_eq_recorded]
    rfl
  · rw [busWrite_misaligned _ _ _ ha, raise_eq_recorded]
    rfl

/-- Settles O44: the six registers are those a running command leaves readable. -/
theorem readWhileBusyIsADraw : Obligations.ReadWhileBusyIsADraw := by
  intro s a rest hs hbusy ha
  have hbusy' : ({ s with schedule := rest } : State).busy = true := hbusy
  rw [step_cons hs, State.takeTurn]
  refine ⟨fun r _ hr => ?_, fun b hlo hhi => ?_⟩
  · have hexact : r ∈ [Reg.id, .ctrl, .status, .ien, .errcode, .cmd] ↔ r.readableWhileBusy = true := by
      cases r <;> simp [Reg.readableWhileBusy]
    rw [busRead_reg _ hr, hbusy', hexact]
    refine ⟨fun h => ?_, fun h => ?_⟩
    · rw [h, readReg_schedule]
      rfl
    · rw [eq_false_of_ne_true h]
      rfl
  · rw [busRead_buffer _ ha (bufferAt_eq hlo hhi), if_pos hbusy']
    rfl

end Sys2Proof.Machine
end

section
/-! What an aligned read of an idle block returns (20_memory.md R65, R66, 10_state.md R21 to R40, R51). -/

namespace Sys2Proof.Machine

/-- The IEN word as a number (10_state.md R24). -/
theorem toNat_ienWord (e : IntEnable) :
    e.word.toNat = 2 * e.doneIe.toNat + 4 * e.errIe.toNat + 8 * e.exhIe.toNat := by
  have h : ∀ d e x : Bool, (flagBit d 1 ||| flagBit e 2 ||| flagBit x 3).toNat =
      2 * d.toNat + 4 * e.toNat + 8 * x.toNat := by decide
  exact h _ _ _

/-- The CFG word as a number (10_state.md R28). -/
theorem toNat_cfgWord (c : Cfg) :
    c.word.toNat = c.bw.toNat + 4 * c.fsz.toNat + 16 * c.stype.toNat + 64 * c.qoff.toNat + 256 * c.ord.toNat +
      512 * c.ltpen.toNat := by
  have h : ∀ (bw stype : BitVec 2) (f q o l : Bool), (bw.setWidth 32 ||| flagBit f 2 ||| (stype.setWidth 32) <<< 4 |||
      flagBit q 6 ||| flagBit o 8 ||| flagBit l 9).toNat =
      bw.toNat + 4 * f.toNat + 16 * stype.toNat + 64 * q.toNat + 256 * o.toNat + 512 * l.toNat := by decide +kernel
  exact h _ _ _ _ _ _

/-- Two bit vectors side by side as a number. -/
theorem toNat_append_eq_add {m n : Nat} (x : BitVec m) (y : BitVec n) : (x ++ y).toNat = y.toNat + 2 ^ n * x.toNat := by
  rw [BitVec.toNat_append, Nat.shiftLeft_eq, Nat.mul_comm, ← Nat.two_pow_add_eq_or_of_lt y.isLt, Nat.add_comm]

/-- The ERRCODE word as a number (10_state.md R25). -/
theorem toNat_errcodeWord (e : ErrRecord) : e.word.toNat = e.code.toNat + 256 * e.op.toNat := by
  simp only [ErrRecord.word, toNat_append_eq_add]
  simp

/-- The word of four bytes as a number (20_memory.md R65). -/
theorem toNat_wordOfBytes (b0 b1 b2 b3 : Byte) :
    (wordOfBytes b0 b1 b2 b3).toNat = b0.toNat + 2 ^ 8 * b1.toNat + 2 ^ 16 * b2.toNat + 2 ^ 24 * b3.toNat := by
  simp only [wordOfBytes, toNat_append_eq_add]
  omega

/-- The bit counter less the logarithm of the range, modulo 2^32 (10_state.md R39). -/
theorem toNat_tell (rd : RangeState) :
    rd.tell.toNat = (rd.nbits.toNat + 2 ^ 32 - ilog rd.rng.toNat) % 2 ^ 32 := by
  have hilog : ilog rd.rng.toNat ≤ 32 := by
    unfold ilog
    split
    · omega
    · exact Nat.log2_lt ‹_› |>.mpr rd.rng.isLt
  rw [RangeState.tell, BitVec.toNat_sub, BitVec.toNat_ofNat]
  omega

/-- The register at the offset of a map entry reads as the entry's number. -/
def State.Shows (s : State) (entry : Nat × Nat) : Prop :=
  ∃ r, regAt entry.1 = some r ∧ (s.readReg r).toNat = entry.2

/-- Every entry of the map of 10_state.md section 2 is what the model's register there reads as. -/
theorem registerMap_shows (s : State) : ∀ entry ∈ s.registerMap, s.Shows entry := by
  have narrow {n : Nat} (x : BitVec n) (hn : n ≤ 32) : (x.setWidth 32).toNat = x.toNat :=
    BitVec.toNat_setWidth_of_le hn
  have gainAt : ∀ k : Fin 4, regAt (0x030 + 4 * k.val) = some (.gain k) := by decide
  have loggainAt : ∀ k : Fin 4, regAt (0x040 + 4 * k.val) = some (.loggain k) := by decide
  have slpcAt : ∀ j : Fin 16, regAt (0x0C0 + 4 * j.val) = some (.slpc j) := by decide
  unfold State.registerMap
  simp only [List.forall_mem_append, List.forall_mem_cons, List.forall_mem_ofFn_iff, List.not_mem_nil, false_imp_iff,
    implies_true, and_true, and_assoc]
  exact ⟨⟨.id, rfl, rfl⟩, ⟨.ctrl, rfl, rfl⟩, ⟨.status, rfl, toNat_statusWord s⟩, ⟨.ien, rfl, toNat_ienWord _⟩,
    ⟨.errcode, rfl, toNat_errcodeWord _⟩, ⟨.cmd, rfl, rfl⟩, ⟨.result, rfl, rfl⟩, ⟨.cfg, rfl, toNat_cfgWord _⟩,
    ⟨.len, rfl, narrow _ (by decide)⟩, ⟨.seed, rfl, narrow _ (by decide)⟩, ⟨.rate, rfl, narrow _ (by decide)⟩,
    ⟨.lcg, rfl, rfl⟩, fun k => ⟨.gain k, gainAt k, rfl⟩, fun k => ⟨.loggain k, loggainAt k, narrow _ (by decide)⟩,
    ⟨.prevGain, rfl, rfl⟩, ⟨.gainAdj, rfl, rfl⟩, ⟨.cmdcnt, rfl, rfl⟩, ⟨.rdRng, rfl, rfl⟩, ⟨.rdVal, rfl, rfl⟩,
    ⟨.rdTell, rfl, toNat_tell _⟩, ⟨.rdNbits, rfl, rfl⟩, ⟨.rdOffs, rfl, narrow _ (by decide)⟩,
    ⟨.rdRem, rfl, narrow _ (by decide)⟩, ⟨.rdEndOffs, rfl, narrow _ (by decide)⟩, ⟨.rdEndWin, rfl, rfl⟩,
    ⟨.rdNendBits, rfl, narrow _ (by decide)⟩, fun j => ⟨.slpc j, slpcAt j, rfl⟩⟩

/-- An aligned read changes the data it returns and the count of draws alone, and on an idle block draws nothing. -/
theorem busRead_frame {a : BusAddr} {s : State} (ha : a.toNat % 4 = 0) :
    s.busRead a = { s with busOut := (s.busRead a).busOut, draws := (s.busRead a).draws } ∧
      (s.busy = false → (s.busRead a).draws = s.draws) := by
  rcases busRead_cases a s with ⟨hmis, -⟩ | ⟨-, w, he⟩ | ⟨-, hbusy, he⟩
  · contradiction
  · rw [he]
    exact ⟨rfl, fun _ => rfl⟩
  · rw [he]
    exact ⟨rfl, fun hidle => absurd hbusy (by simp [hidle])⟩

/-- An idle block returns the number of the map at a register's offset. -/
theorem busRead_idle_register {a : BusAddr} {s : State} (hidle : s.busy = false) {entry : Nat × Nat}
    (he : entry ∈ s.registerMap) (ha : a.toNat = entry.1) : (s.busRead a).busOut.toNat = entry.2 := by
  obtain ⟨r, hr, hval⟩ := registerMap_shows s entry he
  rw [busRead_reg s (ha ▸ hr), hidle]
  exact hval

/-- An idle block returns the word at a buffer address, as the host sees its bytes. -/
theorem busRead_idle_buffer {a : BusAddr} {s : State} {b : Buffer} (hidle : s.busy = false) (ha : a.toNat % 4 = 0)
    (hb : bufferAt a.toNat = some b) :
    (s.busRead a).busOut.toNat = s.hostByte a.toNat + 2 ^ 8 * s.hostByte (a.toNat + 1) +
      2 ^ 16 * s.hostByte (a.toNat + 2) + 2 ^ 24 * s.hostByte (a.toNat + 3) := by
  rw [busRead_buffer s ha hb, hidle]
  simp only [Bool.false_eq_true, if_false, State.drive_busOut, Memory.hostWord, toNat_wordOfBytes, toNat_hostByte]

/-- Settles O43: the frame of an aligned read, and its data at a register and in a buffer of an idle block. -/
theorem alignedReadHasNoSideEffect : Obligations.AlignedReadHasNoSideEffect := by
  intro s a rest hs ha
  obtain ⟨hframe, hdraws⟩ := busRead_frame (s := { s with schedule := rest }) ha
  refine ⟨({ s with schedule := rest } : State).busRead a, step_cons hs, hframe, fun hidle => ?_⟩
  exact ⟨hdraws hidle, fun _ he hoff => busRead_idle_register (s := { s with schedule := rest }) hidle he hoff,
    fun b hlo hhi => busRead_idle_buffer (s := { s with schedule := rest }) hidle ha (bufferAt_eq hlo hhi)⟩

end Sys2Proof.Machine
end

section
/-! The writes that are ignored and the writes of a buffer (20_memory.md R67, R69). -/

namespace Sys2Proof.Machine

/-- A write of a read-only register has no effect. -/
theorem writeReg_readOnly {r : Reg} (hctrl : r ∉ [Reg.ctrl, .status, .ien, .cmd]) (hro : r.hostWritable = false)
    (d : Word) (lat : Latency) (s : State) : s.writeReg r d lat = .next s := by
  simp [writeReg_data d lat s hctrl, hro]

/-- A write of a read-only buffer has no effect. -/
theorem writeBuffer_readOnly {b : Buffer} (hro : b.hostWritable = false) (a : Nat) (d : Word) (s : State) :
    s.writeBuffer b a d = s := by
  simp [State.writeBuffer, hro]

/-- Settles O47: a read and a write go by the map, and by the access rights it gives. -/
theorem unmappedAndReadOnlyAreIgnored : Obligations.UnmappedAndReadOnlyAreIgnored := by
  intro s a d lat rest ha
  refine ⟨fun h => ⟨fun hs => ?_, fun hs => ?_⟩, fun hs h => ?_⟩ <;> rw [step_cons hs, State.takeTurn]
  · rw [busRead_unmapped _ ha h]
    rfl
  · exact busWrite_unmapped d lat _ ha h
  · obtain ⟨r, hmem, -, hr⟩ | ⟨b, hmem, hlo, hhi⟩ := h
    · have readOnly : ∀ r ∈ [Reg.id, .errcode, .result, .rate, .lcg, .prevGain, .gainAdj, .cmdcnt, .rdRng, .rdVal,
          .rdTell, .rdNbits, .rdOffs, .rdRem, .rdEndOffs, .rdEndWin, .rdNendBits] ++
          (List.ofFn fun j : Fin 16 => Reg.slpc j),
          r ∉ [Reg.ctrl, .status, .ien, .cmd] ∧ r.hostWritable = false := by decide
      obtain ⟨hctrl, hro⟩ := readOnly r hmem
      rw [busWrite_reg d lat _ hr, writeReg_readOnly hctrl hro]
    · have readOnly : ∀ b ∈ [Buffer.trom, .blk, .lpcout, .pcm], b.hostWritable = false := by decide
      rw [busWrite_buffer d lat _ ha (bufferAt_eq hlo hhi), writeBuffer_readOnly (readOnly b hmem)]

/-- The bytes of a word, lowest first, as numbers (20_memory.md R65). -/
theorem toNat_getD_bytesOfWord (d : Word) {j : Nat} (hj : j < 4) :
    ((bytesOfWord d).getD j 0).toNat = d.toNat / 256 ^ j % 256 := by
  interval_cases j <;> simp [bytesOfWord, Nat.shiftRight_eq_div_pow]

/-- A word stored at an address: its four bytes there, and every other byte as before. -/
theorem read_store_word (m : Memory) (a : Nat) (d : Word) :
    (∀ j < 4, ((m.store a (bytesOfWord d)).read (a + j)).toNat = d.toNat / 256 ^ j % 256) ∧
      ∀ x, Outside a 4 x → (m.store a (bytesOfWord d)).read x = m.read x := by
  have hlen : (bytesOfWord d).length = 4 := rfl
  refine ⟨fun j hj => ?_, fun x hx => ?_⟩
  · rw [Memory.read_store, hlen, if_pos (by omega), Nat.add_sub_cancel_left, toNat_getD_bytesOfWord d hj]
  · unfold Outside at hx
    rw [Memory.read_store, hlen, if_neg (by omega)]

/-- A write of a writable buffer, in the order of the checks of 20_memory.md R67. -/
theorem writeBuffer_writable {b : Buffer} (hw : b.hostWritable = true) (a : Nat) (d : Word) (s : State) :
    s.writeBuffer b a d =
      if s.busy then s.raise .busyWr 0xFF#8
      else if b = .bsbuf ∧ s.status.rdv then s.raise .bsLock 0xFF#8
      else { s with mem := s.mem.store a (bytesOfWord d) } := by
  simp [State.writeBuffer, hw]

/-- Settles O48 by the order of the checks of a buffer write and the bytes of a store. -/
theorem bufferWriteStoresOneWord : Obligations.BufferWriteStoresOneWord := by
  intro s a d lat rest b hs ha hmem hlo hhi
  have writable : ∀ b ∈ [Buffer.bsbuf, .tram, .pulses, .exc, .ltpin, .lpca], b.hostWritable = true := by decide
  have hbusy : ({ s with schedule := rest } : State).busy = s.busy := rfl
  rw [step_cons hs, State.takeTurn, busWrite_buffer d lat _ ha (bufferAt_eq hlo hhi),
    writeBuffer_writable (writable b hmem), hbusy]
  refine ⟨fun hb => ?_, fun hb hbs hv => ?_, fun hb hlock => ?_⟩
  · rw [if_pos hb, raise_eq_recorded]
    rfl
  · rw [if_neg (by simp [hb]), if_pos ⟨hbs, hv⟩, raise_eq_recorded]
    rfl
  · rw [if_neg (by simp [hb]), if_neg hlock]
    exact ⟨_, rfl, rfl, read_store_word s.mem a.toNat d⟩

end Sys2Proof.Machine
end

section
/-! A data register reads back the defined bits written to it (20_memory.md R67, 10_state.md R28, R30, R33, R34). -/

namespace Sys2Proof.Machine

/-- The defined bits of CFG, SEED, a GAIN and a LOGGAIN register (10_state.md R28, R30, R33, R34). -/
def Reg.definedBits : Reg → Word
  | .cfg => 0x00000377#32
  | .seed => 0x00000003#32
  | .gain _ => 0xFFFFFFFF#32
  | .loggain _ => 0x0000003F#32
  | _ => 0#32

/-- A flag's word has that one bit. -/
theorem getLsbD_flagBit (b : Bool) {n i : Nat} (hi : i < 32) : (flagBit b n).getLsbD i = (b && decide (n = i)) := by
  cases b with
  | false => simp [flagBit]
  | true =>
    have hpow : flagBit true n = BitVec.twoPow 32 n := rfl
    have hn : n = i → n < 32 := by omega
    rw [hpow, BitVec.getLsbD_twoPow, Bool.true_and, ← Bool.decide_and, decide_eq_decide]
    exact and_iff_right_of_imp hn

/-- The CFG word of a written word keeps its defined bits. -/
theorem cfgWord_ofWord (d : Word) : (Cfg.ofWord d).word = d &&& 0x00000377#32 := by
  refine BitVec.eq_of_getLsbD_eq fun i hi => ?_
  simp only [Cfg.word, Cfg.ofWord, BitVec.getLsbD_or, BitVec.getLsbD_and, getLsbD_flagBit _ hi]
  interval_cases i <;> simp

/-- The low `n` bits of a word, zero-extended, are the word under the mask of `n` ones. -/
theorem setWidth_extractLsb' (d : Word) {n : Nat} (hn : n < 32) :
    (d.extractLsb' 0 n).setWidth 32 = d &&& BitVec.ofNat 32 (2 ^ n - 1) := by
  have hpow : 2 ^ n < 2 ^ 32 := Nat.pow_lt_pow_right (by decide) hn
  refine BitVec.eq_of_toNat_eq ?_
  rw [BitVec.toNat_setWidth_of_le (by omega), BitVec.extractLsb'_toNat, Nat.shiftRight_zero, BitVec.toNat_and,
    BitVec.toNat_ofNat, Nat.mod_eq_of_lt (show 2 ^ n - 1 < 2 ^ 32 by omega), Nat.and_two_pow_sub_one_eq_mod]

/-- A written data register reads as the defined bits of the word written. -/
theorem readReg_storeReg_same {r : Reg} (hw : r.hostWritable = true) (hlen : r ≠ .len) (d : Word) (s : State) :
    (s.storeReg r d).readReg r = d &&& r.definedBits := by
  cases r with
  | cfg => exact cfgWord_ofWord d
  | seed => exact setWidth_extractLsb' d (n := 2) (by decide)
  | gain k => exact (Vector.getElem_set_self k.isLt).trans (BitVec.and_allOnes (x := d)).symm
  | loggain k => exact (congrArg _ (Vector.getElem_set_self k.isLt)).trans (setWidth_extractLsb' d (n := 6) (by decide))
  | len => contradiction
  | _ => cases hw

/-- Every other register reads as before. -/
theorem readReg_storeReg_ne {r r' : Reg} (h : r' ≠ r) (d : Word) (s : State) :
    (s.storeReg r d).readReg r' = s.readReg r' := by
  cases r with
  | cfg | len | seed => cases r' <;> first | rfl | contradiction
  | gain k =>
    cases r' with
    | gain k' => exact Vector.getElem_set_ne k.isLt k'.isLt fun he => h (congrArg Reg.gain (Fin.ext he.symm))
    | _ => rfl
  | loggain k =>
    cases r' with
    | loggain k' =>
      exact congrArg (BitVec.setWidth 32)
        (Vector.getElem_set_ne k.isLt k'.isLt fun he => h (congrArg Reg.loggain (Fin.ext he.symm)))
    | _ => rfl
  | _ => rfl

/-- A write of a data register but LEN changes CFG, SEED, the GAIN and the LOGGAIN registers alone. -/
theorem storeReg_frame {r : Reg} (hlen : r ≠ .len) (d : Word) (s : State) :
    s.storeReg r d = { s with
      cfg := (s.storeReg r d).cfg
      seed := (s.storeReg r d).seed
      gain := (s.storeReg r d).gain
      loggain := (s.storeReg r d).loggain } := by
  cases r <;> first | rfl | contradiction

@[simp] theorem storeReg_busy (r : Reg) (d : Word) (s : State) : (s.storeReg r d).busy = s.busy := by cases r <;> rfl

@[simp] theorem storeReg_schedule (r : Reg) (d : Word) (s : State) : (s.storeReg r d).schedule = s.schedule := by
  cases r <;> rfl

/-- A write of a data register but LEN, in the order of the checks of 20_memory.md R67. -/
theorem writeReg_writable {r : Reg} (hw : r.hostWritable = true) (hlen : r ≠ .len) (d : Word) (lat : Latency)
    (s : State) :
    s.writeReg r d lat = if s.busy then .next (s.raise .busyWr 0xFF#8) else .next (s.storeReg r d) := by
  have control : ∀ r ∈ [Reg.ctrl, .status, .ien, .cmd], r.hostWritable = false := by decide
  have hctrl : r ∉ [Reg.ctrl, .status, .ien, .cmd] := fun hr => by simp [control r hr] at hw
  simp [writeReg_data d lat s hctrl, hw, hlen]

/-- The addresses of the statement are those of the data registers but LEN, each with its defined bits. -/
theorem dataRegister_of_mem {a : BusAddr} {mask : Word}
    (h : (a, mask) ∈ [(0x001C#16, 0x00000377#32), (0x0024#16, 0x00000003#32), (0x0030#16, 0xFFFFFFFF#32),
      (0x0034#16, 0xFFFFFFFF#32), (0x0038#16, 0xFFFFFFFF#32), (0x003C#16, 0xFFFFFFFF#32), (0x0040#16, 0x0000003F#32),
      (0x0044#16, 0x0000003F#32), (0x0048#16, 0x0000003F#32), (0x004C#16, 0x0000003F#32)]) :
    ∃ r, regAt a.toNat = some r ∧ r.hostWritable = true ∧ r ≠ .len ∧ mask = r.definedBits := by
  simp only [List.mem_cons, Prod.mk.injEq, List.not_mem_nil, or_false] at h
  rcases h with ⟨rfl, rfl⟩ | ⟨rfl, rfl⟩ | ⟨rfl, rfl⟩ | ⟨rfl, rfl⟩ | ⟨rfl, rfl⟩ | ⟨rfl, rfl⟩ | ⟨rfl, rfl⟩ | ⟨rfl, rfl⟩ |
    ⟨rfl, rfl⟩ | ⟨rfl, rfl⟩ <;>
    exact ⟨_, rfl, rfl, by decide, rfl⟩

/-- Settles O49: the write stores the defined fields, and the read after it drives the register. -/
theorem writtenRegisterReadsBackItsDefinedBits : Obligations.WrittenRegisterReadsBackItsDefinedBits := by
  intro s d lat a mask hmem
  obtain ⟨r, hr, hw, hlen, rfl⟩ := dataRegister_of_mem hmem
  have hwrite (turns : List Turn) : ({ s with schedule := turns } : State).busWrite a d lat =
      if s.busy then .next (({ s with schedule := turns } : State).raise .busyWr 0xFF#8)
      else .next (({ s with schedule := turns } : State).storeReg r d) := by
    rw [busWrite_reg d lat _ hr, writeReg_writable hw hlen]
    rfl
  refine ⟨fun rest hs hb => ?_, fun rest hs hb => ?_⟩ <;>
    rw [step_cons hs, State.takeTurn, hwrite, hb]
  · rw [if_pos rfl, raise_eq_recorded]
    rfl
  · generalize ht : ({ s with schedule := .read a :: rest } : State).storeReg r d = t
    have hsched : t.schedule = .read a :: rest := by rw [← ht, storeReg_schedule]
    have hidle : ({ t with schedule := rest } : State).busy = false := by
      rw [← hb]
      exact (congrArg State.busy ht.symm).trans (storeReg_busy _ _ _)
    have hread : step t = .next (({ t with schedule := rest } : State).drive (t.readReg r)) := by
      rw [step_cons hsched, State.takeTurn, busRead_reg _ hr, hidle, readReg_schedule]
      rfl
    refine ⟨t, _, rfl, hread, ?_, fun r' hr' => ?_, ?_⟩
    · rw [← ht]
      exact readReg_storeReg_same hw hlen d _
    · have hne : r' ≠ r := fun he => hr' (he ▸ hr)
      rw [readReg_drive, readReg_schedule, ← ht, readReg_storeReg_ne hne, readReg_schedule]
    · rw [← ht, storeReg_frame hlen]
      rfl

end Sys2Proof.Machine
end

section
/-! Every step keeps the memory in canonical form (SPEC.md entry 19). -/

namespace Sys2Proof.Machine

theorem PlainWrite.memoryInv {s t : State} (hw : PlainWrite s t) (h : MemoryInv s) : MemoryInv t := by
  unfold MemoryInv at h ⊢
  cases hw with
  | status d => rwa [writeStatus_eq]
  | data r d => rwa [storeReg_mem]
  | buffer b a d => exact Memory.wf_store h _ _
  | _ => exact h

/-- The commands change the memory by stores alone. -/
theorem workOf_memoryInv (i : Instr) {s : State} (h : MemoryInv s) : MemoryInv (workOf i s) := by
  cases i with
  | excDecode => exact Memory.wf_storeWords (Memory.wf_storeHalves h _ _) _ _
  | excRecon => exact Memory.wf_storeWords h _ _
  | lpcSynth k => exact Memory.wf_storeWords h _ _
  | gainScale k => exact Memory.wf_storeHalves h _ _
  | synSubfr k => exact Memory.wf_storeHalves (Memory.wf_storeWords h _ _) _ _
  | _ => exact h

theorem raise_memoryInv (e : ErrCode) (op : Byte) {s : State} (h : MemoryInv s) : MemoryInv (s.raise e op) := by
  rwa [MemoryInv, State.raise_mem]

/-- Settles O56: the memory changes by stores and by a reset of the buffers alone, and both keep the form. -/
theorem everyStepKeepsTheMemoryCanonical : Obligations.EveryStepKeepsTheMemoryCanonical := by
  intro s t h hstep
  obtain ⟨rest, heff⟩ := step_effect hstep
  have hu : MemoryInv { s with schedule := rest } := h
  cases heff with
  | plain hw => exact hw.memoryInv hu
  | raised => exact raise_memoryInv _ _ hu
  | misread => exact raise_memoryInv _ _ hu
  | reset => exact Memory.wf_resetBuffers hu
  | completed _ i => exact workOf_memoryInv i hu
  | executed i => exact workOf_memoryInv i (s := State.accept _ _) hu
  | _ => exact hu

end Sys2Proof.Machine
end

section
/-! The command words and their commands (30_encoding.md): a word is its three fields, and decodes to the command they name. -/

namespace Sys2Proof.Machine

/-! ## The fields of a word -/

theorem toNat_opField (w : Word) : (opField w).toNat = w.toNat % 256 := by
  simp [opField]

theorem toNat_aField (w : Word) : (aField w).toNat = w.toNat / 256 % 256 := by
  simp [aField, Nat.shiftRight_eq_div_pow]

theorem toNat_rsvField (w : Word) : (rsvField w).toNat = w.toNat / 65536 := by
  have hlt : w.toNat / 65536 < 65536 := by omega
  simp [rsvField, Nat.shiftRight_eq_div_pow, hlt]

/-- The three fields cover the word (30_encoding.md R90). -/
theorem eq_of_fields_eq {v w : Word} (ho : opField v = opField w) (ha : aField v = aField w)
    (hr : rsvField v = rsvField w) : v = w := by
  have ho' := congrArg BitVec.toNat ho
  have ha' := congrArg BitVec.toNat ha
  have hr' := congrArg BitVec.toNat hr
  rw [toNat_opField, toNat_opField] at ho'
  rw [toNat_aField, toNat_aField] at ha'
  rw [toNat_rsvField, toNat_rsvField] at hr'
  exact BitVec.eq_of_toNat_eq (by omega)

/-! ## Decoding, by the fields of the word -/

/-- The fields of `w` are those of the word of `i`: its opcode, its operand and 0. -/
def HasFieldsOf (w : Word) (i : Instr) : Prop :=
  opField w = i.opcode ∧ (aField w).toNat = i.operand ∧ rsvField w = 0

theorem formatN_eq (w : Word) (i : Instr) :
    formatN w i = if (aField w).toNat = 0 then .ok i else .error .operandOfFormatN :=
  if_congr BitVec.toNat_eq rfl rfl

theorem formatN_eq_ok {w : Word} {i j : Instr} : formatN w i = .ok j ↔ (aField w).toNat = 0 ∧ i = j := by
  by_cases ha : (aField w).toNat = 0 <;> simp [formatN_eq, ha]

theorem formatN_eq_error {w : Word} {i : Instr} : (∃ e, formatN w i = .error e) ↔ (aField w).toNat ≠ 0 := by
  by_cases ha : (aField w).toNat = 0 <;> simp [formatN_eq, ha]

theorem formatA_eq_ok {w : Word} {f : Nat → Instr} {j : Instr} : formatA w f = .ok j ↔ f (aField w).toNat = j := by
  simp [formatA]

theorem formatA_ne_error {w : Word} {f : Nat → Instr} : ¬ ∃ e, formatA w f = .error e := by
  simp [formatA]

theorem decode_of_fields {w : Word} {i : Instr} (h : HasFieldsOf w i) : decode w = .ok i := by
  obtain ⟨ho, ha, hr⟩ := h
  unfold decode
  rw [if_neg (not_not_intro hr), ho]
  cases i with
  | nop | rdInit | rdClose | excSeed | excDecode | excRecon | gainDeq | synReset => exact formatN_eq_ok.mpr ⟨ha, rfl⟩
  | _ => exact formatA_eq_ok.mpr (congrArg _ ha)

theorem fields_of_decode {w : Word} {i : Instr} (h : decode w = .ok i) : HasFieldsOf w i := by
  unfold decode at h
  split_ifs at h with hr
  have hr0 : rsvField w = 0 := not_not.mp hr
  split at h
  case h_15 => cases h -- a reserved opcode
  case h_3 ho | h_4 ho | h_5 ho | h_11 ho | h_12 ho | h_13 ho => -- format `A`
    obtain rfl := formatA_eq_ok.mp h
    exact ⟨BitVec.eq_of_toNat_eq ho, rfl, hr0⟩
  all_goals -- format `N`
    obtain ⟨ha, rfl⟩ := formatN_eq_ok.mp h
    rename_i ho
    exact ⟨BitVec.eq_of_toNat_eq ho, ha, hr0⟩

/-- Settles O1: the word of a command has the fields of that command. -/
theorem encodeThenDecodeGivesTheCommand : Obligations.EncodeThenDecodeGivesTheCommand := fun i hi =>
  decode_of_fields (Laws.fieldsOfEncode_all i hi)

/-- Settles O2: the word and the word of its command have the same fields. -/
theorem decodedWordIsTheWordOfItsCommand : Obligations.DecodedWordIsTheWordOfItsCommand := by
  intro w i h
  obtain ⟨ho, ha, hr⟩ := fields_of_decode h
  have hwf : i.wellFormed = true := decide_eq_true (ha ▸ (aField w).isLt)
  obtain ⟨ho', ha', hr'⟩ := Laws.fieldsOfEncode_all i hwf
  exact ⟨hwf, eq_of_fields_eq (ho'.trans ho.symm) (BitVec.eq_of_toNat_eq (ha'.trans ha.symm)) (hr'.trans hr.symm)⟩

/-- Settles O4: each word is the word of its command. -/
theorem writtenOutWordsDecode : Obligations.WrittenOutWordsDecode :=
  ⟨encodeThenDecodeGivesTheCommand .nop rfl, encodeThenDecodeGivesTheCommand (.rdIcdf 0x40) rfl,
    encodeThenDecodeGivesTheCommand (.rdBits 25) rfl, encodeThenDecodeGivesTheCommand .excDecode rfl,
    encodeThenDecodeGivesTheCommand (.synSubfr 3) rfl⟩

/-! ## Illegal words -/

/-- The three grounds of 30_encoding.md R94 are the three errors of decoding. -/
theorem illegalWord_iff (w : Word) : IllegalWord w ↔ ∃ e, decode w = .error e := by
  unfold IllegalWord decode
  rw [← toNat_opField, ← toNat_aField, ← toNat_rsvField]
  split_ifs with hr
  · have hr' : (rsvField w).toNat ≠ 0 := fun h => hr (BitVec.eq_of_toNat_eq h)
    exact iff_of_true (.inr (.inl hr')) ⟨_, rfl⟩
  · have hr' : rsvField w = 0 := not_not.mp hr
    split
    case h_15 => -- a reserved opcode
      refine iff_of_true (.inl ?_) ⟨_, rfl⟩
      simp_all [formatNOpcodes, formatAOpcodes]
    case h_3 ho | h_4 ho | h_5 ho | h_11 ho | h_12 ho | h_13 ho => -- format `A`
      refine iff_of_false ?_ formatA_ne_error
      simp [ho, hr', formatNOpcodes, formatAOpcodes]
    all_goals -- format `N`
      rename_i ho
      rw [formatN_eq_error]
      simp [ho, hr', formatNOpcodes, formatAOpcodes]

/-- Settles O3: the illegal words are the decoding errors, and a write of CMD raises ILLCMD on a decoding error. -/
theorem illegalWordIsRejectedWithIllcmd : Obligations.IllegalWordIsRejectedWithIllcmd := by
  intro w
  refine ⟨illegalWord_iff w, ⟨fun h => ?_, ?_⟩, fun s lat rest hs hb hw => ?_⟩
  · exact (decodedWordIsTheWordOfItsCommand w .nop h).2.symm
  · rintro rfl
    exact encodeThenDecodeGivesTheCommand .nop rfl
  · obtain ⟨e, he⟩ := (illegalWord_iff w).mp hw
    have hidle : ({ s with schedule := rest } : State).busy = false := hb
    rw [step_cons hs, State.takeTurn, busWrite_cmd, writeCmd_illegal he, hidle, raise_eq_recorded]
    rfl

end Sys2Proof.Machine
end

section
/-! The issue, the acceptance and the completion of a command (40_control.md R110 to R113). -/

namespace Sys2Proof.Machine

/-! ## A write of CMD -/

/-- The step of a write of CMD. -/
theorem step_writeCmd {s : State} {w : Word} {lat : Latency} {rest : List Turn}
    (hs : s.schedule = .write cmdAddr w lat :: rest) :
    step s = ({ s with schedule := rest } : State).writeCmd w lat := by
  rw [step_cons hs, State.takeTurn, busWrite_cmd]

/-- Settles O5: the decoded command is executed or issued, by the latency of the write. -/
theorem stepRunsTheDecodedCommand : Obligations.StepRunsTheDecodedCommand := by
  intro s w i rest hd
  refine ⟨fun hs => ?_, fun hs => ?_⟩ <;> rw [step_writeCmd hs]
  · exact writeCmd_zero hd
  · exact writeCmd_later hd

/-- The opcode field of a word that decodes. -/
theorem opField_of_decode {w : Word} {i : Instr} (h : decode w = .ok i) : opField w = i.opcode := by
  obtain ⟨hop, -, -⟩ := fields_of_decode h
  exact hop

/-- The word of a decoded command is the word it was decoded from. -/
theorem encode_of_decode {w : Word} {i : Instr} (h : decode w = .ok i) : encode i = w := by
  obtain ⟨-, he⟩ := decodedWordIsTheWordOfItsCommand w i h
  exact he

/-- The issue of an accepted command is its acceptance. -/
theorem issue_of_accepts {i : Instr} {s : State} (h : Accepts i s) :
    s.issue i (checkOf i s) = s.accept (encode i) := by
  obtain ⟨hb, hc⟩ := h
  simp [State.issue, hb, hc]

/-- Settles O7: the issue of an accepted command is its acceptance, and its word is the word written. -/
theorem acceptanceSetsPendingAndBusy : Obligations.AcceptanceSetsPendingAndBusy := by
  intro s w i rest hs hd ha
  have hu : Accepts i { s with schedule := rest } := (accepts_schedule i s rest).mpr ha
  refine ⟨({ s with schedule := rest } : State).accept w, ?_, rfl, rfl⟩
  rw [step_writeCmd hs, writeCmd_later hd, issue_of_accepts hu, encode_of_decode hd]

/-! ## Rejection -/

/-- The error of a command write that is not accepted: CMDBUSY first, then ILLCMD, then the command's own first failing
check (60_exceptions.md R233). -/
inductive RejectedWith (w : Word) (s : State) : ErrCode → Prop where
  | busy : s.busy = true → RejectedWith w s .cmdBusy
  | illegal (x : DecodeError) : s.busy = false → decode w = .error x → RejectedWith w s .illCmd
  | check (i : Instr) (e : ErrCode) : s.busy = false → decode w = .ok i → checkOf i s = some e → RejectedWith w s e

/-- An illegal word is rejected. -/
theorem writeCmd_illegal_rejected {w : Word} {x : DecodeError} (hd : decode w = .error x) (lat : Latency) (s : State) :
    ∃ e, s.writeCmd w lat = .next (s.raise e (opField w)) ∧ RejectedWith w s e := by
  rw [writeCmd_illegal hd]
  cases hb : s.busy
  · exact ⟨_, rfl, .illegal x hb hd⟩
  · exact ⟨_, rfl, .busy hb⟩

/-- A command that is not accepted is rejected, with either latency. -/
theorem writeCmd_command_rejected {w : Word} {i : Instr} (hd : decode w = .ok i) (lat : Latency) {s : State}
    (hna : ¬ Accepts i s) : ∃ e, s.writeCmd w lat = .next (s.raise e (opField w)) ∧ RejectedWith w s e := by
  have rejectedWith {e : ErrCode} (h : s.busy = true ∧ e = .cmdBusy ∨ s.busy = false ∧ checkOf i s = some e) :
      RejectedWith w s e := by
    rcases h with ⟨hb, rfl⟩ | ⟨hb, hc⟩
    · exact .busy hb
    · exact .check i e hb hd hc
  rw [opField_of_decode hd]
  cases lat with
  | zero =>
    obtain ⟨e, he, hr⟩ := (exec_cases i s).resolve_right fun h => hna h.1
    exact ⟨e, (writeCmd_zero hd).trans he, rejectedWith hr⟩
  | later =>
    obtain ⟨e, he, hr⟩ := (issue_cases i s).resolve_right fun h => hna h.1
    exact ⟨e, (writeCmd_later hd).trans (congrArg _ he), rejectedWith hr⟩

/-- A write of CMD that accepts no command is rejected. -/
theorem writeCmd_rejected {w : Word} {s : State} (hna : ¬ (s.busy = false ∧ ∃ i, decode w = .ok i ∧ checkOf i s = none))
    (lat : Latency) : ∃ e, s.writeCmd w lat = .next (s.raise e (opField w)) ∧ RejectedWith w s e := by
  cases hd : decode w with
  | error x => exact writeCmd_illegal_rejected hd lat s
  | ok i => exact writeCmd_command_rejected hd lat fun ⟨hb, hc⟩ => hna ⟨hb, i, hd, hc⟩

theorem busy_schedule (s : State) (turns : List Turn) : ({ s with schedule := turns } : State).busy = s.busy := rfl

theorem checkOf_schedule (i : Instr) (s : State) (turns : List Turn) :
    checkOf i { s with schedule := turns } = checkOf i s := by cases i <;> rfl

/-- Settles O6: the three grounds of a rejection exclude each other. -/
theorem rejectedCommandChangesOnlyTheErrorRecord : Obligations.RejectedCommandChangesOnlyTheErrorRecord := by
  intro s w lat rest hs hna
  have hna' : ¬ (({ s with schedule := rest } : State).busy = false ∧
      ∃ i, decode w = .ok i ∧ checkOf i { s with schedule := rest } = none) := by
    simpa only [busy_schedule, checkOf_schedule] using hna
  obtain ⟨e, he, hr⟩ := writeCmd_rejected hna' lat
  refine ⟨e, ?_, ?_⟩
  · rw [step_writeCmd hs, he, raise_eq_recorded]
    rfl
  · rw [illegalWord_iff]
    cases hr with
    | busy hb => simp [show s.busy = true from hb]
    | illegal x hb hd => simp [show s.busy = false from hb, hd]
    | check i e hb hd hc => simp [show s.busy = false from hb, hd, ← hc, checkOf_schedule]

/-! ## Completion -/

@[simp] theorem workOf_cmd (i : Instr) (s : State) : (workOf i s).cmd = s.cmd := by cases i <;> rfl
@[simp] theorem workOf_schedule (i : Instr) (s : State) : (workOf i s).schedule = s.schedule := by cases i <;> rfl

/-- The engine's turn completes a pending command that passes its checks. -/
theorem engineTurn_of_pending {s : State} {w : Word} {i : Instr} (hp : s.pending = some w) (hd : decode w = .ok i)
    (hc : checkOf i s = none) : s.engineTurn = effectOf i s := by
  simp [State.engineTurn, hp, hd, hc]

/-- The engine takes its turn when it is next, and when no turn is left. -/
theorem step_engine {s : State} {rest : List Turn} (h : s.schedule = .engine :: rest ∨ s.schedule = [] ∧ rest = []) :
    step s = ({ s with schedule := rest } : State).engineTurn := by
  obtain hs | ⟨hs, rfl⟩ := h
  · exact step_cons hs
  · rw [step_nil hs, ← hs]

/-- Settles O8: on a well-formed TROM the effect answers a next state, with the bookkeeping of a completion. -/
theorem pendingCommandCompletes : Obligations.PendingCommandCompletes := by
  intro s w i rest hs hp hd hc htrom
  have hc' : checkOf i { s with schedule := rest } = none := (checkOf_schedule i s rest).trans hc
  rw [step_engine hs, engineTurn_of_pending (s := { s with schedule := rest }) hp hd hc']
  obtain ⟨t, ht⟩ | ⟨hmal, -⟩ := effectOf_cases i { s with schedule := rest }
  · obtain ⟨hcnt, hbusy, hdone⟩ := effectOf_bookkeeping ht
    refine ⟨t, ht, ?_, hbusy, hdone, ?_⟩
    · rw [hcnt, BitVec.toNat_add]
      rfl
    · rw [effectOf_eq_next ht]
      simp
  · exact absurd htrom (by simp [hmal])

/-- Settles O9: the word that the acceptance leaves pending decodes to the command, whose checks it does not touch. -/
theorem latencyDoesNotChangeTheResult : Obligations.LatencyDoesNotChangeTheResult := by
  intro i s hwf ha
  have hc : checkOf i (s.accept (encode i)) = none := (checkOf_accept s i _).trans ha.2
  rw [issue_of_accepts ha, exec_of_accepts ha]
  exact engineTurn_of_pending (State.accept_pending s _) (encodeThenDecodeGivesTheCommand i hwf) hc

/-! ## NOP -/

/-- Opcode 0 is that of NOP alone. -/
theorem eq_nop_of_opcode {i : Instr} (h : i.opcode.toNat = 0) : i = .nop := by
  cases i <;> first | rfl | exact absurd h (by simp [Instr.opcode])

/-- The word 0 is the one word with opcode 0 that decodes. -/
theorem decode_error_of_opcode_zero {w : Word} (hop : w.toNat % 256 = 0) (hne : w ≠ 0) : ∃ x, decode w = .error x := by
  cases hd : decode w with
  | error x => exact ⟨x, rfl⟩
  | ok i =>
    have hi : i = .nop := eq_nop_of_opcode (by rw [← opField_of_decode hd, toNat_opField, hop])
    exact absurd (encode_of_decode (hi ▸ hd)).symm hne

/-- Settles O16: an idle block accepts NOP, whose effect is the bookkeeping. -/
theorem nopOnlyCounts : Obligations.NopOnlyCounts := by
  refine ⟨rfl, fun w s hop hne hb lat => ?_, fun s hb => ?_⟩
  · obtain ⟨x, hx⟩ := decode_error_of_opcode_zero hop hne
    rw [writeCmd_illegal hx, hb, raise_eq_recorded]
    rfl
  · rw [exec_of_accepts ⟨hb, rfl⟩]
    rfl

end Sys2Proof.Machine
end

section
/-! What every command leaves unchanged (40_control.md R114). -/

namespace Sys2Proof.Machine

/-- The state with an accepted and completed command: its work and the bookkeeping (40_control.md R111, R112). -/
def State.worked (i : Instr) (s : State) : State :=
  { workOf i s with
    cmd := encode i
    cmdcnt := s.cmdcnt + 1
    status := { (workOf i s).status with done := true } }

/-- The work of a command does not depend on the acceptance, and the pending word of an idle block is none. -/
theorem finish_workOf_accept {i : Instr} {s : State} (hb : s.busy = false) :
    (workOf i (s.accept (encode i))).finish = s.worked i := by
  have hp : s.pending = none := by simpa [State.busy] using hb
  have hwork : (workOf i (s.accept (encode i))).finish = { s.worked i with pending := none } := by cases i <;> rfl
  have hkept : (s.worked i).pending = s.pending := by cases i <;> rfl
  rw [hwork, ← hp, ← hkept]

/-- A command that answers a next state was rejected, or accepted and completed. -/
theorem exec_next_cases {i : Instr} {s t : State} (h : exec i s = .next t) :
    (¬ Accepts i s ∧ ∃ code, t = s.recorded code i.opcode) ∨ (Accepts i s ∧ t = s.worked i) := by
  rcases exec_cases i s with ⟨e, he, hr⟩ | ⟨ha, he⟩ <;> rw [he] at h
  · refine .inl ⟨fun ⟨hb, hc⟩ => ?_, e.code, ?_⟩
    · simp [hb, hc] at hr
    · rw [← raise_eq_recorded]
      exact (Host.Outcome.next.inj h).symm
  · exact .inr ⟨ha, (effectOf_eq_next h).trans (finish_workOf_accept ha.1)⟩

/-! ## The control and range decoder commands -/

/-- RD_INIT replaces the range decoder and sets RDV, whatever the decoder it starts (41_range_decoder.md R132). -/
theorem worked_rdInit (s : State) : ∃ c : Coder, s.worked .rdInit = { s with
    cmd := encode .rdInit
    cmdcnt := s.cmdcnt + 1
    rd := c.rd
    status := { s.status with done := true, exh := c.exh, rdv := true } } := by
  unfold State.worked workOf
  generalize Coder.start s.bitstream = c
  exact ⟨c, rfl⟩

/-- Settles O39: a rejection changes the error record alone, and each command's work its own registers. -/
theorem frameOfTheRangeCommands : Obligations.FrameOfTheRangeCommands := by
  intro s t i x hi h
  simp only [List.mem_cons, List.not_mem_nil, or_false] at hi
  rcases exec_next_cases h with ⟨hna, code, rfl⟩ | ⟨-, rfl⟩
  · exact ⟨by simp [State.recorded], fun _ => rfl, fun ha => absurd ha hna⟩
  · rcases hi with rfl | rfl | rfl | rfl | rfl | rfl
    on_goal 2 => -- RD_INIT: stated for any decoder, so that `rfl` does not compute the started one
      obtain ⟨c, hc⟩ := worked_rdInit s
      rw [hc]
      exact ⟨rfl, fun _ => rfl, fun _ => ⟨rfl, rfl⟩⟩
    all_goals exact ⟨rfl, fun _ => rfl, fun _ => ⟨rfl, rfl⟩⟩

/-! ## The excitation commands -/

/-- What holds of every result of a stage holds of the list of them. -/
theorem mapCoder_forall {α β : Type} {P : α → Prop} {Q : β → Prop} {f : α → Coder → β × Coder}
    (hf : ∀ a c, P a → Q (f a c).1) {as : List α} (has : ∀ a ∈ as, P a) (c : Coder) :
    ∀ b ∈ (mapCoder f as c).1, Q b := by
  induction as generalizing c with
  | nil => simp [mapCoder]
  | cons a as ih =>
    obtain ⟨ha, has'⟩ := List.forall_mem_cons.mp has
    exact List.forall_mem_cons.mpr ⟨hf a c ha, ih has' _⟩

@[simp] theorem length_mapCoder {α β : Type} (f : α → Coder → β × Coder) (as : List α) (c : Coder) :
    (mapCoder f as c).1.length = as.length := by
  induction as generalizing c with
  | nil => rfl
  | cons a as ih => exact congrArg (· + 1) (ih _)

/-- A partition has `2 ^ n` magnitudes (42_excitation.md R165). -/
theorem length_shell (buf : List Byte) (m : Memory) (n p : Nat) (c : Coder) : (shell buf m n p c).1.length = 2 ^ n := by
  induction n generalizing p c with
  | zero => rfl
  | succ n ih =>
    rw [shell, List.length_append, ih, ih]
    omega

/-- Every shell block has 16 samples (00_scope.md R10, 42_excitation.md R165 to R167). -/
theorem length_decodeFrame_samples (buf : List Byte) (m : Memory) (cfg : Cfg) (c : Coder) :
    (decodeFrame buf m cfg c).samples.length = 16 * cfg.numBlocks := by
  unfold decodeFrame
  extract_lets rate blocks shells mags signed
  have hblocks : blocks.1.length = cfg.numBlocks := by simp [blocks]
  have hshells : ∀ l ∈ shells.1, l.length = 16 :=
    mapCoder_forall (P := fun _ => True) (fun b c _ => length_shell buf m 4 b.sum c) (fun _ _ => trivial) _
  have hmags : ∀ l ∈ mags.1, l.length = 16 :=
    mapCoder_forall (P := fun x => x.2.length = 16) (fun x c hx => (length_mapCoder _ _ c).trans hx)
      (fun x hx => hshells _ (List.of_mem_zip hx).2) _
  have hsigned : ∀ l ∈ signed.1, l.length = 16 :=
    mapCoder_forall (P := fun x => x.2.length = 16) (fun x c hx => (length_mapCoder _ _ c).trans hx)
      (fun x hx => hmags _ (List.of_mem_zip hx).2) _
  have hcount : signed.1.length = cfg.numBlocks := by simp [signed, mags, shells, hblocks]
  have hsum : (signed.1.map List.length).sum = (signed.1.map List.length).length * 16 :=
    List.sum_eq_card_nsmul _ _ (by simpa using hsigned)
  rw [List.length_flatten, hsum, List.length_map, hcount, Nat.mul_comm]

theorem subfrLen_le (cfg : Cfg) : cfg.subfrLen ≤ 80 := by
  unfold Cfg.subfrLen
  split_ifs <;> decide

theorem frameLen_le (cfg : Cfg) : cfg.frameLen ≤ 320 := by
  have hnum : cfg.numSubfr ≤ 4 := by
    unfold Cfg.numSubfr
    split <;> decide
  exact Nat.mul_le_mul hnum (subfrLen_le cfg)

theorem numBlocks_le (cfg : Cfg) : cfg.numBlocks ≤ 20 := by
  have hlen := frameLen_le cfg
  unfold Cfg.numBlocks
  omega

/-- A list no longer than a buffer fills it. -/
theorem length_padZero {n : Nat} {vs : List Int} (h : vs.length ≤ n) : (padZero n vs).length = n := by
  rw [padZero, List.length_append, List.length_replicate]
  omega

@[simp] theorem length_reconLoop (off adj : Int) (ps : List Int) (s : Word) :
    (reconLoop off adj ps s).1.length = ps.length := by
  induction ps generalizing s with
  | nil => rfl
  | cons p ps ih => exact congrArg (· + 1) (ih _)

/-- EXC_DECODE writes PULSES and BLK alone. -/
theorem excDecode_read_outside (s : State) {a : Nat} (hpulses : Outside 0x3000 640 a) (hblk : Outside 0x3400 80 a) :
    (excDecode s).mem.read a = s.mem.read a := by
  have hsamples := numBlocks_le s.cfg
  unfold excDecode
  extract_lets d mem mem'
  have hlen : (padZero 320 d.samples).length = 320 :=
    length_padZero (by rw [length_decodeFrame_samples]; omega)
  have hlen' : (padZero 20 (d.blocks.map fun b => (b.word : Int))).length = 20 :=
    length_padZero (by simpa [d, decodeFrame] using hsamples)
  have hmem' : mem'.read a = mem.read a := Memory.read_storeWords_outside _ (by rw [hlen']; exact hblk)
  have hmem : mem.read a = s.mem.read a := Memory.read_storeHalves_outside _ (by rw [hlen]; exact hpulses)
  exact hmem'.trans hmem

/-- EXC_RECON writes EXC alone. -/
theorem excRecon_read_outside (s : State) {a : Nat} (hexc : Outside 0x4000 1280 a) :
    (excRecon s).mem.read a = s.mem.read a := by
  unfold excRecon
  extract_lets r
  have hlen : (padZero 320 r.1).length = 320 := length_padZero (by simpa [r] using frameLen_le s.cfg)
  exact Memory.read_storeWords_outside _ (by rw [hlen]; exact hexc)

/-- Settles O40: a rejection changes the error record alone, and each command's work its own registers and buffers. -/
theorem frameOfTheExcitationCommands : Obligations.FrameOfTheExcitationCommands := by
  intro s t i hi h
  simp only [List.mem_cons, List.not_mem_nil, or_false] at hi
  rcases exec_next_cases h with ⟨hna, code, rfl⟩ | ⟨-, rfl⟩
  · exact ⟨by simp [State.recorded], fun _ _ _ => rfl, fun ha => absurd ha hna⟩
  · rcases hi with rfl | rfl | rfl
    · exact ⟨rfl, fun _ _ _ => rfl, fun _ => ⟨rfl, rfl⟩⟩
    · refine ⟨rfl, fun a hout _ => ?_, fun _ => ⟨rfl, rfl⟩⟩
      obtain ⟨hpulses, hblk⟩ := hout rfl
      exact excDecode_read_outside s hpulses hblk
    · exact ⟨rfl, fun a _ hout => excRecon_read_outside s (hout rfl), fun _ => ⟨rfl, rfl⟩⟩

/-! ## The synthesis commands -/

/-- The filter writes LPCOUT alone. -/
theorem lpcSynth_read_outside (k : Nat) (s : State) {a : Nat} (hlpcout : Outside 0x5800 320 a) :
    (lpcSynth k s).mem.read a = s.mem.read a := by
  unfold lpcSynth
  extract_lets s1 hist
  have hlen : (padZero 80 (hist.take s1.cfg.subfrLen).reverse).length = 80 := by
    refine length_padZero ?_
    have hsub := subfrLen_le s1.cfg
    rw [List.length_reverse, List.length_take]
    omega
  exact Memory.read_storeWords_outside _ (by rw [hlen]; exact hlpcout)

/-- The gain scaler writes its subframe of PCM alone. -/
theorem gainScale_read_outside (k : Nat) (s : State) {a : Nat}
    (hpcm : Outside (pcmBase k s.cfg) (2 * s.cfg.subfrLen) a) :
    (gainScale k s).mem.read a = s.mem.read a :=
  Memory.read_storeHalves_outside _ (by simpa using hpcm)

/-- Settles O41: a rejection changes the error record alone, and each command's work its own registers and buffers. -/
theorem frameOfTheSynthesisCommands : Obligations.FrameOfTheSynthesisCommands := by
  intro s t i k hi h
  simp only [List.mem_cons, List.not_mem_nil, or_false] at hi
  rcases exec_next_cases h with ⟨hna, code, rfl⟩ | ⟨-, rfl⟩
  · exact ⟨by simp [State.recorded], fun _ _ _ => rfl, fun ha => absurd ha hna⟩
  · rcases hi with rfl | rfl | rfl | rfl | rfl
    · exact ⟨rfl, fun _ _ _ => rfl, fun _ => ⟨rfl, rfl⟩⟩
    · exact ⟨rfl, fun a hlpc _ => lpcSynth_read_outside k s (hlpc (.inl rfl)), fun _ => ⟨rfl, rfl⟩⟩
    · refine ⟨?_, fun a _ hpcm => gainScale_read_outside k s (hpcm (.inl rfl)), fun _ => ⟨rfl, rfl⟩⟩
      simp only [reduceCtorEq, false_or, if_false, if_true]
      rfl
    · refine ⟨rfl, fun a hlpc hpcm => ?_, fun _ => ⟨rfl, rfl⟩⟩
      have hscale := gainScale_read_outside k (lpcSynth k s) (hpcm (.inr rfl))
      exact hscale.trans (lpcSynth_read_outside k s (hlpc (.inr rfl)))
    · exact ⟨rfl, fun _ _ _ => rfl, fun _ => ⟨rfl, rfl⟩⟩

end Sys2Proof.Machine
end

section
/-! What an acceptance checked stays true until the completion (40_control.md R110 to R112, 70_reset_and_hazards.md
R275). -/

namespace Sys2Proof.Machine

/-- The checks of a command look at RDV, CFG, the gains and the memory alone. -/
theorem checkOf_congr {s t : State} (hrdv : t.status.rdv = s.status.rdv) (hcfg : t.cfg = s.cfg)
    (hgain : t.gain = s.gain) (hmem : t.mem = s.mem) (i : Instr) : checkOf i t = checkOf i s := by
  have hinit : checkInit t = checkInit s := by simp only [checkInit, hrdv]
  have hframe : checkFrameCfg t = checkFrameCfg s := by simp only [checkFrameCfg, hcfg]
  have hsub (k : Nat) : checkSubframe k t = checkSubframe k s := by
    simp only [checkSubframe, checkBandwidth, State.gainOf, hcfg, hgain]
  cases i with
  | rdIcdf off =>
    have htable : checkTable off t = checkTable off s := by simp only [checkTable, State.hostTable, hmem]
    exact congrArg₂ Option.or hinit htable
  | rdBits n => exact congrArg (Option.or · _) hinit
  | rdBitlogp logp => exact congrArg (Option.or · _) hinit
  | excSeed => exact hinit
  | excDecode => exact congrArg₂ Option.or hinit hframe
  | excRecon => exact hframe
  | lpcSynth k | gainScale k | synSubfr k => exact hsub k
  | _ => rfl

/-- An idle block has nothing pending. -/
theorem pendingInv_of_pending_none {s : State} (h : s.pending = none) : PendingInv s := fun _ hw =>
  nomatch h.symm.trans hw

/-- While a command is pending, what changes neither it, DONE nor an input of its checks keeps it acceptable. -/
theorem PendingInv.congr {s t : State} (h : PendingInv s) (hcmd : t.cmd = s.cmd) (hpending : t.pending = s.pending)
    (hdone : s.status.done = false → t.status.done = false)
    (hcheck : ∀ i, checkOf i t = checkOf i s) : PendingInv t := by
  intro w hw
  obtain ⟨hc, hd, i, hi, hn⟩ := h w (hpending ▸ hw)
  exact ⟨hcmd.trans hc, hdone hd, i, hi, (hcheck i).trans hn⟩

theorem raise_pendingInv (e : ErrCode) (op : Byte) {s : State} (h : PendingInv s) : PendingInv (s.raise e op) := by
  rw [raise_eq_recorded]
  exact h.congr rfl rfl id (checkOf_congr rfl rfl rfl rfl)

/-- The host changes no input of a check while a command runs (70_reset_and_hazards.md R275). -/
theorem PlainWrite.pendingInv {s t : State} (hw : PlainWrite s t) (h : PendingInv s) : PendingInv t := by
  cases hw with
  | ignored => exact h
  | status d =>
    rw [writeStatus_eq]
    refine h.congr rfl rfl (fun hd => ?_) (checkOf_congr rfl rfl rfl rfl)
    simp [hd]
  | ien e => exact h.congr rfl rfl id (checkOf_congr rfl rfl rfl rfl)
  | data r d _ hb =>
    have hidle : (s.storeReg r d).busy = false := (storeReg_busy r d s).trans hb
    exact pendingInv_of_pending_none (by simpa [State.busy] using hidle)
  | buffer b a d _ hb =>
    exact pendingInv_of_pending_none (by simpa [State.busy] using hb)

/-- An accepted command is pending with its checks passed. -/
theorem accept_pendingInv {i : Instr} {s : State} {w : Word} (hd : decode w = .ok i) (ha : Accepts i s) :
    PendingInv (s.accept w) := by
  intro v hv
  obtain rfl : w = v := Option.some.inj hv
  exact ⟨rfl, rfl, i, hd, (checkOf_accept s i w).trans ha.2⟩

theorem effectOf_pendingInv {i : Instr} {s t : State} (h : effectOf i s = .next t) : PendingInv t := by
  rw [effectOf_eq_next h]
  exact pendingInv_of_pending_none rfl

theorem exec_pendingInv {i : Instr} {s t : State} (h : PendingInv s) (ht : exec i s = .next t) : PendingInv t := by
  rcases exec_cases i s with ⟨e, he, -⟩ | ⟨-, he⟩ <;> rw [he] at ht
  · cases ht
    exact raise_pendingInv e _ h
  · exact effectOf_pendingInv ht

theorem writeCmd_pendingInv {w : Word} {lat : Latency} {s t : State} (h : PendingInv s)
    (ht : s.writeCmd w lat = .next t) : PendingInv t := by
  rcases writeCmd_cases w lat s with ⟨e, he⟩ | ⟨i, -, -, he⟩ | ⟨i, hd, -, he⟩ <;> rw [he] at ht
  · cases ht
    exact raise_pendingInv e _ h
  · exact exec_pendingInv h ht
  · cases ht
    rcases issue_cases i s with ⟨e, he, -⟩ | ⟨ha, he⟩ <;> rw [he]
    · exact raise_pendingInv e _ h
    · rw [encode_of_decode hd]
      exact accept_pendingInv hd ha

theorem busRead_pendingInv (a : BusAddr) {s : State} (h : PendingInv s) : PendingInv (s.busRead a) := by
  rcases busRead_cases a s with ⟨-, he⟩ | ⟨-, w, he⟩ | ⟨-, -, he⟩ <;> rw [he]
  · exact (raise_pendingInv _ _ h).congr rfl rfl id (checkOf_congr rfl rfl rfl rfl)
  · exact h.congr rfl rfl id (checkOf_congr rfl rfl rfl rfl)
  · exact h.congr rfl rfl id (checkOf_congr rfl rfl rfl rfl)

theorem engineTurn_pendingInv {s t : State} (h : PendingInv s) (ht : s.engineTurn = .next t) : PendingInv t := by
  rcases engineTurn_cases s with ⟨-, he⟩ | ⟨w, i, -, -, -, he⟩ | he <;> rw [he] at ht
  · cases ht
    exact h
  · exact effectOf_pendingInv ht
  · cases ht

/-- Every turn of an agent keeps the pending command acceptable. -/
theorem takeTurn_pendingInv {turn : Turn} {s t : State} (h : PendingInv s) (ht : s.takeTurn turn = .next t) :
    PendingInv t := by
  cases turn with
  | read a =>
    cases ht
    exact busRead_pendingInv a h
  | write a d lat =>
    rcases busWrite_cases a d lat s with ⟨e, he⟩ | he | ⟨-, he⟩ | ⟨v, he, hv⟩ <;> rw [State.takeTurn, he] at ht
    · cases ht
      exact raise_pendingInv e _ h
    · cases ht
      exact pendingInv_of_pending_none rfl
    · exact writeCmd_pendingInv h ht
    · cases ht
      exact hv.pendingInv h
  | reset =>
    cases ht
    exact pendingInv_of_pending_none rfl
  | engine => exact engineTurn_pendingInv h ht

theorem pendingInv_schedule {s : State} (h : PendingInv s) (turns : List Turn) :
    PendingInv { s with schedule := turns } :=
  h.congr rfl rfl id fun i => checkOf_schedule i s turns

/-- Settles O58: every turn keeps it, and a step is a turn. -/
theorem everyStepKeepsThePendingCommandAcceptable : Obligations.EveryStepKeepsThePendingCommandAcceptable := by
  intro s t h hstep
  cases hs : s.schedule with
  | nil => exact engineTurn_pendingInv h ((step_nil hs).symm.trans hstep)
  | cons turn rest => exact takeTurn_pendingInv (pendingInv_schedule h rest) ((step_cons hs).symm.trans hstep)

end Sys2Proof.Machine
end

section
/-! The result registers change only in the step that completes a command which writes them (40_control.md R114). -/

namespace Sys2Proof.Machine

/-- The result registers of 40_control.md R114 and the range decoder. -/
structure ResultRegs where
  result : Word
  rate : BitVec 4
  lcg : Word
  slpc : Vector Word 16
  prevGain : Word
  gainAdj : Word
  rd : RangeState

/-- The result registers of a state. -/
def State.results (s : State) : ResultRegs where
  result := s.result
  rate := s.rate
  lcg := s.lcg
  slpc := s.slpc
  prevGain := s.prevGain
  gainAdj := s.gainAdj
  rd := s.rd

/-- From `r` to `r'` the registers change at most as a command with the opcode `op` may change them (40_control.md
R114). -/
structure ResultsChangeBy (op : Nat) (r r' : ResultRegs) : Prop where
  result : r'.result ≠ r.result → op ∈ [0x02, 0x03, 0x04, 0x10]
  rate : r'.rate ≠ r.rate → op = 0x11
  lcg : r'.lcg ≠ r.lcg → op = 0x12
  synthesis : r'.slpc ≠ r.slpc ∨ r'.prevGain ≠ r.prevGain ∨ r'.gainAdj ≠ r.gainAdj → op ∈ [0x21, 0x23, 0x24]
  rd : r'.rd ≠ r.rd → op ∈ [0x01, 0x02, 0x03, 0x04, 0x10, 0x11]

/-- Three registers that are those of before give no occasion. -/
theorem absurd_of_eq₃ {α β γ : Type} {a a' : α} {b b' : β} {c c' : γ} {P : Prop} (ha : a = a') (hb : b = b')
    (hc : c = c') : a ≠ a' ∨ b ≠ b' ∨ c ≠ c' → P := by
  rintro (h | h | h) <;> contradiction

/-- Registers that do not change change at most as any command changes them. -/
theorem ResultsChangeBy.refl (op : Nat) (r : ResultRegs) : ResultsChangeBy op r r :=
  ⟨absurd rfl, absurd rfl, absurd rfl, absurd_of_eq₃ rfl rfl rfl, absurd rfl⟩

/-- The commands that read the bitstream and answer in RESULT: whatever they decode, they change RESULT and the range
decoder. -/
theorem setCoder_results {op : Nat} (hop : op ∈ [0x02, 0x03, 0x04, 0x10]) (c : Coder) (x : Word) (s : State) :
    ResultsChangeBy op s.results ({ s.setCoder c with result := x } : State).results := by
  have hrd : ∀ op ∈ [0x02, 0x03, 0x04, 0x10], op ∈ [0x01, 0x02, 0x03, 0x04, 0x10, 0x11] := by decide
  exact ⟨fun _ => hop, absurd rfl, absurd rfl, absurd_of_eq₃ rfl rfl rfl, fun _ => hrd op hop⟩

/-- Each command's work changes the result registers that R114 gives it. -/
theorem workOf_results (i : Instr) (s : State) : ResultsChangeBy i.opcode.toNat s.results (workOf i s).results := by
  cases i with
  | nop | rdClose | gainDeq | gainScale => exact .refl _ _
  | rdInit =>
    unfold workOf
    generalize Coder.start s.bitstream = c
    exact ⟨absurd rfl, absurd rfl, absurd rfl, absurd_of_eq₃ rfl rfl rfl, fun _ => by simp [Instr.opcode]⟩
  | rdIcdf off => exact setCoder_results (by simp [Instr.opcode]) _ _ s
  | rdBits n => exact setCoder_results (by simp [Instr.opcode]) _ _ s
  | rdBitlogp logp => exact setCoder_results (by simp [Instr.opcode]) _ _ s
  | excSeed => exact setCoder_results (by decide) (s.coder.icdf s.bitstream (seedIcdf s.mem)).2 _ s
  | excDecode =>
    exact ⟨absurd rfl, fun _ => rfl, absurd rfl, absurd_of_eq₃ rfl rfl rfl, fun _ => by simp [Instr.opcode]⟩
  | excRecon => exact ⟨absurd rfl, absurd rfl, fun _ => rfl, absurd_of_eq₃ rfl rfl rfl, absurd rfl⟩
  | lpcSynth | synSubfr | synReset =>
    exact ⟨absurd rfl, absurd rfl, absurd rfl, fun _ => by simp [Instr.opcode], absurd rfl⟩

/-- The low byte of a command's word is its opcode (30_encoding.md R90). -/
theorem toNat_encode_mod (i : Instr) : (encode i).toNat % 256 = i.opcode.toNat := by
  obtain ⟨hop, -, -⟩ := Laws.fields_of_append 0#16 (BitVec.ofNat 8 i.operand) i.opcode
  rw [← toNat_opField]
  exact congrArg BitVec.toNat hop

theorem raise_results (e : ErrCode) (op : Byte) (s : State) : (s.raise e op).results = s.results := by
  rw [raise_eq_recorded]
  rfl

theorem PlainWrite.results {s t : State} (hw : PlainWrite s t) : t.results = s.results := by
  cases hw with
  | status d =>
    rw [writeStatus_eq]
    rfl
  | data r d => cases r <;> rfl
  | _ => rfl

/-- A step but a reset leaves the result registers, or completes the command in CMD, which changes its own. -/
theorem step_results {s t : State} (h : PendingInv s) (hstep : step s = .next t) (hreset : ¬ IsReset s t) :
    t.results = s.results ∨
    (t.cmdcnt = s.cmdcnt + 1 ∧ ResultsChangeBy (t.cmd.toNat % 256) s.results t.results) := by
  obtain ⟨rest, heff⟩ := step_effect hstep
  cases heff with
  | plain hw => exact .inl hw.results
  | raised => exact .inl (raise_results _ _ _)
  | misread => exact .inl (raise_results _ _ _)
  | driven => exact .inl rfl
  | drawn => exact .inl rfl
  | reset => exact absurd ⟨rest, rfl⟩ hreset
  | accepted => exact .inl rfl
  | completed w i _ hp hd =>
    obtain ⟨hcmd, -, -⟩ := h w hp
    refine .inr ⟨by simp, ?_⟩
    have hop : s.cmd.toNat % 256 = i.opcode.toNat := by rw [hcmd, ← toNat_opField, opField_of_decode hd]
    rw [State.finish_cmd, workOf_cmd, hop]
    exact workOf_results i { s with schedule := rest }
  | executed i =>
    refine .inr ⟨by simp, ?_⟩
    rw [State.finish_cmd, workOf_cmd, State.accept_cmd, toNat_encode_mod]
    exact workOf_results i (({ s with schedule := rest } : State).accept (encode i))

/-- Settles O42: the result registers are those of before, or the completed command changes its own. -/
theorem resultRegistersChangeOnlyByTheirCommands : Obligations.ResultRegistersChangeOnlyByTheirCommands := by
  intro s t h hstep hreset
  rcases step_results h hstep hreset with hsame | ⟨hcnt, hchange⟩
  · obtain ⟨hresult, hrate, hlcg, hslpc, hprev, hadj, hrd⟩ := ResultRegs.mk.inj hsame
    exact ⟨absurd hresult, absurd hrate, absurd hlcg, absurd_of_eq₃ hslpc hprev hadj, absurd hrd⟩
  · exact ⟨fun hr => ⟨hchange.result hr, hcnt⟩, fun hr => ⟨hchange.rate hr, hcnt⟩, fun hr => ⟨hchange.lcg hr, hcnt⟩,
      fun hr => ⟨hchange.synthesis hr, hcnt⟩, fun hr => ⟨hchange.rd hr, hcnt⟩⟩

end Sys2Proof.Machine
end

section
/-! The checks of the range decoder family (41_range_decoder.md R137, R141 to R144), and RD_CLOSE (R145). -/

namespace Sys2Proof.Machine

/-! ## Rejection by a command's own check -/

/-- On an idle block a command is rejected with its first check that fails. -/
theorem rejects_of_check {i : Instr} {s : State} {e : ErrCode} (hb : s.busy = false) (hc : checkOf i s = some e) :
    Rejects i e.code s := by
  obtain ⟨e', he, ⟨hbusy, -⟩ | ⟨-, hc'⟩⟩ | ⟨⟨-, hnone⟩, -⟩ := exec_cases i s
  · exact absurd hbusy (by simp [hb])
  · obtain rfl : e = e' := Option.some.inj (hc.symm.trans hc')
    rw [Rejects, he, raise_eq_recorded]
  · exact nomatch hc.symm.trans hnone

theorem checkInit_invalid {s : State} (h : s.status.rdv = false) : checkInit s = some .noInit := by
  simp [checkInit, require, h]

theorem checkInit_valid {s : State} (h : s.status.rdv = true) : checkInit s = none := by
  simp [checkInit, require, h]

/-- A check that comes after NOINIT decides once RDV = 1. -/
theorem checkInit_or {s : State} (h : s.status.rdv = true) (c : Option ErrCode) : (checkInit s).or c = c := by
  rw [checkInit_valid h, Option.none_or]

/-- Settles O12: NOINIT is the first own check of the five commands. -/
theorem decodingNeedsInit : Obligations.DecodingNeedsInit := by
  intro s hb hv
  have noInit {i : Instr} (c : Option ErrCode) (hc : checkOf i s = (checkInit s).or c) : Rejects i 0x04 s :=
    rejects_of_check (e := .noInit) hb (by rw [hc, checkInit_invalid hv, Option.some_or])
  exact ⟨fun _ => noInit _ rfl, fun _ => noInit _ rfl, fun _ => noInit _ rfl, noInit none Option.or_none.symm,
    noInit _ rfl⟩

/-! ## The host's table in TRAM -/

namespace Memory

theorem load_zero (m : Memory) (base : Nat) : m.load base 0 = [] := rfl

/-- The bytes from an address on are the byte there and the bytes behind it. -/
theorem load_succ (m : Memory) (base n : Nat) : m.load base (n + 1) = m.read base :: m.load (base + 1) n := by
  simp [load, List.range_succ_eq_map, Function.comp_def, Nat.add_assoc, Nat.add_comm 1]

theorem drop_load (m : Memory) (base n k : Nat) : (m.load base n).drop k = m.load (base + k) (n - k) := by
  induction k generalizing base n with
  | zero => rfl
  | succ k ih =>
    cases n with
    | zero => rw [Nat.zero_sub, load_zero, List.drop_nil, load_zero]
    | succ n => rw [load_succ, List.drop_succ_cons, ih, Nat.add_assoc, Nat.add_comm 1, Nat.add_sub_add_right]

/-- The table that a byte 0 ends within `n` bytes is the bytes up to the first byte 0 (41_range_decoder.md R142). -/
theorem untilZero_load (m : Memory) (base n : Nat) (t : List Byte) :
    untilZero (m.load base n) = some t ↔
      ∃ k < n, m.read (base + k) = 0 ∧ (∀ j < k, m.read (base + j) ≠ 0) ∧ t = m.load base (k + 1) := by
  induction n generalizing base t with
  | zero => simp [load_zero, untilZero]
  | succ n ih =>
    rw [load_succ, untilZero]
    split <;> rename_i h0
    · constructor
      · rintro ⟨⟩
        exact ⟨0, by omega, h0, by simp, rfl⟩
      · rintro ⟨k, -, -, hne, rfl⟩
        obtain rfl : k = 0 := by
          by_contra hk
          exact hne 0 (by omega) h0
        rfl
    · simp only [Option.map_eq_some_iff, ih]
      constructor
      · rintro ⟨_, ⟨k, hk, hz, hne, rfl⟩, rfl⟩
        refine ⟨k + 1, by omega, by rwa [Nat.add_right_comm] at hz, fun j hj => ?_, (load_succ m base _).symm⟩
        cases j with
        | zero => exact h0
        | succ j => simpa only [Nat.add_assoc, Nat.add_comm 1] using hne j (by omega)
      · rintro ⟨k, hk, hz, hne, rfl⟩
        cases k with
        | zero => exact absurd hz h0
        | succ k =>
          refine ⟨_, ⟨k, by omega, by rwa [Nat.add_right_comm], fun j hj => ?_, rfl⟩, (load_succ m base _).symm⟩
          simpa only [Nat.add_assoc, Nat.add_comm 1] using hne (j + 1) (by omega)

/-- A table is valid when it does not increase and its last byte is 0 (41_range_decoder.md R137). -/
theorem validIcdf_load (m : Memory) (base n : Nat) :
    validIcdf (m.load base (n + 1)) = true ↔
      (∀ j < n, (m.read (base + (j + 1))).toNat ≤ (m.read (base + j)).toNat) ∧ m.read (base + n) = 0 := by
  induction n generalizing base with
  | zero => simp [load_succ, load_zero, validIcdf]
  | succ n ih =>
    have hcons := ih (base + 1)
    rw [load_succ] at hcons
    rw [load_succ, load_succ, validIcdf, Bool.and_eq_true, hcons, decide_eq_true_eq, BitVec.le_def,
      Nat.forall_lt_succ_left']
    simp only [Nat.add_right_comm base 1, Nat.add_zero, Nat.add_assoc, Nat.zero_add, and_assoc]

end Memory

/-- The host's table at `off` is the `n` bytes of TRAM that the statements speak of. -/
theorem hostTable_eq_some_iff (off : Nat) (s : State) (t : List Byte) :
    s.hostTable off = some t ↔ ∃ n, HasTable off n s ∧ t = s.mem.load (Buffer.tram.base + off) n := by
  rw [State.hostTable, Memory.drop_load, Memory.untilZero_load]
  simp only [HasTable, State.tableByte, ← BitVec.toNat_inj (y := (0 : Byte)), ne_eq, Config.tramBytes]
  constructor
  · rintro ⟨k, hk, hz, hne, rfl⟩
    exact ⟨k + 1, ⟨by omega, by omega, hz, fun j hj => hne j (by omega)⟩, rfl⟩
  · rintro ⟨n, ⟨h1, h2, hz, hne⟩, rfl⟩
    exact ⟨n - 1, by omega, hz, fun j hj => hne j (by omega), by rw [Nat.sub_add_cancel h1]⟩

/-- The host's table passes the check of RD_ICDF when it ends in TRAM and does not increase. -/
theorem hostTable_valid_iff (off : Nat) (s : State) :
    (s.hostTable off).any validIcdf = true ↔ ∃ n, HasTable off n s ∧ NonIncreasing (s.tableByte off) n := by
  have valid {n : Nat} (h : HasTable off n s) :
      validIcdf (s.mem.load (Buffer.tram.base + off) n) = true ↔ NonIncreasing (s.tableByte off) n := by
    obtain ⟨h1, -, hz, -⟩ := h
    obtain ⟨k, rfl⟩ : ∃ k, n = k + 1 := ⟨n - 1, by omega⟩
    have hlast : s.mem.read (Buffer.tram.base + off + k) = 0 := BitVec.eq_of_toNat_eq hz
    rw [Memory.validIcdf_load, and_iff_left hlast]
    exact forall_congr' fun j => by rw [Nat.add_lt_add_iff_right]; rfl
  rw [Option.any_eq_true]
  constructor
  · rintro ⟨t, ht, hv⟩
    obtain ⟨n, hn, rfl⟩ := (hostTable_eq_some_iff off s t).mp ht
    exact ⟨n, hn, (valid hn).mp hv⟩
  · rintro ⟨n, hn, hmono⟩
    exact ⟨_, (hostTable_eq_some_iff off s _).mpr ⟨n, hn, rfl⟩, (valid hn).mpr hmono⟩

theorem checkTable_valid {off n : Nat} {s : State} (ht : HasTable off n s) (hm : NonIncreasing (s.tableByte off) n) :
    checkTable off s = none :=
  require_eq_none.mpr ((hostTable_valid_iff off s).mpr ⟨n, ht, hm⟩)

theorem checkTable_invalid {off : Nat} {s : State}
    (h : ∀ n, HasTable off n s → ¬ NonIncreasing (s.tableByte off) n) : checkTable off s = some .tblErr := by
  refine if_neg fun hv => ?_
  obtain ⟨n, hn, hmono⟩ := (hostTable_valid_iff off s).mp hv
  exact h n hn hmono

/-- Settles O13: with RDV = 1 the command's second check decides. -/
theorem rangeCommandsRejectBadOperands : Obligations.RangeCommandsRejectBadOperands := by
  intro s hb hv
  refine ⟨fun off h => ?_, fun n h => ?_, fun logp h => ?_⟩
  · exact rejects_of_check (e := .tblErr) hb ((checkInit_or hv _).trans (checkTable_invalid h))
  · exact rejects_of_check (e := .badArg) hb ((checkInit_or hv _).trans (if_neg (by simpa using h)))
  · refine rejects_of_check (e := .badArg) hb ((checkInit_or hv _).trans (if_neg ?_))
    rw [Bool.and_eq_true, decide_eq_true_eq, decide_eq_true_eq]
    omega

/-! ## The completion of a command that reads no TROM -/

/-- An accepted command whose completion cannot refuse completes, with its work and the bookkeeping. -/
theorem exec_eq_worked {i : Instr} {s : State} (ha : Accepts i s)
    (heff : ∀ u, effectOf i u = .next (workOf i u).finish) : exec i s = .next (s.worked i) := by
  rw [exec_of_accepts ha, heff, finish_workOf_accept ha.1]

theorem pending_of_idle {s : State} (hb : s.busy = false) : s.pending = none := by simpa [State.busy] using hb

/-- A word with the opcode of a command without operand is illegal unless it is the command's one word. -/
theorem decode_error_of_opcode {i : Instr} (huniq : ∀ j : Instr, j.opcode.toNat = i.opcode.toNat → j = i) {w : Word}
    (hop : w.toNat % 256 = i.opcode.toNat) (hne : w ≠ encode i) : ∃ x, decode w = .error x := by
  cases hd : decode w with
  | error x => exact ⟨x, rfl⟩
  | ok j =>
    have hj : j = i := huniq j (by rw [← opField_of_decode hd, toNat_opField, hop])
    exact absurd (encode_of_decode (hj ▸ hd)).symm hne

/-- Opcode 5 is that of RD_CLOSE alone. -/
theorem eq_rdClose_of_opcode (i : Instr) (h : i.opcode.toNat = Instr.rdClose.opcode.toNat) : i = .rdClose := by
  cases i <;> first | rfl | exact absurd h (by simp [Instr.opcode])

/-- Settles O22: an idle block accepts RD_CLOSE, whose work clears RDV alone. -/
theorem rdCloseClearsRdvOnly : Obligations.RdCloseClearsRdvOnly := by
  refine ⟨rfl, fun w s hop hne hb lat => ?_, fun s hb => ?_⟩
  · obtain ⟨x, hx⟩ := decode_error_of_opcode eq_rdClose_of_opcode hop hne
    rw [writeCmd_illegal hx, hb, raise_eq_recorded]
    rfl
  · rw [exec_eq_worked ⟨hb, rfl⟩ fun _ => rfl]
    simp only [State.worked, workOf, State.completed, pending_of_idle hb]

end Sys2Proof.Machine
end

section
/-! NORMALIZE over the front stream, and the start of the range decoder (41_range_decoder.md R130, R132, R136). -/

namespace Sys2Proof.Machine

/-! ## The front stream -/

/-- The stream goes on with zeros, so reading on from the clamped index is reading on from the next one. -/
theorem streamByte_min (buf : List Byte) (k i : Nat) :
    streamByte buf (min k buf.length + i) = streamByte buf (k + i) := by
  rcases Nat.le_total k buf.length with h | h
  · rw [Nat.min_eq_left h]
  · unfold streamByte
    rw [Nat.min_eq_right h, List.getD_eq_default _ _ (by omega), List.getD_eq_default _ _ (by omega)]

theorem streamNumber_min (buf : List Byte) (k m : Nat) :
    streamNumber buf (min k buf.length) m = streamNumber buf k m := by
  induction m with
  | zero => rfl
  | succ m ih => rw [streamNumber, streamNumber, ih, streamByte_min]

/-- The first byte of a stream number is its most significant one. -/
theorem streamNumber_succ (buf : List Byte) (k m : Nat) :
    streamNumber buf k (m + 1) = streamByte buf k * 256 ^ m + streamNumber buf (k + 1) m := by
  induction m with
  | zero => simp [streamNumber]
  | succ m ih =>
    rw [streamNumber, ih, streamNumber, Nat.add_mul, Nat.mul_assoc, ← pow_succ, Nat.add_assoc k, Nat.add_comm 1 m,
      Nat.add_assoc]

theorem streamByte_lt (buf : List Byte) (k : Nat) : streamByte buf k < 256 := (buf.getD k 0).isLt

theorem streamNumber_lt (buf : List Byte) (k m : Nat) : streamNumber buf k m < 256 ^ m := by
  induction m with
  | zero => simp [streamNumber]
  | succ m ih =>
    rw [streamNumber, pow_succ]
    have := streamByte_lt buf (k + m)
    omega

/-! ## NORMALIZE -/

/-- The lower digit, base `p`, with the bit that the halved upper digit hands down, halved itself. -/
theorem carry_lt {p n : Nat} (hn : n < p) (a : Nat) : (a % 2 * p + n) / 2 < p := by
  have : a % 2 * p ≤ 1 * p := Nat.mul_le_mul_right p (by omega)
  omega

/-- Half of a number of two digits, base `p`, modulo `q * p`: the halved upper digit, and the lower one with the bit
that the upper one hands down. -/
theorem half_mod_mul {p n : Nat} (hn : n < p) (a q : Nat) :
    (a * p + n) / 2 % (q * p) = a / 2 % q * p + (a % 2 * p + n) / 2 := by
  have hsplit : a * p + n = a % 2 * p + n + 2 * (a / 2 * p) := by
    have : a * p = (a % 2 + 2 * (a / 2)) * p := by rw [Nat.mod_add_div]
    rw [this, Nat.add_mul, Nat.mul_assoc]
    omega
  have hlow := carry_lt hn a
  rw [hsplit, Nat.add_mul_div_left _ _ (by omega), Nat.mul_comm q, Nat.mod_mul, Nat.add_mul_mod_self_right,
    Nat.mod_eq_of_lt hlow, Nat.add_mul_div_right _ _ (by omega), Nat.div_eq_of_lt hlow, Nat.zero_add, Nat.add_comm,
    Nat.mul_comm p]

/-- The bits that `m` shifts append, from the byte read ahead and the next `m` bytes of the stream (R136). -/
def appendedBits (rem stream m : Nat) : Nat := 256 ^ m - 1 - (rem * 256 ^ m + stream) / 2 % 256 ^ m

/-- The first shift appends its bits above those of the later ones. -/
theorem appendedBits_succ {stream m : Nat} (rem b : Nat) (hs : stream < 256 ^ m) :
    appendedBits rem (b * 256 ^ m + stream) (m + 1) =
      (255 - (rem * 256 + b) / 2 % 256) * 256 ^ m + appendedBits b stream m := by
  unfold appendedBits
  have hall : rem * 256 ^ (m + 1) + (b * 256 ^ m + stream) = (rem * 256 + b) * 256 ^ m + stream := by ring
  have hrest := half_mod_mul hs b 1
  rw [Nat.mod_one, Nat.zero_mul, Nat.zero_add, Nat.one_mul] at hrest
  rw [hall, pow_succ', half_mod_mul hs, hrest, show (rem * 256 + b) % 2 = b % 2 by omega, Nat.sub_mul]
  have hdigit : (rem * 256 + b) / 2 % 256 * 256 ^ m ≤ 255 * 256 ^ m := Nat.mul_le_mul_right _ (by omega)
  have hlow := carry_lt hs b
  omega

/-- `rd'` is `rd` after `m` shifts, as few as bring the range above 2^23 (41_range_decoder.md R136). -/
structure Normalized (buf : List Byte) (rd : RangeState) (m : Nat) (rd' : RangeState) : Prop where
  rng : rd'.rng.toNat = rd.rng.toNat * 256 ^ m
  above : 2 ^ 23 < rd'.rng.toNat
  fewest : ∀ j < m, rd.rng.toNat * 256 ^ j ≤ 2 ^ 23
  val : rd'.val.toNat =
    rd.val.toNat * 256 ^ m + appendedBits rd.rem.toNat (streamNumber buf rd.offs.toNat m) m
  offs : rd'.offs.toNat = min (rd.offs.toNat + m) buf.length
  rem : rd'.rem = if m = 0 then rd.rem else BitVec.ofNat 8 (streamByte buf (rd.offs.toNat + m - 1))
  nbits : rd'.nbits = rd.nbits + BitVec.ofNat 32 (8 * m)
  endOffs : rd'.endOffs = rd.endOffs
  endWin : rd'.endWin = rd.endWin
  nendBits : rd'.nendBits = rd.nendBits

/-- A range above 2^23 needs no shift. -/
theorem Normalized.refl {buf : List Byte} {rd : RangeState} (h : 2 ^ 23 < rd.rng.toNat)
    (hoffs : rd.offs.toNat ≤ buf.length) : Normalized buf rd 0 rd where
  rng := by simp
  above := h
  fewest := by simp
  val := by simp [appendedBits, Nat.mod_one]
  offs := by omega
  rem := by simp
  nbits := by simp
  endOffs := rfl
  endWin := rfl
  nendBits := rfl

/-- A range of at most 2^23 needs one shift more than the range after it. -/
theorem Normalized.shift {buf : List Byte} {rd rd' : RangeState} {m : Nat} (hlen : buf.length < 2048)
    (hoffs : rd.offs.toNat ≤ buf.length) (hrng : rd.rng.toNat ≤ 2 ^ 23) (hval : rd.val.toNat < rd.rng.toNat)
    (h : Normalized buf (shiftIn buf rd) m rd') : Normalized buf rd (m + 1) rd' := by
  obtain ⟨r, v, re, nb, o, eo, w, ne⟩ := shiftIn_front hlen hoffs hrng hval
  exact {
    rng := by rw [h.rng, r, Nat.mul_assoc, ← pow_succ']
    above := h.above
    fewest := fun j hj => by
      cases j with
      | zero => simpa using hrng
      | succ j => rw [pow_succ', ← Nat.mul_assoc, ← r]; exact h.fewest j (by omega)
    val := by
      have hrem : (shiftIn buf rd).rem.toNat = streamByte buf rd.offs.toNat := congrArg BitVec.toNat re
      have hone : (shiftIn buf rd).val.toNat = rd.val.toNat * 256 +
          (255 - (rd.rem.toNat * 256 + streamByte buf rd.offs.toNat) / 2 % 256) := v
      rw [h.val, hone, hrem, o, streamNumber_min, streamNumber_succ, appendedBits_succ _ _ (streamNumber_lt buf _ m),
        pow_succ', Nat.add_mul, Nat.mul_assoc, Nat.add_assoc]
    offs := by
      rw [h.offs, o]
      omega
    rem := by
      rw [h.rem, if_neg (Nat.succ_ne_zero m)]
      split <;> rename_i hm
      · subst hm
        rw [re, Nat.add_sub_cancel, streamByte, BitVec.ofNat_toNat, BitVec.setWidth_eq]
      · rw [o, Nat.add_sub_assoc (by omega), streamByte_min, Nat.add_assoc, Nat.add_comm 1,
          Nat.sub_add_cancel (by omega), Nat.add_sub_assoc (by omega), Nat.add_sub_cancel]
    nbits := by
      rw [h.nbits, nb, BitVec.add_assoc, Nat.mul_succ, Nat.add_comm, BitVec.ofNat_add]
      rfl
    endOffs := h.endOffs.trans eo
    endWin := h.endWin.trans w
    nendBits := h.nendBits.trans ne }

/-- The loop shifts as often as it must, where its bound suffices. -/
theorem normalizeLoop_normalized {buf : List Byte} (hlen : buf.length < 2048) (n : Nat) {rd : RangeState}
    (hbound : 2 ^ 23 < rd.rng.toNat * 256 ^ n) (hval : rd.val.toNat < rd.rng.toNat)
    (hoffs : rd.offs.toNat ≤ buf.length) : ∃ m ≤ n, Normalized buf rd m (normalizeLoop buf n rd) := by
  induction n generalizing rd with
  | zero => exact ⟨0, Nat.le_refl _, .refl (by simpa using hbound) hoffs⟩
  | succ n ih =>
    rw [normalizeLoop]
    split <;> rename_i hle
    · have hrng : rd.rng.toNat ≤ 2 ^ 23 := BitVec.le_def.mp hle
      obtain ⟨r, v, -, -, o, -⟩ := shiftIn_front hlen hoffs hrng hval
      obtain ⟨m, hm, h⟩ := ih (rd := shiftIn buf rd) (by rwa [r, Nat.mul_assoc, ← pow_succ']) (by omega) (by omega)
      exact ⟨m + 1, by omega, h.shift hlen hoffs hrng hval⟩
    · exact ⟨0, by omega, .refl (Nat.lt_of_not_le fun h => hle (BitVec.le_def.mpr h)) hoffs⟩

/-- NORMALIZE from a nonempty range takes at most 3 shifts (R136). -/
theorem normalize_normalized {buf : List Byte} {rd : RangeState} (hlen : buf.length < 2048) (h0 : 0 < rd.rng.toNat)
    (hval : rd.val.toNat < rd.rng.toNat) (hoffs : rd.offs.toNat ≤ buf.length) :
    ∃ m ≤ 3, Normalized buf rd m (normalize buf rd) :=
  normalizeLoop_normalized hlen 3 (by omega) hval hoffs

/-- The registers of the front are all that a normalization moves. -/
theorem Normalized.eq_update {buf : List Byte} {rd rd' : RangeState} {m : Nat} (h : Normalized buf rd m rd') :
    rd' = { rd with
      nbits := rd.nbits + BitVec.ofNat 32 (8 * m)
      rng := rd'.rng, offs := rd'.offs, val := rd'.val
      rem := if m = 0 then rd.rem else BitVec.ofNat 8 (streamByte buf (rd.offs.toNat + m - 1)) } := by
  rw [← h.nbits, ← h.rem, ← h.endOffs, ← h.endWin, ← h.nendBits]

/-- Settles O21: each round of the loop is one shift, by induction on the rounds. -/
theorem normalizeAppendsStreamBits : Obligations.NormalizeAppendsStreamBits := by
  intro buf rd hlen h0 _ hval hoffs
  obtain ⟨m, hm, h⟩ := normalize_normalized (by omega) h0 hval hoffs
  exact ⟨m, hm, h.rng, h.above, h.fewest, h.eq_update, h.offs, h.val⟩

/-! ## RD_INIT -/

/-- Byte `k` of the zero-padded bitstream. -/
theorem streamByte_bitstream (s : State) (k : Nat) : streamByte s.bitstream k = s.frontByte k := by
  unfold streamByte State.frontByte
  split <;> rename_i h
  · rw [State.bitstream, Memory.getD_load _ h]
  · rw [List.getD_eq_default _ _ (by rw [length_bitstream]; omega)]
    rfl

/-- The registers that RD_INIT normalizes: the first byte read, its upper seven bits in the value (R132). -/
def startRegisters (buf : List Byte) : RangeState :=
  { RangeState.reset with
    nbits := 9
    rng := 128
    offs := BitVec.ofNat 11 (min 1 buf.length)
    rem := buf.getD 0 0
    val := 127 - (buf.getD 0 0 >>> 1).setWidth 32 }

theorem Coder.start_rd {buf : List Byte} (hlen : buf.length < 2048) :
    (Coder.start buf).rd = normalize buf (startRegisters buf) := by
  unfold Coder.start
  simp only [Coder.checkExh_rd]
  rw [rdByte_eq hlen (Nat.zero_le _)]
  rfl

theorem toNat_startRegisters_val (buf : List Byte) :
    (startRegisters buf).val.toNat = 127 - streamByte buf 0 / 2 := by
  have h : ∀ b : Byte, (127 - (b >>> 1).setWidth 32 : Word).toNat = 127 - b.toNat / 2 := by decide +kernel
  exact h _

theorem toNat_startRegisters_offs {buf : List Byte} (hlen : buf.length < 2048) :
    (startRegisters buf).offs.toNat = min 1 buf.length := by
  rw [startRegisters, BitVec.toNat_ofNat]
  omega

/-- The start takes three shifts, from the range 2^7 to 2^31. -/
theorem Coder.start_normalized {buf : List Byte} (hlen : buf.length < 2048) :
    Normalized buf (startRegisters buf) 3 (Coder.start buf).rd := by
  have hrng : (startRegisters buf).rng.toNat = 128 := rfl
  have hoffs := toNat_startRegisters_offs hlen
  obtain ⟨m, hm, h⟩ := normalize_normalized (rd := startRegisters buf) hlen (by omega)
    (by rw [toNat_startRegisters_val]; omega) (by omega)
  rw [Coder.start_rd hlen]
  have habove := h.above
  rw [h.rng, hrng] at habove
  obtain rfl : m = 3 := by
    by_contra hne
    have : 256 ^ m ≤ 256 ^ 2 := Nat.pow_le_pow_right (by decide) (by omega)
    omega
  exact h

section
variable {buf : List Byte} (hlen : buf.length < 2048)
include hlen

theorem Coder.start_rng : (Coder.start buf).rd.rng.toNat = 2 ^ 31 := by
  have h : (startRegisters buf).rng.toNat = 2 ^ 7 := rfl
  rw [(Coder.start_normalized hlen).rng, h]
  decide

theorem Coder.start_nbits : (Coder.start buf).rd.nbits.toNat = 33 := by
  have h : (startRegisters buf).nbits = 9 := rfl
  rw [(Coder.start_normalized hlen).nbits, h]
  decide

/-- RD_INIT leaves TELL = 1 (R132). -/
theorem Coder.start_tell : (Coder.start buf).rd.tell.toNat = 1 := by
  rw [toNat_tell, Coder.start_rng hlen, Coder.start_nbits hlen]
  decide

/-- EXH after RD_INIT: the one bit of TELL exceeds an empty buffer alone. -/
theorem Coder.start_exh : (Coder.start buf).exh = decide (buf.length = 0) := by
  have htell := Coder.start_tell hlen
  revert htell
  unfold Coder.start
  simp only [Coder.checkExh_rd, Coder.checkExh_exh, Bool.false_or]
  intro htell
  rw [htell]
  exact decide_eq_decide.mpr (by omega)

/-- The value that the start leaves, from the first four bytes of the stream (R132). -/
theorem Coder.start_val :
    (Coder.start buf).rd.val.toNat = 2 ^ 31 - 1 -
      (streamByte buf 0 * 2 ^ 24 + streamByte buf 1 * 2 ^ 16 + streamByte buf 2 * 2 ^ 8 + streamByte buf 3) / 2 := by
  have hrem : (startRegisters buf).rem.toNat = streamByte buf 0 := rfl
  rw [(Coder.start_normalized hlen).val, toNat_startRegisters_val, toNat_startRegisters_offs hlen,
    streamNumber_min, hrem]
  have h0 := streamByte_lt buf 0
  have h1 := streamByte_lt buf 1
  have h2 := streamByte_lt buf 2
  have h3 := streamByte_lt buf 3
  simp only [appendedBits, streamNumber, Nat.reduceAdd]
  omega

end

/-- RD_INIT on an idle block, by the decoder it starts (R132). -/
theorem exec_rdInit {s : State} (hb : s.busy = false) :
    exec .rdInit s = .next { s.completed .rdInit with
      rd := (Coder.start s.bitstream).rd
      status := { s.status with done := true, rdv := true, exh := (Coder.start s.bitstream).exh } } := by
  rw [exec_eq_worked ⟨hb, rfl⟩ fun _ => rfl]
  unfold State.worked workOf
  generalize Coder.start s.bitstream = c
  simp only [State.setCoder, State.completed, pending_of_idle hb]

/-- Settles O17: the start is one byte read and three shifts. -/
theorem rdInitStartsOnTheFirstBytes : Obligations.RdInitStartsOnTheFirstBytes := by
  intro s hb
  have hlen : s.bitstream.length < 2048 := by rw [length_bitstream]; exact s.len.isLt
  have hn := Coder.start_normalized hlen
  have hexec := exec_rdInit hb
  have hrng := Coder.start_rng hlen
  have hnbits := Coder.start_nbits hlen
  have htell := Coder.start_tell hlen
  have hexh := Coder.start_exh hlen
  have hval := Coder.start_val hlen
  generalize Coder.start s.bitstream = c at hn hexec hrng hnbits htell hexh hval
  have hoffs := hn.offs
  have hrem := hn.rem
  rw [toNat_startRegisters_offs hlen] at hoffs hrem
  rw [if_neg (by decide), Nat.add_sub_assoc (by decide), streamByte_min] at hrem
  simp only [streamByte_bitstream] at hval hrem
  rw [hexh] at hexec
  simp only [length_bitstream] at hexec hoffs
  refine ⟨_, hexec, rfl, hrng, hnbits, htell, hval, ?_, ?_, hn.endOffs, hn.endWin, hn.nendBits⟩
  · rw [hoffs]
    omega
  · rw [hrem, BitVec.toNat_ofNat]
    exact Nat.mod_eq_of_lt (streamByte_bitstream s 3 ▸ streamByte_lt _ 3)

end Sys2Proof.Machine
end

section
/-! The commands that decode from the bitstream: RD_ICDF, RD_BITLOGP and RD_BITS (41_range_decoder.md R138 to R140, R142
to R144). -/

namespace Sys2Proof.Machine

/-! ## EXH and RESULT -/

@[simp] theorem coder_rd (s : State) : s.coder.rd = s.rd := rfl

/-- The exhaustion check at the end of an operation of the block that leaves the registers `rd` (R135). -/
def State.checkedCoder (s : State) (rd : RangeState) : Coder :=
  ({ s.coder with rd := rd } : Coder).checkExh s.bitstream.length

@[simp] theorem checkedCoder_rd (s : State) (rd : RangeState) : (s.checkedCoder rd).rd = rd := Coder.checkExh_rd _ _

@[simp] theorem checkedCoder_exh (s : State) (rd : RangeState) : (s.checkedCoder rd).exh = exhAfter s rd := by
  rw [State.checkedCoder, Coder.checkExh_exh, length_bitstream]
  rfl

/-- The state with the answer of a decoding stage: its number in RESULT and the range decoder it leaves. -/
def State.answered (s : State) (r : Nat × Coder) : State := { s.setCoder r.2 with result := BitVec.ofNat 32 r.1 }

/-- The state after a command that decodes the number `x` and leaves the registers `rd`. -/
def State.decoded (s : State) (i : Instr) (x : Nat) (rd : RangeState) : State :=
  { s.completed i with
    rd := rd
    result := BitVec.ofNat 32 x
    status := { s.status with done := true, exh := exhAfter s rd } }

/-- An accepted command whose work is to decode a number into RESULT. -/
theorem exec_eq_decoded {i : Instr} {s : State} {x : Nat} {rd : RangeState} (ha : Accepts i s)
    (heff : ∀ u, effectOf i u = .next (workOf i u).finish) (hwork : workOf i s = s.answered (x, s.checkedCoder rd)) :
    exec i s = .next (s.decoded i x rd) := by
  rw [exec_eq_worked ha heff, State.worked, hwork]
  simp only [State.answered, State.setCoder, checkedCoder_rd, checkedCoder_exh, State.decoded, State.completed,
    pending_of_idle ha.1]

/-! ## RD_ICDF -/

/-- The search stops at the first symbol of the table whose lower bound does not exceed the value; its upper bound is
the lower bound of the symbol before it (R138). -/
theorem icdfSearch_spec {r d : Nat} {ts : List Byte} (hlast : ts.getLast? = some 0) (u k0 : Nat) :
    ∃ k < ts.length,
      icdfSearch r d ts u k0 =
        (k0 + k, if k = 0 then u else r * (ts.getD (k - 1) 0).toNat, r * (ts.getD k 0).toNat) ∧
      r * (ts.getD k 0).toNat ≤ d ∧ ∀ j < k, d < r * (ts.getD j 0).toNat := by
  induction ts generalizing u k0 with
  | nil => cases hlast
  | cons t ts ih =>
    rw [icdfSearch]
    split <;> rename_i ht
    · exact ⟨0, by simp, rfl, ht, by simp⟩
    · have hne : ts ≠ [] := by
        rintro rfl
        obtain rfl : t = 0 := Option.some.inj hlast
        exact ht (Nat.zero_le d)
      obtain ⟨k, hk, heq, hle, hlt⟩ :=
        ih ((List.getLast?_cons_of_ne_nil hne).symm.trans hlast) (r * t.toNat) (k0 + 1)
      refine ⟨k + 1, Nat.succ_lt_succ hk, ?_, hle, fun j hj => ?_⟩
      · rw [heq, Nat.add_assoc, Nat.add_comm 1]
        cases k <;> rfl
      · cases j with
        | zero => exact Nat.lt_of_not_le ht
        | succ j => exact hlt j (by omega)

theorem getLast?_load (m : Memory) (base n : Nat) : (m.load base (n + 1)).getLast? = some (m.read (base + n)) := by
  simp [Memory.load, List.range_succ]

/-- ICDF over a table of the host: the symbol of the interval, and the registers of the interval, normalized (R138). -/
theorem icdf_hostTable {s : State} {off n : Nat} (ht : HasTable off n s) :
    ∃ k < n, SymbolAt s.rd (s.tableByte off) k ∧
      s.coder.icdf s.bitstream ((s.hostTable off).getD []) =
        (k, s.checkedCoder (normalize s.bitstream (afterSymbol s.rd (s.tableByte off) k))) := by
  rw [(hostTable_eq_some_iff off s _).mpr ⟨n, ht, rfl⟩, Option.getD_some]
  obtain ⟨h1, -, hz, -⟩ := ht
  obtain ⟨n, rfl⟩ : ∃ m, n = m + 1 := ⟨n - 1, by omega⟩
  have hlast : (s.mem.load (Buffer.tram.base + off) (n + 1)).getLast? = some 0 := by
    rw [getLast?_load]
    exact congrArg some (BitVec.eq_of_toNat_eq hz)
  obtain ⟨k, hk, heq, hle, hlt⟩ :=
    icdfSearch_spec (r := s.rd.rng.toNat / 256) (d := s.rd.val.toNat) hlast s.rd.rng.toNat 0
  rw [Memory.length_load] at hk
  have byte {j : Nat} (hj : j ≤ k) :
      ((s.mem.load (Buffer.tram.base + off) (n + 1)).getD j 0).toNat = s.tableByte off j := by
    rw [Memory.getD_load _ (by omega)]
    rfl
  rw [byte (Nat.le_refl k)] at heq hle
  rw [byte (Nat.sub_le k 1), Nat.zero_add] at heq
  refine ⟨k, hk, ⟨hle, fun j hj => byte (Nat.le_of_lt hj) ▸ hlt j hj⟩, ?_⟩
  unfold Coder.icdf
  simp only [State.coder, heq]
  rfl

/-- Settles O18: the table that passes the check is the one the search runs over. -/
theorem rdIcdfDecodesTheSymbolOfTheInterval : Obligations.RdIcdfDecodesTheSymbolOfTheInterval := by
  intro s off n hb hv ht hm
  obtain ⟨k, hk, hsym, hicdf⟩ := icdf_hostTable ht
  have hchk : checkOf (.rdIcdf off) s = none := (checkInit_or hv _).trans (checkTable_valid ht hm)
  exact ⟨_, k, exec_eq_decoded ⟨hb, hchk⟩ (fun _ => rfl) (congrArg s.answered hicdf), hk, hsym, rfl, rfl⟩

/-! ## RD_BITLOGP -/

/-- The registers of the part of the range that BITLOGP chooses: the part of size `RNG >> logp` at the bottom for 1,
what is left of the range for 0 (R139). -/
def bitPart (rd : RangeState) (logp : Nat) (one : Bool) : RangeState :=
  if one then { rd with rng := BitVec.ofNat 32 (rd.rng.toNat / 2 ^ logp) }
  else { rd with
    val := BitVec.ofNat 32 (rd.val.toNat - rd.rng.toNat / 2 ^ logp)
    rng := BitVec.ofNat 32 (rd.rng.toNat - rd.rng.toNat / 2 ^ logp) }

/-- A difference of words that does not wrap. -/
theorem sub_eq_ofNat {x y : Word} (h : y.toNat ≤ x.toNat) : x - y = BitVec.ofNat 32 (x.toNat - y.toNat) := by
  refine BitVec.eq_of_toNat_eq ?_
  rw [BitVec.toNat_sub_of_le (BitVec.le_def.mpr h), BitVec.toNat_ofNat]
  omega

/-- The size of the part for 1, as a number. -/
theorem toNat_part (rd : RangeState) (logp : Nat) : (rd.rng >>> logp).toNat = rd.rng.toNat / 2 ^ logp := by
  rw [BitVec.toNat_ushiftRight, Nat.shiftRight_eq_div_pow]

/-- The part for 1 in the words that BITLOGP computes. -/
theorem bitPart_true (rd : RangeState) (logp : Nat) : bitPart rd logp true = { rd with rng := rd.rng >>> logp } := by
  rw [bitPart, if_pos rfl, ← toNat_part, BitVec.ofNat_toNat, BitVec.setWidth_eq]

/-- The part for 0 in the words that BITLOGP computes, where the value does not lie below it. -/
theorem bitPart_false {rd : RangeState} {logp : Nat} (h : (rd.rng >>> logp).toNat ≤ rd.val.toNat) :
    bitPart rd logp false = { rd with val := rd.val - rd.rng >>> logp, rng := rd.rng - rd.rng >>> logp } := by
  have hsize : (rd.rng >>> logp).toNat ≤ rd.rng.toNat := by rw [toNat_part]; exact Nat.div_le_self _ _
  rw [bitPart, if_neg Bool.false_ne_true, ← toNat_part, sub_eq_ofNat h, sub_eq_ofNat hsize]

/-- BITLOGP decodes 1 below the size of the part for 1, and normalizes the part it chooses (R139). -/
theorem bitLogp_eq (s : State) (logp : Nat) :
    s.coder.bitLogp s.bitstream logp =
      ((decide (s.rd.val.toNat < s.rd.rng.toNat / 2 ^ logp)).toNat,
        s.checkedCoder (normalize s.bitstream
          (bitPart s.rd logp (decide (s.rd.val.toNat < s.rd.rng.toNat / 2 ^ logp))))) := by
  have hone : decide (s.rd.val < s.rd.rng >>> logp) = decide (s.rd.val.toNat < s.rd.rng.toNat / 2 ^ logp) :=
    decide_eq_decide.mpr (by rw [BitVec.lt_def, toNat_part])
  rw [← hone, Coder.bitLogp]
  by_cases h : s.rd.val < s.rd.rng >>> logp
  · simp only [coder_rd, h, decide_true, if_true, bitPart_true]
    rfl
  · have hle : (s.rd.rng >>> logp).toNat ≤ s.rd.val.toNat := Nat.not_lt.mp (mt BitVec.lt_def.mpr h)
    simp only [coder_rd, h, decide_false, Bool.false_eq_true, if_false, bitPart_false hle]
    rfl

/-- Settles O20: the two parts of the range are the two values of the bit. -/
theorem rdBitlogpSplitsTheRange : Obligations.RdBitlogpSplitsTheRange := by
  intro s logp hb hv hlo hhi
  have hchk : checkOf (.rdBitlogp logp) s = none :=
    (checkInit_or hv _).trans (require_eq_none.mpr (by simp [hlo, hhi]))
  refine ⟨_, exec_eq_decoded ⟨hb, hchk⟩ (fun _ => rfl) (congrArg s.answered (bitLogp_eq s logp)), rfl, fun h => ?_,
    fun h => ?_⟩ <;> rw [State.decoded]
  · rw [decide_eq_true h]
    exact ⟨rfl, rfl⟩
  · rw [decide_eq_false (Nat.not_lt.mpr h)]
    exact ⟨rfl, rfl⟩

/-! ## RD_BITS -/

/-- A refill moves the window of the raw bits alone. -/
theorem refill_eq_update (buf : List Byte) (fuel : Nat) (rd : RangeState) :
    refill buf fuel rd = { rd with
      endOffs := (refill buf fuel rd).endOffs
      endWin := (refill buf fuel rd).endWin
      nendBits := (refill buf fuel rd).nendBits } := by
  have round (rd : RangeState) : refillRound buf rd = { rd with
      endOffs := (refillRound buf rd).endOffs
      endWin := (refillRound buf rd).endWin
      nendBits := (refillRound buf rd).nendBits } := by
    unfold refillRound rdByteEnd
    split <;> rfl
  induction fuel generalizing rd with
  | zero => rfl
  | succ fuel ih =>
    rw [refill]
    split
    · exact round rd
    · rw [ih, round]

/-- A back read takes the next back byte of the bitstream (R131). -/
theorem toNat_rdByteEnd (s : State) (rd : RangeState) :
    (rdByteEnd s.bitstream rd).1.toNat = s.backByte rd.endOffs.toNat := by
  unfold rdByteEnd State.backByte
  rw [length_bitstream]
  split
  · rw [State.bitstream, Memory.getD_load _ (by omega), Nat.sub_add_eq, Nat.sub_right_comm]
  · rfl

/-- Past the beginning of the buffer the back bytes are 0. -/
theorem backNumber_past {s : State} {k : Nat} (hk : s.len.toNat ≤ k) (m : Nat) : s.backNumber k m = 0 := by
  induction m generalizing k with
  | zero => rfl
  | succ m ih => rw [State.backNumber, ih (by omega), State.backByte, if_neg (by omega), Nat.mul_zero]

/-- Reading back from the clamped count is reading back from the next one. -/
theorem backNumber_min (s : State) (k m : Nat) : s.backNumber (min k s.len.toNat) m = s.backNumber k m := by
  rcases Nat.le_total k s.len.toNat with h | h
  · rw [Nat.min_eq_left h]
  · rw [Nat.min_eq_right h, backNumber_past (Nat.le_refl _), backNumber_past h]

/-- The window of the raw bits is in range (10_state.md R55). -/
structure WindowOk (len : Nat) (rd : RangeState) : Prop where
  endWin_lt : rd.endWin.toNat < 2 ^ rd.nendBits.toNat
  nendBits_le : rd.nendBits.toNat ≤ 32
  endOffs_le : rd.endOffs.toNat ≤ len

/-- `rd'` holds the window of `rd` continued by `m` back bytes of the bitstream (R140). -/
structure Refilled (s : State) (rd : RangeState) (m : Nat) (rd' : RangeState) : Prop where
  endWin : rd'.endWin.toNat = rd.endWin.toNat + 2 ^ rd.nendBits.toNat * s.backNumber rd.endOffs.toNat m
  nendBits : rd'.nendBits.toNat = rd.nendBits.toNat + 8 * m
  endOffs : rd'.endOffs.toNat = min (rd.endOffs.toNat + m) s.len.toNat

/-- No round of the refill continues the window by nothing. -/
theorem Refilled.refl {s : State} {rd : RangeState} (h : rd.endOffs.toNat ≤ s.len.toNat) : Refilled s rd 0 rd where
  endWin := by simp [State.backNumber]
  nendBits := by simp
  endOffs := by omega

/-- One round continues the window by one byte, and keeps it in range. -/
theorem refillRound_refilled {s : State} {rd : RangeState} (h : WindowOk s.len.toNat rd) (hn : rd.nendBits.toNat ≤ 24) :
    Refilled s rd 1 (refillRound s.bitstream rd) ∧ WindowOk s.len.toNat (refillRound s.bitstream rd) := by
  obtain ⟨hw, -, he⟩ := h
  have hlen := length_bitstream s
  obtain ⟨w, av, eo, -⟩ := refillRound_window (buf := s.bitstream) (by omega) (by omega) hn hw
  rw [toNat_rdByteEnd] at w
  rw [hlen] at eo
  have hbyte : s.backByte rd.endOffs.toNat < 2 ^ 8 := by
    rw [← toNat_rdByteEnd]
    exact (rdByteEnd s.bitstream rd).1.isLt
  refine ⟨⟨by simpa [State.backNumber] using w, av, eo⟩, ⟨?_, by omega, by omega⟩⟩
  rw [w, av, pow_add]
  have := Nat.mul_le_mul_left (2 ^ rd.nendBits.toNat) hbyte
  rw [Nat.mul_succ] at this
  omega

/-- One round and `m` more bytes are `m + 1` bytes. -/
theorem Refilled.trans {s : State} {rd rd1 rd2 : RangeState} {m : Nat} (h1 : Refilled s rd 1 rd1)
    (h2 : Refilled s rd1 m rd2) : Refilled s rd (m + 1) rd2 where
  endWin := by
    rw [h2.endWin, h1.endWin, h1.nendBits, h1.endOffs, backNumber_min, pow_add]
    simp only [State.backNumber]
    ring
  nendBits := by rw [h2.nendBits, h1.nendBits]; omega
  endOffs := by rw [h2.endOffs, h1.endOffs]; omega

/-- The refill reads as many back bytes as leave more than 24 bits (R140). -/
theorem refill_refilled {s : State} (fuel : Nat) {rd : RangeState} (h : WindowOk s.len.toNat rd)
    (hn : rd.nendBits.toNat ≤ 24) (hfuel : 24 < rd.nendBits.toNat + 8 * fuel) :
    Refilled s rd ((32 - rd.nendBits.toNat) / 8) (refill s.bitstream fuel rd) := by
  induction fuel generalizing rd with
  | zero => omega
  | succ fuel ih =>
    obtain ⟨hround, hok⟩ := refillRound_refilled h hn
    have hbits := hround.nendBits
    rw [refill]
    split <;> rename_i hdone
    · rwa [show (32 - rd.nendBits.toNat) / 8 = 1 by omega]
    · have hrest := hround.trans (ih hok (by omega) (by omega))
      rwa [hbits, show (32 - (rd.nendBits.toNat + 8 * 1)) / 8 + 1 = (32 - rd.nendBits.toNat) / 8 by omega] at hrest

/-- The registers from which RAWBITS takes `n` bits: refilled when the window holds fewer (R140). -/
def refilledFor (buf : List Byte) (n : Nat) (rd : RangeState) : RangeState :=
  if rd.nendBits.toNat < n then refill buf 4 rd else rd

theorem refilledFor_eq_update (buf : List Byte) (n : Nat) (rd : RangeState) :
    refilledFor buf n rd = { rd with
      endOffs := (refilledFor buf n rd).endOffs
      endWin := (refilledFor buf n rd).endWin
      nendBits := (refilledFor buf n rd).nendBits } := by
  unfold refilledFor
  split
  · exact refill_eq_update buf 4 rd
  · rfl

/-- RAWBITS reads the back bytes that `n` bits ask for. -/
theorem refilledFor_refilled {s : State} {n : Nat} {rd : RangeState} (h : WindowOk s.len.toNat rd) (hn : n ≤ 25) :
    Refilled s rd (backReads rd.nendBits.toNat n) (refilledFor s.bitstream n rd) := by
  unfold refilledFor backReads
  split
  · exact refill_refilled 4 h (by omega) (by omega)
  · exact .refl h.endOffs_le

/-- The registers after RAWBITS took `n` bits of the window (R140). -/
def takeBits (n : Nat) (rd : RangeState) : RangeState :=
  { rd with
    endWin := rd.endWin >>> n
    nendBits := rd.nendBits - BitVec.ofNat 6 n
    nbits := rd.nbits + BitVec.ofNat 32 n }

/-- RAWBITS takes its bits from the bottom of the window it has after the refill (R140). -/
theorem rawBits_eq (s : State) (n : Nat) :
    s.coder.rawBits s.bitstream n =
      ((refilledFor s.bitstream n s.rd).endWin.toNat % 2 ^ n,
        s.checkedCoder (takeBits n (refilledFor s.bitstream n s.rd))) := rfl

/-- RAWBITS moves the window and counts the bits. -/
theorem takeBits_refilledFor_eq_update (buf : List Byte) (n : Nat) (rd : RangeState) :
    takeBits n (refilledFor buf n rd) = { rd with
      endOffs := (takeBits n (refilledFor buf n rd)).endOffs
      endWin := (takeBits n (refilledFor buf n rd)).endWin
      nendBits := (takeBits n (refilledFor buf n rd)).nendBits
      nbits := rd.nbits + BitVec.ofNat 32 n } := by
  rw [refilledFor_eq_update]
  rfl

/-- What is left of the window when its lowest `n` bits are taken. -/
theorem takeBits_window {n : Nat} {rd : RangeState} (h : n ≤ rd.nendBits.toNat) :
    (takeBits n rd).endWin.toNat = rd.endWin.toNat / 2 ^ n ∧
    (takeBits n rd).nendBits.toNat = rd.nendBits.toNat - n ∧ (takeBits n rd).endOffs = rd.endOffs := by
  refine ⟨?_, ?_, rfl⟩
  · rw [takeBits, BitVec.toNat_ushiftRight, Nat.shiftRight_eq_div_pow]
  · rw [takeBits, BitVec.toNat_sub, BitVec.toNat_ofNat]
    omega

/-- The refill leaves at least the bits asked for. -/
theorem le_refilled_bits {av n : Nat} (hav : av ≤ 32) (hn : n ≤ 25) : n ≤ av + 8 * backReads av n := by
  unfold backReads
  split <;> omega

/-- Settles O19: the window is refilled, then the bits are taken. -/
theorem rdBitsReadsFromTheBack : Obligations.RdBitsReadsFromTheBack := by
  intro s n hb hv hn
  have hchk : checkOf (.rdBits n) s = none := (checkInit_or hv _).trans (require_eq_none.mpr (decide_eq_true hn))
  refine ⟨_, exec_eq_decoded ⟨hb, hchk⟩ (fun _ => rfl) (congrArg s.answered (rawBits_eq s n)), ?_,
    fun hwin hav hoffs => ?_⟩
  · unfold State.decoded
    rw [← takeBits_refilledFor_eq_update]
  · obtain ⟨hendWin, hnendBits, hendOffs⟩ := refilledFor_refilled (rd := s.rd) ⟨hwin, hav, hoffs⟩ hn
    obtain ⟨hrest, hleft, hread⟩ := takeBits_window (n := n) (rd := refilledFor s.bitstream n s.rd)
      (by rw [hnendBits]; exact le_refilled_bits hav hn)
    refine ⟨?_, by rw [← hendWin]; exact hrest, by rw [← hnendBits]; exact hleft, by rw [← hendOffs, ← hread]; rfl⟩
    refine (BitVec.toNat_ofNat _ _).trans ?_
    rw [← hendWin]
    exact Nat.mod_eq_of_lt (Nat.lt_of_le_of_lt (Nat.mod_le _ _) (BitVec.isLt _))

end Sys2Proof.Machine
end

section
/-! EXH stays set through every decoding operation (41_range_decoder.md R135). -/

namespace Sys2Proof.Machine

/-- A decoding stage keeps the property `P` of the range decoder. -/
def Keeps {α : Type} (P : Coder → Prop) (f : Coder → α × Coder) : Prop := ∀ c, P c → P (f c).2

theorem mapCoder_keeps {α β : Type} {P : Coder → Prop} {f : α → Coder → β × Coder} (hf : ∀ a, Keeps P (f a))
    (as : List α) : Keeps P (mapCoder f as) := by
  induction as with
  | nil => exact fun _ h => h
  | cons a as ih => exact fun c h => ih _ (hf a c h)

/-! ## What every symbol keeps, EXC_DECODE keeps -/

section
variable {P : Coder → Prop} {buf : List Byte} (hicdf : ∀ t, Keeps P (Coder.icdf buf t)) (m : Memory)
include hicdf

theorem pulseCount_keeps (rate : Nat) : Keeps P (pulseCount buf m rate) := by
  have escapes (n : Nat) (b : BlockCount) : Keeps P (escapeLoop buf m n b) := by
    induction n generalizing b with
    | zero => exact fun _ h => h
    | succ n ih =>
      intro c h
      rw [escapeLoop]
      split
      · exact ih _ _ (hicdf _ c h)
      · exact h
  exact fun c h => escapes 10 _ _ (hicdf _ c h)

theorem shell_keeps (n p : Nat) : Keeps P (shell buf m n p) := by
  have splits (l p : Nat) : Keeps P (split buf m l p) := by
    intro c h
    unfold split
    split
    · exact h
    · exact hicdf _ c h
  induction n generalizing p with
  | zero => exact fun _ h => h
  | succ l ih => exact fun c h => ih _ _ (ih _ _ (splits l p c h))

theorem extendSample_keeps (n q : Nat) : Keeps P (extendSample buf m n q) := by
  induction n generalizing q with
  | zero => exact fun _ h => h
  | succ n ih => exact fun c h => ih _ _ (hicdf _ c h)

theorem signSample_keeps (t : List Byte) (q : Nat) : Keeps P (signSample buf t q) := by
  intro c h
  unfold signSample
  split
  · exact h
  · exact hicdf t c h

/-- The five stages of EXC_DECODE in order. -/
theorem decodeFrame_keeps (cfg : Cfg) {c : Coder} (h : P c) : P (decodeFrame buf m cfg c).coder := by
  have rate := hicdf (rateIcdf m (cfg.stype.toNat / 2)) c h
  have counts (r : Nat) := mapCoder_keeps (fun _ : Nat => pulseCount_keeps hicdf m r) (List.range cfg.numBlocks) _ rate
  have shells (b : BlockCount) : Keeps P (blockShell buf m b) := shell_keeps hicdf m 4 b.sum
  have lsbs (x) : Keeps P (blockLsbs buf m x) := mapCoder_keeps (extendSample_keeps hicdf m x.1.nls) x.2
  have signs (x) : Keeps P (blockSigns buf m cfg x) := mapCoder_keeps (signSample_keeps hicdf _) x.2
  exact mapCoder_keeps signs _ _ (mapCoder_keeps lsbs _ _ (mapCoder_keeps shells _ _ (counts _)))

end

/-! ## EXH -/

/-- The exhaustion check sets EXH or leaves it. -/
theorem checkExh_keeps_exh {len : Nat} {c : Coder} (h : c.exh = true) : (c.checkExh len).exh = true := by
  rw [Coder.checkExh_exh, h, Bool.true_or]

theorem icdf_keeps_exh (buf t : List Byte) : Keeps (·.exh = true) (Coder.icdf buf t) := fun _ h => checkExh_keeps_exh h

/-- No command's work but that of RD_INIT clears EXH. -/
theorem workOf_keeps_exh {i : Instr} {s : State} (hi : i ≠ .rdInit) (h : s.status.exh = true) :
    (workOf i s).status.exh = true := by
  cases i with
  | rdInit => contradiction
  | rdIcdf off => exact icdf_keeps_exh s.bitstream _ s.coder h
  | rdBits n => exact checkExh_keeps_exh h
  | rdBitlogp logp => exact checkExh_keeps_exh h
  | excSeed => exact icdf_keeps_exh s.bitstream _ s.coder h
  | excDecode => exact decodeFrame_keeps (icdf_keeps_exh s.bitstream) s.mem s.cfg (c := s.coder) h
  | _ => exact h

theorem PlainWrite.exh {s t : State} (hw : PlainWrite s t) : t.status.exh = s.status.exh := by
  cases hw with
  | status d => rw [writeStatus_eq]
  | data r d => rw [storeReg_status]
  | _ => rfl

theorem raise_exh (e : ErrCode) (op : Byte) (s : State) : (s.raise e op).status.exh = s.status.exh := by
  rw [raise_eq_recorded]
  rfl

/-- A completed command that clears EXH is RD_INIT, which sets RDV. -/
theorem completion_clears_exh {i : Instr} {s : State} (h : s.status.exh = true)
    (hclear : (workOf i s).finish.status.exh = false) : i = .rdInit ∧ (workOf i s).finish.status.rdv = true := by
  by_cases hi : i = .rdInit
  · subst hi
    exact ⟨rfl, rfl⟩
  · exact nomatch hclear.symm.trans (workOf_keeps_exh hi h)

/-- Settles O24: of everything a step can do, only a reset and a completed RD_INIT clear EXH. -/
theorem exhaustionIsSticky : Obligations.ExhaustionIsSticky := by
  intro s t hpend hstep hexh hclear
  obtain ⟨rest, heff⟩ := step_effect hstep
  have kept : t.status.exh ≠ s.status.exh := by simp [hexh, hclear]
  cases heff with
  | plain hw => exact absurd hw.exh kept
  | raised => exact absurd (raise_exh _ _ _) kept
  | misread => exact absurd (raise_exh _ _ _) kept
  | driven => exact absurd rfl kept
  | drawn => exact absurd rfl kept
  | accepted => exact absurd rfl kept
  | reset => exact .inl ⟨rest, rfl⟩
  | completed w i _ hp hd =>
    obtain ⟨rfl, hrdv⟩ := completion_clears_exh (s := { s with schedule := rest }) hexh hclear
    obtain ⟨hcmd, -, -⟩ := hpend w hp
    exact .inr ⟨by simp [hcmd, encode_of_decode hd], by simp, hrdv⟩
  | executed i =>
    obtain ⟨rfl, hrdv⟩ :=
      completion_clears_exh (s := ({ s with schedule := rest } : State).accept (encode i)) hexh hclear
    exact .inr ⟨by simp, by simp, hrdv⟩

end Sys2Proof.Machine
end

section
/-! What a well-formed TROM gives, and the checks and the completion of the commands that read it (10_state.md R51, R52,
42_excitation.md R162). -/

namespace Sys2Proof.Machine

/-- The check of CFG fails on a reserved bandwidth or signal type (42_excitation.md R162). -/
theorem checkFrameCfg_reserved {s : State} (h : s.cfg.bw = 3 ∨ s.cfg.stype = 3) : checkFrameCfg s = some .badCfg := by
  refine if_neg fun hok => ?_
  rw [Bool.and_eq_true, decide_eq_true_eq, decide_eq_true_eq] at hok
  exact h.elim hok.1 hok.2

theorem checkFrameCfg_legal {s : State} (hbw : s.cfg.bw ≠ 3) (hstype : s.cfg.stype ≠ 3) : checkFrameCfg s = none :=
  require_eq_none.mpr (by rw [decide_eq_true hbw, decide_eq_true hstype]; rfl)

/-- Settles O14: the check of CFG is the only one of EXC_RECON, and decides for EXC_DECODE once RDV = 1. -/
theorem reservedFrameConfigurationIsRejected : Obligations.ReservedFrameConfigurationIsRejected := by
  intro s hb hcfg
  have hchk := checkFrameCfg_reserved hcfg
  exact ⟨rejects_of_check (e := .badCfg) hb hchk,
    fun hv => rejects_of_check (e := .badCfg) hb ((checkInit_or hv _).trans hchk)⟩

/-- On a well-formed TROM every accepted command completes, with its work and the bookkeeping. -/
theorem exec_eq_worked_of_tromWf {i : Instr} {s : State} (ha : Accepts i s) (htrom : s.mem.tromWf = true) :
    exec i s = .next (s.worked i) := by
  rw [exec_of_accepts ha]
  obtain ⟨t, ht⟩ | ⟨hbad, -⟩ := effectOf_cases i (s.accept (encode i))
  · rw [ht, effectOf_eq_next ht, finish_workOf_accept ha.1]
  · exact nomatch htrom.symm.trans hbad

/-- A TROM command that completed found a well-formed TROM. -/
theorem tromWf_of_withTrom {s t u : State} (h : s.withTrom u = .next t) : s.mem.tromWf = true := by
  unfold State.withTrom at h
  split at h
  · assumption
  · cases h

/-! ## The tables of a well-formed TROM -/

/-- A valid table ends in 0 (41_range_decoder.md R137). -/
theorem getLast?_of_validIcdf {t : List Byte} (h : validIcdf t = true) : t.getLast? = some 0 := by
  induction t with
  | nil => cases h
  | cons b r ih =>
    cases r with
    | nil => simpa [validIcdf] using h
    | cons c r =>
      rw [validIcdf, Bool.and_eq_true] at h
      exact (List.getLast?_cons_of_ne_nil (by simp)).trans (ih h.2)

/-- The symbol decoded from a valid table lies in it (41_range_decoder.md R146). -/
theorem icdf_lt_length {t : List Byte} (h : validIcdf t = true) (buf : List Byte) (c : Coder) :
    (c.icdf buf t).1 < t.length := by
  have hlt := icdfSearch_lt (r := c.rd.rng.toNat / 256) (d := c.rd.val.toNat) (u := c.rd.rng.toNat) (k := 0)
    (getLast?_of_validIcdf h)
  rwa [Nat.zero_add] at hlt

@[simp] theorem length_romTable (m : Memory) (off n : Nat) : (romTable m off n).length = n := Memory.length_load _ _ _

@[simp] theorem length_pulseIcdf (m : Memory) (r : Nat) : (pulseIcdf m r).length = 18 := length_romTable _ _ _

theorem signIcdf_eq (m : Memory) (i : Nat) : signIcdf m i = [m.read (0x2390 + i), 0] := by
  rw [signIcdf, romTable, Memory.load_succ, Memory.load_zero, ← Nat.add_assoc]
  rfl

/-- The tables of TROM that R52 asks to be valid. -/
structure ValidTables (m : Memory) : Prop where
  rate : ∀ r < 2, validIcdf (rateIcdf m r) = true
  pulse : ∀ r < 10, validIcdf (pulseIcdf m r) = true
  shell : ∀ l < 4, ∀ j < 16, validIcdf (shellIcdf m l (j + 1)) = true
  lsb : validIcdf (lsbIcdf m) = true
  seed : validIcdf (seedIcdf m) = true

theorem validTables_of_tromWf {m : Memory} (h : m.tromWf = true) : ValidTables m := by
  simp only [Memory.tromWf, Bool.and_eq_true, List.all_eq_true, List.mem_range] at h
  obtain ⟨⟨⟨⟨⟨⟨hrate, hpulse⟩, hshell⟩, hlsb⟩, hseed⟩, -⟩, -⟩ := h
  exact ⟨hrate, hpulse, hshell, hlsb, hseed⟩

section
variable {m : Memory} (h : ValidTables m) (buf : List Byte) (c : Coder)
include h

theorem rate_symbol_le {r : Nat} (hr : r < 2) : (c.icdf buf (rateIcdf m r)).1 ≤ 8 := by
  have hlt := icdf_lt_length (h.rate r hr) buf c
  rw [rateIcdf, length_romTable] at hlt
  exact Nat.le_of_lt_succ hlt

theorem pulse_symbol_le {r : Nat} (hr : r < 10) : (c.icdf buf (pulseIcdf m r)).1 ≤ 17 := by
  have hlt := icdf_lt_length (h.pulse r hr) buf c
  rw [length_pulseIcdf] at hlt
  exact Nat.le_of_lt_succ hlt

theorem lsb_symbol_le : (c.icdf buf (lsbIcdf m)).1 ≤ 1 := by
  have hlt := icdf_lt_length h.lsb buf c
  rw [lsbIcdf, length_romTable] at hlt
  exact Nat.le_of_lt_succ hlt

/-- The lower half of a partition gets at most its pulses (42_excitation.md R165). -/
theorem split_le {l p : Nat} (hl : l < 4) (hp : p ≤ 16) : (split buf m l p c).1 ≤ p := by
  unfold split
  split
  · exact Nat.zero_le p
  · obtain ⟨j, rfl⟩ : ∃ j, p = j + 1 := ⟨p - 1, by omega⟩
    have hlt := icdf_lt_length (h.shell l hl j (by omega)) buf c
    rw [shellIcdf, length_romTable] at hlt
    exact Nat.le_of_lt_succ hlt

end

/-! ## EXC_SEED -/

/-- ICDF over a table of the memory that ends in 0: the symbol of the interval, and the registers of the interval,
normalized (41_range_decoder.md R138). -/
theorem icdf_load {s : State} {base n : Nat} (hlast : s.mem.read (base + n) = 0) :
    ∃ k ≤ n, SymbolAt s.rd (fun j => (s.mem.read (base + j)).toNat) k ∧
      s.coder.icdf s.bitstream (s.mem.load base (n + 1)) =
        (k, s.checkedCoder (normalize s.bitstream
          (afterSymbol s.rd (fun j => (s.mem.read (base + j)).toNat) k))) := by
  obtain ⟨k, hk, heq, hle, hlt⟩ :=
    icdfSearch_spec (r := s.rd.rng.toNat / 256) (d := s.rd.val.toNat)
      ((getLast?_load s.mem base n).trans (congrArg some hlast)) s.rd.rng.toNat 0
  rw [Memory.length_load] at hk
  have byte {j : Nat} (hj : j ≤ k) : (s.mem.load base (n + 1)).getD j 0 = s.mem.read (base + j) :=
    Memory.getD_load _ (by omega)
  rw [byte (Nat.le_refl k)] at heq hle
  rw [byte (Nat.sub_le k 1), Nat.zero_add] at heq
  refine ⟨k, Nat.le_of_lt_succ hk, ⟨hle, fun j hj => ?_⟩, ?_⟩
  · have hbyte := hlt j hj
    rwa [byte (Nat.le_of_lt hj)] at hbyte
  · unfold Coder.icdf
    simp only [State.coder, heq]
    rfl

/-- Settles O26: the table of a well-formed TROM ends in 0, so the search finds a symbol of it. -/
theorem excSeedDecodesTheSeed : Obligations.ExcSeedDecodesTheSeed := by
  intro s hb hv htrom
  have hlast : s.mem.read (0x2384 + 3) = 0 :=
    ((Memory.validIcdf_load s.mem 0x2384 3).mp (validTables_of_tromWf htrom).seed).2
  obtain ⟨k, hk, hsym, hicdf⟩ := icdf_load hlast
  have hseed : s.coder.icdf s.bitstream (seedIcdf s.mem) = _ := hicdf
  refine ⟨_, k, exec_eq_worked_of_tromWf ⟨hb, checkInit_valid hv⟩ htrom, Nat.lt_succ_of_le hk, hsym, ?_, ?_⟩
  all_goals
    simp only [State.worked, workOf, excSeed, hseed, State.setCoder, checkedCoder_rd, checkedCoder_exh,
      State.completed, pending_of_idle hb]

end Sys2Proof.Machine
end

section
/-! The stages of EXC_DECODE one by one: the escapes of a pulse count, the splits of a shell, the LSBs and the sign of a
sample (42_excitation.md R164 to R167). -/

namespace Sys2Proof.Machine

/-! ## Pulse counts -/

/-- The table of the symbol after the escape number `j` of a block (42_excitation.md R164). -/
def escapeTable (m : Memory) (j : Nat) : List Byte :=
  if j = 10 then (pulseIcdf m 9).drop 1 else pulseIcdf m 9

/-- The count symbol number `j` of a block, were every symbol before it an escape, and the range decoder after it
(42_excitation.md R164). -/
def countSymbol (buf : List Byte) (m : Memory) (rate : Nat) (c : Coder) : Nat → Nat × Coder
  | 0 => c.icdf buf (pulseIcdf m rate)
  | j + 1 => (countSymbol buf m rate c j).2.icdf buf (escapeTable m (j + 1))

/-- The tables of R164 by their offsets in TROM. -/
theorem escapeTable_eq (m : Memory) (j : Nat) :
    escapeTable m j = if j = 10 then romTable m 0x0C3 17 else romTable m 0x0C2 18 := by
  rw [escapeTable, pulseIcdf, romTable, Memory.drop_load]
  rfl

/-- A valid table of more than one byte is valid without its first byte. -/
theorem validIcdf_drop_one {t : List Byte} (h : validIcdf t = true) (hlen : 2 ≤ t.length) :
    validIcdf (t.drop 1) = true := by
  match t with
  | [] | [b] => simp at hlen
  | b :: c :: r => exact (Bool.and_eq_true _ _ ▸ h).2

section
variable {m : Memory} (h : ValidTables m) (buf : List Byte)
include h

theorem countSymbol_le {rate : Nat} (hrate : rate ≤ 8) (c : Coder) (j : Nat) :
    (countSymbol buf m rate c j).1 ≤ 17 ∧ (j = 10 → (countSymbol buf m rate c j).1 ≤ 16) := by
  cases j with
  | zero => exact ⟨pulse_symbol_le h buf c (by omega), nofun⟩
  | succ j =>
    rw [countSymbol, escapeTable]
    split <;> rename_i hten
    · have hlt := icdf_lt_length (validIcdf_drop_one (h.pulse 9 (by decide)) (by simp)) buf
        (countSymbol buf m rate c j).2
      rw [List.length_drop, length_pulseIcdf] at hlt
      exact ⟨by omega, fun _ => by omega⟩
    · exact ⟨pulse_symbol_le h buf _ (by decide), fun hj => absurd hj hten⟩

/-- The escape loop ends at the first symbol that is no escape, at the latest after the tenth escape (R164). -/
theorem escapeLoop_countSymbol {rate : Nat} (hrate : rate ≤ 8) (c : Coder) (n k : Nat) (hk : k + n = 10) :
    ∃ nls, k ≤ nls ∧ nls ≤ 10 ∧ (countSymbol buf m rate c nls).1 ≤ 16 ∧
      (∀ j, k ≤ j → j < nls → (countSymbol buf m rate c j).1 = 17) ∧
      escapeLoop buf m n { sum := (countSymbol buf m rate c k).1, nls := k } (countSymbol buf m rate c k).2 =
        ({ sum := (countSymbol buf m rate c nls).1, nls := nls }, (countSymbol buf m rate c nls).2) := by
  induction n generalizing k with
  | zero => exact ⟨k, Nat.le_refl k, by omega, (countSymbol_le h buf hrate c k).2 hk, fun j _ _ => by omega, rfl⟩
  | succ n ih =>
    rw [escapeLoop]
    split <;> rename_i hesc
    · obtain ⟨nls, hle, hten, hlast, hesc', heq⟩ := ih (k + 1) (by omega)
      refine ⟨nls, by omega, hten, hlast, fun j hj hlt => ?_, heq⟩
      obtain rfl | hj' := Nat.eq_or_lt_of_le hj
      · exact hesc
      · exact hesc' j hj' hlt
    · have hle := (countSymbol_le h buf hrate c k).1
      exact ⟨k, Nat.le_refl k, by omega, by simp only at hesc; omega, fun j _ _ => by omega, rfl⟩

/-- The count of a block: the first count symbol that is no escape, and the escapes before it. -/
theorem pulseCount_countSymbol {rate : Nat} (hrate : rate ≤ 8) (c : Coder) :
    ∃ nls ≤ 10, (countSymbol buf m rate c nls).1 ≤ 16 ∧ (∀ j < nls, (countSymbol buf m rate c j).1 = 17) ∧
      pulseCount buf m rate c =
        ({ sum := (countSymbol buf m rate c nls).1, nls := nls }, (countSymbol buf m rate c nls).2) := by
  obtain ⟨nls, -, hten, hlast, hesc, heq⟩ := escapeLoop_countSymbol h buf hrate c 10 0 rfl
  exact ⟨nls, hten, hlast, fun j => hesc j (Nat.zero_le j), heq⟩

theorem pulseCount_bounds {rate : Nat} (hrate : rate ≤ 8) (c : Coder) :
    (pulseCount buf m rate c).1.sum ≤ 16 ∧ (pulseCount buf m rate c).1.nls ≤ 10 := by
  obtain ⟨nls, hten, hlast, -, heq⟩ := pulseCount_countSymbol h buf hrate c
  rw [heq]
  exact ⟨hlast, hten⟩

end

/-- Settles O28: the count symbols and the range decoder after each are the witnesses. -/
theorem pulseCountFollowsTheEscapes : Obligations.PulseCountFollowsTheEscapes := by
  intro buf m rate c htrom hrate
  obtain ⟨nls, hten, hlast, hesc, heq⟩ := pulseCount_countSymbol (validTables_of_tromWf htrom) buf hrate c
  refine ⟨fun j => (countSymbol buf m rate c j).1, fun j => (countSymbol buf m rate c j).2, nls, rfl, hten, hlast,
    fun j hj => ⟨hesc j hj, ?_⟩, heq⟩
  rw [← escapeTable_eq]
  rfl

/-! ## Shells -/

/-- A partition without pulses takes no symbol (42_excitation.md R165). -/
theorem shell_zero (buf : List Byte) (m : Memory) (n : Nat) (c : Coder) :
    shell buf m n 0 c = (List.replicate (2 ^ n) 0, c) := by
  induction n with
  | zero => rfl
  | succ l ih =>
    simp only [shell, split, if_true, Nat.sub_zero, ih, List.replicate_append_replicate, pow_succ, Nat.mul_two]

/-- The two halves of a partition share its pulses. -/
theorem sum_shell {m : Memory} (h : ValidTables m) (buf : List Byte) {n p : Nat} (hn : n ≤ 4) (hp : p ≤ 16)
    (c : Coder) : (shell buf m n p c).1.sum = p := by
  induction n generalizing p c with
  | zero => exact List.sum_singleton
  | succ l ih =>
    have ha := split_le h buf c (l := l) (by omega) hp
    rw [shell, List.sum_append, ih (by omega) (by omega), ih (by omega) (by omega)]
    omega

/-- Settles O27: the recursion of the shell is the preorder, and the sum follows from what a split can answer. -/
theorem shellSplitsKeepThePulseCount : Obligations.ShellSplitsKeepThePulseCount := by
  intro buf m n p c htrom hn hp
  have h := validTables_of_tromWf htrom
  refine ⟨length_shell buf m n p c, sum_shell h buf hn hp c, ?_, ?_, ?_⟩
  · rintro rfl
    exact shell_zero buf m n c
  · rintro rfl
    rfl
  · rintro l rfl
    exact ⟨(split buf m l p c).1, (split buf m l p c).2, _, _, _, _, rfl, split_le h buf c (by omega) hp, rfl, rfl, rfl⟩

/-! ## LSBs -/

/-- The last level of the LSB extension (42_excitation.md R166). -/
theorem extendSample_succ (buf : List Byte) (m : Memory) (n q : Nat) (c : Coder) :
    extendSample buf m (n + 1) q c =
      (2 * (extendSample buf m n q c).1 + ((extendSample buf m n q c).2.icdf buf (lsbIcdf m)).1,
        ((extendSample buf m n q c).2.icdf buf (lsbIcdf m)).2) := by
  induction n generalizing q c with
  | zero => rfl
  | succ n ih =>
    rw [extendSample, ih]
    rfl

/-- Each level doubles the magnitude and adds at most 1. -/
theorem extendSample_lt {m : Memory} (h : ValidTables m) (buf : List Byte) (n q : Nat) (c : Coder) :
    (extendSample buf m n q c).1 < (q + 1) * 2 ^ n := by
  induction n with
  | zero => simp [extendSample]
  | succ n ih =>
    have hsym := lsb_symbol_le h buf (extendSample buf m n q c).2
    rw [extendSample_succ, pow_succ, ← Nat.mul_assoc]
    simp only
    omega

/-! ## Signs -/

/-- The word of a block that counts at most 16 pulses has the count in its low five bits (42_excitation.md R164). -/
theorem word_eq {b : BlockCount} (hsum : b.sum ≤ 16) : b.word = b.sum + 32 * b.nls := by
  rw [BlockCount.word, Nat.shiftLeft_eq, Nat.or_comm, Nat.mul_comm,
    ← Nat.two_pow_add_eq_or_of_lt (i := 5) (by omega), Nat.add_comm]

/-- The table of a block's signs by its place in TROM (42_excitation.md R167). -/
theorem signIcdf_signIndex (m : Memory) (cfg : Cfg) {b : BlockCount} (hsum : b.sum ≤ 16) :
    signIcdf m (signIndex cfg b) =
      [m.read (0x2390 + (7 * (cfg.qoff.toNat + 2 * cfg.stype.toNat) + min b.sum 6)), 0] := by
  rw [signIcdf_eq, signIndex, word_eq hsum, Nat.add_mul_mod_self_left, Nat.mod_eq_of_lt (by omega)]

/-- A sign does not change the magnitude (42_excitation.md R167). -/
theorem natAbs_signSample (buf t : List Byte) (q : Nat) (c : Coder) : (signSample buf t q c).1.natAbs = q := by
  unfold signSample
  split_ifs with hq
  · exact hq.symm
  · simp only
    split <;> simp

/-- Settles O29: the levels up to each one are the witnesses for the LSBs, the stages of the block for its signs. -/
theorem lsbsAndSignsFollowTheirSymbols : Obligations.LsbsAndSignsFollowTheirSymbols := by
  intro buf m c
  refine ⟨fun n q => ?_, fun cfg b mags hsum => ?_⟩
  · refine ⟨fun j => (extendSample buf m j q c).1, fun j => (extendSample buf m j q c).2, rfl, rfl, fun j _ => ?_, rfl⟩
    simp only [extendSample_succ]
    exact ⟨_, rfl, rfl⟩
  · obtain ⟨cs, h0, hn, hs⟩ :=
      mapCoder_stages (signSample buf (signIcdf m (signIndex cfg b))) 0 0 mags c
    refine ⟨cs, h0, mapCoder_length _ _ _, hn.symm, fun j hj => ?_⟩
    have hstage := hs j hj
    simp only [blockSigns, signIcdf_signIndex m cfg hsum] at hstage ⊢
    rw [signSample] at hstage
    split <;> rename_i hq
    · rw [if_pos hq] at hstage
      exact Prod.mk.inj hstage
    · rw [if_neg hq] at hstage
      obtain ⟨hy, hc⟩ := Prod.mk.inj hstage
      exact ⟨_, Prod.ext rfl hc, hy⟩

end Sys2Proof.Machine
end

section
/-! EXC_RECON: the samples and the LCG state in closed form, and what is stored of them (42_excitation.md R169,
R170). -/

namespace Sys2Proof.Machine

/-! ## Elements after a store -/

theorem getD_map_range (f : Nat → Int) {n i : Nat} (h : i < n) : ((List.range n).map f).getD i 0 = f i := by
  simp [List.getD, h]

theorem getD_padZero_lt {n i : Nat} {vs : List Int} (h : i < vs.length) : (padZero n vs).getD i 0 = vs.getD i 0 :=
  List.getD_append _ _ _ _ h

theorem getD_padZero_ge {n i : Nat} {vs : List Int} (h : vs.length ≤ i) : (padZero n vs).getD i 0 = 0 := by
  rw [padZero, List.getD_append_right _ _ _ _ h]
  by_cases hi : i - vs.length < n - vs.length
  · exact List.getD_replicate _ hi
  · exact List.getD_eq_default _ _ (by rw [List.length_replicate]; omega)

/-- A 16-bit element after a store of elements in its range (20_memory.md R65). -/
theorem half_storeHalves_of_range (m : Memory) (base : Nat) {vs : List Int} {i : Nat} {v : Int} (hi : i < vs.length)
    (hv : vs.getD i 0 = v) (hlo : -(2 ^ 15) ≤ v) (hhi : v < 2 ^ 15) :
    (m.storeHalves base vs).half (base + 2 * i) = v := by
  rw [Memory.half_storeHalves m base vs hi, hv]
  exact BitVec.toInt_ofInt_eq_self (by decide) hlo hhi

/-- A word element after a store of elements in its range (20_memory.md R65). -/
theorem word_storeWords_of_range (m : Memory) (base : Nat) {vs : List Int} {i : Nat} {v : Int} (hi : i < vs.length)
    (hv : vs.getD i 0 = v) (hlo : -(2 ^ 31) ≤ v) (hhi : v < 2 ^ 31) :
    ((m.storeWords base vs).word (base + 4 * i)).toInt = v := by
  rw [Memory.word_storeWords m base vs hi, hv]
  exact BitVec.toInt_ofInt_eq_self (by decide) hlo hhi

/-! ## EXC_RECON -/

/-- The LCG step in numbers (42_excitation.md R169). -/
theorem rand_eq (s : Word) : rand s = BitVec.ofNat 32 (907633515 + s.toNat * 196314165) := by
  rw [BitVec.ofNat_add, BitVec.ofNat_mul, BitVec.ofNat_toNat, BitVec.setWidth_eq]
  rfl

/-- Bit 31 of the advanced LCG state (42_excitation.md R170). -/
theorem rand_bit31 (s : Word) :
    (rand s).getLsbD 31 = decide (2 ^ 31 ≤ (907633515 + s.toNat * 196314165) % 2 ^ 32) := by
  have htop (w : Word) : w.getLsbD 31 = decide (2 ^ 31 ≤ w.toNat) :=
    (BitVec.msb_eq_getLsbD_last w).symm.trans (BitVec.msb_eq_decide w)
  rw [htop, rand_eq, BitVec.toNat_ofNat]

theorem reconLoop_nil (off adj : Int) (s : Word) : reconLoop off adj [] s = ([], s) := by rw [reconLoop]

theorem reconLoop_cons (off adj p : Int) (ps : List Int) (s : Word) :
    reconLoop off adj (p :: ps) s =
      (reconSample off adj p (rand s) :: (reconLoop off adj ps (rand s + BitVec.ofInt 32 p)).1,
        (reconLoop off adj ps (rand s + BitVec.ofInt 32 p)).2) := by
  rw [reconLoop]

/-- The last sample of EXC_RECON goes on from the LCG state that the others leave. -/
theorem reconLoop_append (off adj : Int) (ps : List Int) (p : Int) (s : Word) :
    reconLoop off adj (ps ++ [p]) s =
      ((reconLoop off adj ps s).1 ++ [reconSample off adj p (rand (reconLoop off adj ps s).2)],
        rand (reconLoop off adj ps s).2 + BitVec.ofInt 32 p) := by
  induction ps generalizing s with
  | nil => rw [List.nil_append, reconLoop_cons, reconLoop_nil, reconLoop_nil, List.nil_append]
  | cons q ps ih => rw [List.cons_append, reconLoop_cons, reconLoop_cons, ih, List.cons_append]

/-- The samples of EXC_RECON and the LCG state after them (42_excitation.md R170). -/
theorem reconLoop_eq (off adj : Int) (p : Nat → Int) (seed : Word) (n : Nat) :
    reconLoop off adj ((List.range n).map p) seed =
      ((List.range n).map fun i => reconSample off adj (p i) (rand (lcgState seed p i)), lcgState seed p n) := by
  induction n with
  | zero => rfl
  | succ n ih =>
    rw [List.range_succ, List.map_append, List.map_singleton, reconLoop_append, ih, List.map_append, List.map_singleton,
      lcgState, rand_eq]

/-- One sample as R170 writes it. -/
theorem reconSample_eq (off adj p : Int) (s : Word) :
    reconSample off adj p (rand s) =
      let e := p * 16384 + (if 0 < p then -(adj * 16) else if p < 0 then adj * 16 else 0) + off * 16
      if 2 ^ 31 ≤ (907633515 + s.toNat * 196314165) % 2 ^ 32 then -e else e := by
  have hscaled : (if p > 0 then p * 2 ^ 14 - adj * 2 ^ 4 else if p < 0 then p * 2 ^ 14 + adj * 2 ^ 4 else p * 2 ^ 14) =
      p * 16384 + (if 0 < p then -(adj * 16) else if p < 0 then adj * 16 else 0) := by
    split_ifs <;> omega
  simp only [reconSample, hscaled, rand_bit31, decide_eq_true_eq]
  rfl

/-- A sample from a 16-bit pulse and the bytes of TROM fits in 32 bits. -/
theorem reconSample_range {off adj : Byte} {p : Int} (hlo : -(2 ^ 15) ≤ p) (hhi : p < 2 ^ 15) (s : Word) :
    -(2 ^ 31) ≤ reconSample off.toNat adj.toNat p (rand s) ∧ reconSample off.toNat adj.toNat p (rand s) < 2 ^ 31 := by
  have hoff := off.isLt
  have hadj := adj.isLt
  rw [reconSample_eq]
  extract_lets e
  have he : -(2 ^ 31) < e ∧ e < 2 ^ 31 := by
    simp only [e]
    split_ifs <;> omega
  split <;> omega

/-- A 16-bit element lies in its range. -/
theorem half_range (m : Memory) (a : Nat) : -(2 ^ 15) ≤ m.half a ∧ m.half a < 2 ^ 15 :=
  ⟨BitVec.le_toInt _, BitVec.toInt_lt⟩

/-- Settles O32: the samples and the LCG state in closed form, stored where they fit. -/
theorem excReconScalesAndDithers : Obligations.ExcReconScalesAndDithers := by
  intro s hb hbw hstype htrom
  refine ⟨_, exec_eq_worked_of_tromWf ⟨hb, checkFrameCfg_legal hbw hstype⟩ htrom, ?_⟩
  extract_lets p off adj st
  have hloop : reconLoop (qoffQ10 s.mem s.cfg.stype.toNat s.cfg.qoff.toNat) (qlevelAdjQ10 s.mem)
      (s.mem.halves Buffer.pulses.base s.cfg.frameLen) (s.seed.setWidth 32) = _ :=
    reconLoop_eq off adj p (s.seed.setWidth 32) s.cfg.frameLen
  have hmem : (s.worked .excRecon).mem = s.mem.storeWords Buffer.exc.base (padZero 320
      ((List.range s.cfg.frameLen).map fun i => reconSample off adj (p i) (rand (st i)))) := by
    simp only [State.worked, workOf, excRecon, hloop, st]
  have hlen := frameLen_le s.cfg
  refine ⟨?_, fun i hi => ?_, fun i hi hi' => ?_, fun a => excRecon_read_outside s⟩
  · simp only [State.worked, workOf, excRecon, hloop, pending_of_idle hb]
    rfl
  · refine Eq.trans ?_ (reconSample_eq off adj (p i) (st i))
    rw [State.elem32, hmem]
    obtain ⟨hlo, hhi⟩ := half_range s.mem (Buffer.pulses.base + 2 * i)
    obtain ⟨hlo', hhi'⟩ := reconSample_range hlo hhi (st i)
    refine word_storeWords_of_range _ _ ?_ ?_ hlo' hhi'
    · rw [length_padZero (by simpa using hlen)]
      omega
    · rw [getD_padZero_lt (by simpa using hi), getD_map_range _ hi]
  · rw [State.elem32, hmem]
    refine word_storeWords_of_range _ _ ?_ (getD_padZero_ge (by simpa using hi)) (by decide) (by decide)
    rwa [length_padZero (by simpa using hlen)]

end Sys2Proof.Machine
end

section
/-! EXC_DECODE: its five stages in order, the bounds of what they decode, and what is stored of it (42_excitation.md
R160, R163 to R168, R171). -/

namespace Sys2Proof.Machine

/-! ## The stages of a frame -/

/-- What the five stages of EXC_DECODE decode, and the range decoder after each of them (42_excitation.md R160). -/
structure FrameStages where
  rate : Nat
  blk : Nat → BlockCount
  mags : Nat → List Nat
  q : Nat → Nat
  y : Nat → Int
  afterRate : Coder
  afterCounts : Coder
  afterShells : Coder
  afterLsbs : Coder
  afterSigns : Coder

/-- The stages are those of R168 on a frame of `cfg`, from the range decoder `c` on. -/
structure FrameStages.Decodes (f : FrameStages) (buf : List Byte) (m : Memory) (cfg : Cfg) (c : Coder) : Prop where
  rate : (f.rate, f.afterRate) = c.icdf buf (romTable m (9 * (cfg.stype.toNat / 2)) 9)
  counts : Stages (fun _ => pulseCount buf m f.rate) cfg.numBlocks f.afterRate f.blk f.afterCounts
  shells : Stages (fun b => shell buf m 4 (f.blk b).sum) cfg.numBlocks f.afterCounts f.mags f.afterShells
  lsbs : Stages (fun i => extendSample buf m (f.blk (i / 16)).nls ((f.mags (i / 16)).getD (i % 16) 0))
    (16 * cfg.numBlocks) f.afterShells f.q f.afterLsbs
  signs : Stages (fun i => signStage buf m cfg (f.blk (i / 16)).sum (f.q i)) (16 * cfg.numBlocks) f.afterLsbs f.y
    f.afterSigns

/-- The stage of a sample's sign is that of its block (42_excitation.md R167). -/
theorem signStage_eq (buf : List Byte) (m : Memory) (cfg : Cfg) {b : BlockCount} (hsum : b.sum ≤ 16) (q : Nat) :
    signStage buf m cfg b.sum q = signSample buf (signIcdf m (signIndex cfg b)) q := by
  rw [signIcdf_signIndex m cfg hsum]
  rfl

/-- What every run of a stage answers, the stage answers among the others. -/
theorem stages_result {α : Type} {f : Nat → Coder → α × Coder} {n : Nat} {c c' : Coder} {x : Nat → α}
    (h : Stages f n c x c') {P : α → Prop} {j : Nat} (hj : j < n) (hf : ∀ c, P (f j c).1) : P (x j) := by
  obtain ⟨cs, -, -, hs⟩ := h
  obtain ⟨hx, -⟩ := Prod.mk.inj (hs j hj)
  exact hx ▸ hf (cs j)

namespace FrameStages.Decodes

section
variable {f : FrameStages} {buf : List Byte} {m : Memory} {cfg : Cfg} {c : Coder} (hf : f.Decodes buf m cfg c)
  (h : ValidTables m)
include hf h

/-- R163: the rate level. -/
theorem rate_le : f.rate ≤ 8 := by
  have hle := rate_symbol_le h buf c (r := cfg.stype.toNat / 2) (by have := cfg.stype.isLt; omega)
  rw [rateIcdf, Nat.zero_add, ← hf.rate] at hle
  exact hle

/-- R164: the count of a block. -/
theorem blk_bounds {b : Nat} (hb : b < cfg.numBlocks) : (f.blk b).sum ≤ 16 ∧ (f.blk b).nls ≤ 10 :=
  stages_result hf.counts (P := fun x => x.sum ≤ 16 ∧ x.nls ≤ 10) hb (pulseCount_bounds h buf (hf.rate_le h))

/-- R165: the magnitudes of a block before LSB extension. -/
theorem mags_shell {b : Nat} (hb : b < cfg.numBlocks) : (f.mags b).length = 16 ∧ (f.mags b).sum = (f.blk b).sum :=
  stages_result hf.shells (P := fun x => x.length = 16 ∧ x.sum = (f.blk b).sum) hb fun c =>
    ⟨length_shell _ _ _ _ c, sum_shell h buf (Nat.le_refl 4) (hf.blk_bounds h hb).1 c⟩

/-- A magnitude before LSB extension is at most the count of its block. -/
theorem mags_getD_le {b : Nat} (hb : b < cfg.numBlocks) (j : Nat) : (f.mags b).getD j 0 ≤ (f.blk b).sum := by
  obtain ⟨-, hsum⟩ := hf.mags_shell h hb
  rw [← hsum]
  by_cases hj : j < (f.mags b).length
  · rw [List.getD_eq_getElem _ _ hj]
    exact List.le_sum_of_mem (List.getElem_mem hj)
  · rw [List.getD_eq_default _ _ (by omega)]
    exact Nat.zero_le _

omit h in
/-- R166: a block without LSB levels keeps its magnitudes. -/
theorem q_eq_mags {i : Nat} (hi : i < 16 * cfg.numBlocks) (hnls : (f.blk (i / 16)).nls = 0) :
    f.q i = (f.mags (i / 16)).getD (i % 16) 0 :=
  stages_result hf.lsbs (P := (· = (f.mags (i / 16)).getD (i % 16) 0)) hi fun c => by rw [hnls]; rfl

/-- R171: ten levels on sixteen pulses. -/
theorem q_le {i : Nat} (hi : i < 16 * cfg.numBlocks) : f.q i ≤ 17407 := by
  have hb : i / 16 < cfg.numBlocks := by omega
  obtain ⟨hsum, hnls⟩ := hf.blk_bounds h hb
  have hmag := hf.mags_getD_le h hb (i % 16)
  refine stages_result hf.lsbs (P := (· ≤ 17407)) hi fun c => Nat.le_of_lt_succ ?_
  calc (extendSample buf m (f.blk (i / 16)).nls ((f.mags (i / 16)).getD (i % 16) 0) c).1
      < ((f.mags (i / 16)).getD (i % 16) 0 + 1) * 2 ^ (f.blk (i / 16)).nls := extendSample_lt h buf _ _ c
    _ ≤ 17 * 2 ^ 10 := Nat.mul_le_mul (by omega) (Nat.pow_le_pow_right (by decide) hnls)

/-- R167: a sign does not change the magnitude. -/
theorem natAbs_y {i : Nat} (hi : i < 16 * cfg.numBlocks) : (f.y i).natAbs = f.q i :=
  stages_result hf.signs (P := (·.natAbs = f.q i)) hi fun c => by
    rw [signStage_eq buf m cfg (hf.blk_bounds h (by omega)).1]
    exact natAbs_signSample _ _ _ c

/-- R171: a block without LSB levels has as many pulses as it counts. -/
theorem sum_natAbs_y {b : Nat} (hb : b < cfg.numBlocks) (hnls : (f.blk b).nls = 0) :
    ((List.range 16).map fun j => (f.y (16 * b + j)).natAbs).sum = (f.blk b).sum := by
  obtain ⟨hlen, hsum⟩ := hf.mags_shell h hb
  have hmag {j : Nat} (hj : j < 16) : (f.y (16 * b + j)).natAbs = (f.mags b).getD j 0 := by
    have hdiv : (16 * b + j) / 16 = b := by omega
    have hq := hf.q_eq_mags (i := 16 * b + j) (by omega) (by rwa [hdiv])
    rw [hf.natAbs_y h (by omega), hq, hdiv, Nat.mul_add_mod, Nat.mod_eq_of_lt hj]
  rw [← hsum]
  congr 1
  refine List.ext_getElem (by simp [hlen]) fun j hj _ => ?_
  rw [List.length_map, List.length_range] at hj
  rw [List.getElem_map, List.getElem_range, hmag hj, List.getD_eq_getElem _ _ (by omega)]

end

end FrameStages.Decodes

/-! ## EXC_DECODE runs the stages -/

/-- Lists of 16 elements laid end to end: element `i` is element `i % 16` of list `i / 16`. -/
theorem getD_flatten {α : Type} (d : α) {ls : List (List α)} (h : ∀ l ∈ ls, l.length = 16) (i : Nat) :
    ls.flatten.getD i d = (ls.getD (i / 16) []).getD (i % 16) d := by
  induction ls generalizing i with
  | nil => rfl
  | cons l ls ih =>
    obtain ⟨hl, hls⟩ := List.forall_mem_cons.mp h
    rw [List.flatten_cons]
    by_cases hi : i < 16
    · rw [List.getD_append _ _ _ _ (by omega), Nat.div_eq_of_lt hi, Nat.mod_eq_of_lt hi, List.getD_cons_zero]
    · rw [List.getD_append_right _ _ _ _ (by omega), hl, ih hls, show i / 16 = (i - 16) / 16 + 1 by omega,
        List.getD_cons_succ, show (i - 16) % 16 = i % 16 by omega]

theorem getD_zip {α β : Type} {as : List α} {bs : List β} (d : α) (e : β) {j : Nat} (ha : j < as.length)
    (hb : j < bs.length) : (as.zip bs).getD j (d, e) = (as.getD j d, bs.getD j e) := by
  simp [List.getD, ha, hb]

/-- A stage on every block in order, where each block has 16 samples: the results of a block are a list of 16. -/
theorem mapCoder_getD_length {α β : Type} {f : α → Coder → List β × Coder} {as : List α} {c : Coder}
    (hf : ∀ a ∈ as, ∀ c, (f a c).1.length = 16) : ∀ l ∈ (mapCoder f as c).1, l.length = 16 :=
  mapCoder_forall (P := (· ∈ as)) (fun a c ha => hf a ha c) (fun _ ha => ha) c

/-- A stage on every sample of every block, each of 16 samples, is that stage on every sample of the frame in
order (42_excitation.md R160). -/
theorem stages_blocks {α β : Type} (g : BlockCount → α → Coder → β × Coder) (d : α) (e : β) {bs : List BlockCount}
    {ls : List (List α)} (hlen : ls.length = bs.length) (h16 : ∀ l ∈ ls, l.length = 16) (c : Coder) :
    Stages (fun i => g (bs.getD (i / 16) ⟨0, 0⟩) ((ls.getD (i / 16) []).getD (i % 16) d)) (16 * bs.length) c
      (fun i => ((mapCoder (fun x => mapCoder (g x.1) x.2) (bs.zip ls) c).1.getD (i / 16) []).getD (i % 16) e)
      (mapCoder (fun x => mapCoder (g x.1) x.2) (bs.zip ls) c).2 := by
  have hzip : (bs.zip ls).length = bs.length := by rw [List.length_zip, hlen, Nat.min_self]
  have hblocks := mapCoder_stages (fun x : BlockCount × List α => mapCoder (g x.1) x.2) (⟨0, 0⟩, []) [] (bs.zip ls) c
  rw [hzip] at hblocks
  refine stages_samples (fun b => g (bs.getD b ⟨0, 0⟩)) (ls.getD · []) _ d e bs.length (fun b hb => ?_)
    (stages_congr hblocks (fun b hb => ?_) fun _ _ => rfl)
  · rw [List.getD_eq_getElem _ _ (hlen ▸ hb)]
    exact h16 _ (List.getElem_mem _)
  · rw [getD_zip _ _ hb (hlen ▸ hb)]

/-- The five stages are what EXC_DECODE decodes, in order. -/
theorem decodeFrame_decodes {m : Memory} (h : ValidTables m) (buf : List Byte) (cfg : Cfg) (c : Coder) :
    ∃ f : FrameStages, f.Decodes buf m cfg c ∧ f.rate = (decodeFrame buf m cfg c).rate ∧
      f.blk = ((decodeFrame buf m cfg c).blocks.getD · ⟨0, 0⟩) ∧
      f.y = ((decodeFrame buf m cfg c).samples.getD · 0) ∧ f.afterSigns = (decodeFrame buf m cfg c).coder := by
  unfold decodeFrame
  extract_lets rate blocks shells mags signed
  have hblocks : blocks.1.length = cfg.numBlocks := by simp [blocks]
  have hshells : shells.1.length = blocks.1.length := mapCoder_length _ _ _
  have hmags : mags.1.length = blocks.1.length := by simp [mags, hshells]
  have shell16 : ∀ l ∈ shells.1, l.length = 16 :=
    mapCoder_forall (P := fun _ => True) (fun b c _ => length_shell buf m 4 b.sum c) (fun _ _ => trivial) _
  have mag16 : ∀ l ∈ mags.1, l.length = 16 :=
    mapCoder_forall (P := fun x => x.2.length = 16) (fun x c hx => (mapCoder_length _ _ c).trans hx)
      (fun x hx => shell16 _ (List.of_mem_zip hx).2) _
  have signed16 : ∀ l ∈ signed.1, l.length = 16 :=
    mapCoder_forall (P := fun x => x.2.length = 16) (fun x c hx => (mapCoder_length _ _ c).trans hx)
      (fun x hx => mag16 _ (List.of_mem_zip hx).2) _
  have counts : Stages (fun _ => pulseCount buf m rate.1) cfg.numBlocks rate.2 (blocks.1.getD · ⟨0, 0⟩) blocks.2 := by
    simpa using mapCoder_stages (fun _ => pulseCount buf m rate.1) 0 ⟨0, 0⟩ (List.range cfg.numBlocks) rate.2
  have hrate : rate.1 ≤ 8 := rate_symbol_le h buf c (by have := cfg.stype.isLt; omega)
  refine ⟨⟨rate.1, (blocks.1.getD · ⟨0, 0⟩), (shells.1.getD · []),
    fun i => (mags.1.getD (i / 16) []).getD (i % 16) 0, (signed.1.flatten.getD · 0), rate.2, blocks.2, shells.2, mags.2,
    signed.2⟩, ⟨?_, counts, ?_, ?_, ?_⟩, rfl, rfl, rfl, rfl⟩
  · simp only [rate, rateIcdf, Nat.zero_add]
  · rw [← hblocks]
    exact mapCoder_stages (blockShell buf m) ⟨0, 0⟩ [] blocks.1 blocks.2
  · rw [← hblocks]
    exact stages_blocks (fun b => extendSample buf m b.nls) 0 0 hshells shell16 shells.2
  · have signs := stages_blocks (fun b => signSample buf (signIcdf m (signIndex cfg b))) 0 0 hmags mag16 mags.2
    rw [hblocks] at signs
    refine stages_congr signs (fun i hi => ?_) fun i _ => (getD_flatten 0 signed16 i).symm
    have hsum : (blocks.1.getD (i / 16) ⟨0, 0⟩).sum ≤ 16 :=
      stages_result counts (P := (·.sum ≤ 16)) (by omega) fun c => (pulseCount_bounds h buf hrate c).1
    exact (funext fun c => congrFun (signStage_eq buf m cfg hsum _) c).symm

/-! ## What EXC_DECODE stores -/

/-- A 16-bit element outside a store of words is that of before. -/
theorem half_storeWords_outside (m : Memory) {base a : Nat} {vs : List Int}
    (h : ∀ j < 2, Outside base (4 * vs.length) (a + j)) : (m.storeWords base vs).half a = m.half a :=
  Memory.half_congr fun j hj => Memory.read_storeWords_outside m (h j hj)

/-- The decoded frame lies in PULSES and BLK, zeros beyond its blocks (42_excitation.md R168). -/
theorem excDecode_elements {s : State} {f : FrameStages} (h : ValidTables s.mem)
    (hf : f.Decodes s.bitstream s.mem s.cfg s.coder)
    (hblk : f.blk = ((decodeFrame s.bitstream s.mem s.cfg s.coder).blocks.getD · ⟨0, 0⟩))
    (hy : f.y = ((decodeFrame s.bitstream s.mem s.cfg s.coder).samples.getD · 0)) :
    (∀ i < 320, (excDecode s).elem16 .pulses i = if i < 16 * s.cfg.numBlocks then f.y i else 0) ∧
    ∀ b < 20, (excDecode s).elem32 .blk b =
      if b < s.cfg.numBlocks then (f.blk b).sum + 32 * (f.blk b).nls else 0 := by
  have hn := numBlocks_le s.cfg
  unfold excDecode
  extract_lets d mem mem'
  have hsamples : d.samples.length = 16 * s.cfg.numBlocks := length_decodeFrame_samples _ _ _ _
  have hblocks : d.blocks.length = s.cfg.numBlocks := by simp [d, decodeFrame]
  have hpulses : (padZero 320 d.samples).length = 320 := length_padZero (by omega)
  have hwords : (padZero 20 (d.blocks.map fun b => (b.word : Int))).length = 20 :=
    length_padZero (by rw [List.length_map]; omega)
  refine ⟨fun i hi => ?_, fun b hb => ?_⟩
  · have hkept : mem'.half (Buffer.pulses.base + 2 * i) = mem.half (Buffer.pulses.base + 2 * i) :=
      half_storeWords_outside mem fun j hj => .inl (by simp only [Buffer.base]; omega)
    refine hkept.trans ?_
    split <;> rename_i hin
    · have habs := hf.natAbs_y h hin
      have hle := hf.q_le h hin
      refine half_storeHalves_of_range _ _ (by omega) ?_ (by omega) (by omega)
      rw [getD_padZero_lt (by omega), hy]
    · exact half_storeHalves_of_range _ _ (by omega) (getD_padZero_ge (by omega)) (by decide) (by decide)
  · split <;> rename_i hin
    · obtain ⟨hsum, hnls⟩ := hf.blk_bounds h hin
      refine word_storeWords_of_range _ _ (by omega) ?_ (by omega) (by omega)
      have hmap : (d.blocks.map fun b => (b.word : Int)).getD b 0 = ((d.blocks.getD b ⟨0, 0⟩).word : Int) :=
        List.getD_map _ (BlockCount.mk 0 0) _
      have hd : d.blocks.getD b ⟨0, 0⟩ = f.blk b := (congrFun hblk b).symm
      rw [getD_padZero_lt (by rw [List.length_map]; omega), hmap, hd, word_eq hsum]
    · exact word_storeWords_of_range _ _ (by omega) (getD_padZero_ge (by rw [List.length_map]; omega)) (by decide)
        (by decide)

/-- Settles O30: the completed command stores what the five stages decode. -/
theorem excDecodeWritesTheFrame : Obligations.ExcDecodeWritesTheFrame := by
  intro s hb hv hbw hstype htrom
  have h := validTables_of_tromWf htrom
  have hchk : checkOf .excDecode s = none := (checkInit_or hv _).trans (checkFrameCfg_legal hbw hstype)
  obtain ⟨f, hf, hrate, hblk, hy, hcoder⟩ := decodeFrame_decodes h s.bitstream s.cfg s.coder
  obtain ⟨hpulses, hwords⟩ := excDecode_elements h hf hblk hy
  refine ⟨s.worked .excDecode, f.rate, f.blk, f.mags, f.q, f.y, f.afterRate, f.afterCounts, f.afterShells, f.afterLsbs,
    f.afterSigns, exec_eq_worked_of_tromWf ⟨hb, hchk⟩ htrom, hf.rate, hf.counts, hf.shells, hf.lsbs, hf.signs, ?_,
    hpulses, hwords, fun a => excDecode_read_outside s⟩
  rw [hrate, hcoder]
  simp only [State.worked, workOf, excDecode, State.setCoder, State.completed, pending_of_idle hb]

/-! ## Bounds -/

/-- The bounds of R171 on the 16 samples `p` of a block and its element `w` of BLK. -/
def BlockBounded (p : Nat → Int) (w : Int) : Prop :=
  ∃ sum nls : Nat, sum ≤ 16 ∧ nls ≤ 10 ∧ w = sum + 32 * nls ∧
    (nls = 0 → ((List.range 16).map fun j => (p j).natAbs).sum = sum) ∧ (w = 0 → ∀ j < 16, p j = 0)

/-- A block beyond the frame. -/
theorem blockBounded_zero {p : Nat → Int} (hp : ∀ j < 16, p j = 0) : BlockBounded p 0 := by
  refine ⟨0, 0, by decide, by decide, rfl, fun _ => ?_, fun _ => hp⟩
  rw [List.sum_eq_zero_iff]
  simp +contextual [hp]

/-- A block of the frame: with BLK = 0 its magnitudes sum to 0. -/
theorem FrameStages.Decodes.blockBounded {f : FrameStages} {buf : List Byte} {m : Memory} {cfg : Cfg} {c : Coder}
    (hf : f.Decodes buf m cfg c) (h : ValidTables m) {b : Nat} (hb : b < cfg.numBlocks) {p : Nat → Int}
    (hp : ∀ j < 16, p j = f.y (16 * b + j)) : BlockBounded p ((f.blk b).sum + 32 * (f.blk b).nls) := by
  obtain ⟨hsum, hnls⟩ := hf.blk_bounds h hb
  have htotal (hzero : (f.blk b).nls = 0) : ((List.range 16).map fun j => (p j).natAbs).sum = (f.blk b).sum := by
    rw [← hf.sum_natAbs_y h hb hzero]
    exact congrArg List.sum (List.map_congr_left fun j hj => by rw [hp j (List.mem_range.mp hj)])
  refine ⟨_, _, hsum, hnls, rfl, htotal, fun hzero j hj => ?_⟩
  have hall := htotal (by omega)
  rw [show (f.blk b).sum = 0 by omega, List.sum_eq_zero_iff] at hall
  exact Int.natAbs_eq_zero.mp (hall _ (List.mem_map_of_mem (List.mem_range.mpr hj)))

/-- Settles O31: the stages that O30 gives are bounded, and with them what is stored. -/
theorem excDecodeIsBounded : Obligations.ExcDecodeIsBounded := by
  intro s t hb hv hbw hstype hexec
  have hchk : checkOf .excDecode s = none := (checkInit_or hv _).trans (checkFrameCfg_legal hbw hstype)
  have htrom : s.mem.tromWf = true := tromWf_of_withTrom ((exec_of_accepts ⟨hb, hchk⟩).symm.trans hexec)
  have h := validTables_of_tromWf htrom
  obtain ⟨u, rate, blk, mags, q, y, c1, c2, c3, c4, c5, hu, hrate, hcounts, hshells, hlsbs, hsigns, hregs, hpulses,
    hwords, -⟩ := excDecodeWritesTheFrame s hb hv hbw hstype htrom
  obtain rfl : u = t := Host.Outcome.next.inj (hu.symm.trans hexec)
  have hf : FrameStages.Decodes ⟨rate, blk, mags, q, y, c1, c2, c3, c4, c5⟩ s.bitstream s.mem s.cfg s.coder :=
    ⟨hrate, hcounts, hshells, hlsbs, hsigns⟩
  refine ⟨?_, fun i hi => ?_, fun b hb => ?_⟩
  · have hle : rate ≤ 8 := hf.rate_le h
    have hreg : u.rate = BitVec.ofNat 4 rate := congrArg State.rate hregs
    rw [hreg, BitVec.toNat_ofNat]
    omega
  · rw [hpulses i hi]
    split <;> rename_i hin
    · exact (hf.natAbs_y h hin).trans_le (hf.q_le h hin)
    · decide
  · change BlockBounded (fun j => u.elem16 .pulses (16 * b + j)) (u.elem32 .blk b)
    rw [hwords b hb]
    split <;> rename_i hin
    · exact hf.blockBounded h hin fun j hj => by rw [hpulses _ (by omega), if_pos (by omega)]
    · exact blockBounded_zero fun j hj => by rw [hpulses _ (by omega), if_neg (by omega)]

end Sys2Proof.Machine
end

section
/-! The checks of the subframe commands (43_synthesis.md R190, R201 to R203), and GAIN_DEQ and SYN_RESET (R200,
R204). -/

namespace Sys2Proof.Machine

/-! ## Legal gains and ready subframes -/

/-- A legal gain in numbers (10_state.md R33). -/
theorem legalGain_iff (g : Word) : legalGain g = true ↔ 0 < g.toNat ∧ g.toNat < 2 ^ 31 := by
  have htop : g.getLsbD 31 = decide (2 ^ 31 ≤ g.toNat) :=
    (BitVec.msb_eq_getLsbD_last g).symm.trans (BitVec.msb_eq_decide g)
  have hzero : g ≠ 0 ↔ 0 < g.toNat := by rw [Nat.pos_iff_ne_zero, ne_eq, ne_eq, BitVec.toNat_eq]; rfl
  rw [legalGain, htop, Bool.and_eq_true, decide_eq_true_eq, hzero, Bool.not_eq_true', decide_eq_false_iff_not, not_le]

/-- The checks of a subframe command pass on exactly the subframes that are ready (43_synthesis.md R201). -/
theorem checkSubframe_eq_none_iff (k : Nat) (s : State) : checkSubframe k s = none ↔ SubframeReady k s := by
  rw [checkSubframe, checkBandwidth, Option.or_eq_none_iff, Option.or_eq_none_iff, require_eq_none, require_eq_none,
    require_eq_none, decide_eq_true_eq, decide_eq_true_eq, legalGain_iff]
  rfl

theorem checkBandwidth_legal {s : State} (h : s.cfg.bw ≠ 3) : checkBandwidth s = none :=
  require_eq_none.mpr (decide_eq_true h)

/-- A check fails with its own error. -/
theorem require_of_not {ok : Bool} (h : ¬ ok = true) (e : ErrCode) : require ok e = some e := if_neg h

theorem checkSubframe_badCfg (k : Nat) {s : State} (h : s.cfg.bw = 3) : checkSubframe k s = some .badCfg := by
  rw [checkSubframe, checkBandwidth, require_of_not (by simpa using h), Option.some_or]

theorem checkSubframe_badArg {k : Nat} {s : State} (hbw : s.cfg.bw ≠ 3) (hk : s.cfg.numSubfr ≤ k) :
    checkSubframe k s = some .badArg := by
  rw [checkSubframe, checkBandwidth_legal hbw, require_of_not (by simpa using hk), Option.none_or, Option.some_or]

theorem checkSubframe_badGain {k : Nat} {s : State} (hbw : s.cfg.bw ≠ 3) (hk : k < s.cfg.numSubfr)
    (hgain : ¬ legalGain (s.gainOf k) = true) : checkSubframe k s = some .badGain := by
  rw [checkSubframe, checkBandwidth_legal hbw, require_eq_none.mpr (decide_eq_true hk), require_of_not hgain,
    Option.none_or, Option.none_or]

/-- Settles O15: the three commands make the checks of a subframe, and each check decides once those before it pass. -/
theorem subframeCommandsRejectInOrder : Obligations.SubframeCommandsRejectInOrder := by
  intro s k i hi hb
  have hchk : checkOf i s = checkSubframe k s := by obtain rfl | rfl | rfl := hi <;> rfl
  refine ⟨fun hbw => ?_, fun hbw hk => ?_, fun hbw hk hgain => ?_⟩
  · exact rejects_of_check (e := .badCfg) hb (hchk.trans (checkSubframe_badCfg k hbw))
  · exact rejects_of_check (e := .badArg) hb (hchk.trans (checkSubframe_badArg hbw hk))
  · refine rejects_of_check (e := .badGain) hb (hchk.trans (checkSubframe_badGain hbw hk fun hlegal => ?_))
    rw [legalGain_iff] at hlegal
    omega

/-! ## Commands without an operand -/

/-- The commands with an opcode of format `N` have no operand (30_encoding.md R91, R93). -/
theorem operand_of_formatN {i : Instr} (h : i.opcode.toNat ∈ formatNOpcodes) : i.operand = 0 := by
  cases i with
  | rdIcdf | rdBits | rdBitlogp | lpcSynth | gainScale | synSubfr => simp [Instr.opcode, formatNOpcodes] at h
  | _ => rfl

/-- An opcode of format `N` is that of one command: the word is the opcode and zeros. -/
theorem eq_of_opcode_of_formatN {i : Instr} (hi : i.opcode.toNat ∈ formatNOpcodes) (j : Instr)
    (h : j.opcode.toNat = i.opcode.toNat) : j = i := by
  have hi0 := operand_of_formatN hi
  have hj0 := operand_of_formatN (h ▸ hi)
  have hword : encode j = encode i := by rw [encode, encode, hi0, hj0, BitVec.eq_of_toNat_eq h]
  have hdecode {n : Instr} (hn : n.operand = 0) : decode (encode n) = .ok n :=
    encodeThenDecodeGivesTheCommand n (by simp [Instr.wellFormed, hn])
  exact Except.ok.inj ((hdecode hj0).symm.trans (hword ▸ hdecode hi0))

/-- On an idle block every other word with the opcode of a command of format `N` is rejected with ILLCMD. -/
theorem rejectsWord_of_formatN {i : Instr} (hi : i.opcode.toNat ∈ formatNOpcodes) {w : Word} {s : State}
    (hop : w.toNat % 256 = i.opcode.toNat) (hne : w ≠ encode i) (hb : s.busy = false) : RejectsWord w 0x01 s := by
  intro lat
  obtain ⟨x, hx⟩ := decode_error_of_opcode (eq_of_opcode_of_formatN hi) hop hne
  rw [writeCmd_illegal hx, hb, raise_eq_recorded]
  rfl

/-- Settles O33: an idle block accepts GAIN_DEQ, whose work is the four lookups. -/
theorem gainDeqLooksUpFourGains : Obligations.GainDeqLooksUpFourGains := by
  refine ⟨rfl, fun w s hop hne hb => rejectsWord_of_formatN (i := .gainDeq) (by decide) hop hne hb,
    fun s hb htrom => ⟨_, exec_eq_worked_of_tromWf ⟨hb, rfl⟩ htrom, ?_, fun k => ?_⟩⟩
  · simp only [State.worked, workOf, gainDeq, State.completed, pending_of_idle hb]
  · have hgain : (s.worked .gainDeq).gain[k] = gainTable s.mem (s.loggain[k]).toNat := Vector.getElem_map ..
    rw [hgain]
    exact toNat_wordOfBytes _ _ _ _

/-- Settles O37: an idle block accepts SYN_RESET, whose work is the filter state. -/
theorem synResetClearsTheFilterState : Obligations.SynResetClearsTheFilterState := by
  refine ⟨rfl, fun w s hop hne hb => rejectsWord_of_formatN (i := .synReset) (by decide) hop hne hb, fun s hb => ?_⟩
  rw [exec_eq_worked ⟨hb, rfl⟩ fun _ => rfl]
  simp only [State.worked, workOf, synReset, State.completed, pending_of_idle hb]
  rfl

end Sys2Proof.Machine
end

section
/-! PREV_GAIN stays a legal gain (43_synthesis.md R196, 10_state.md R33). -/

namespace Sys2Proof.Machine

/-- The filter leaves the gain of its subframe in PREV_GAIN, a gain that its checks found legal. -/
theorem workOf_prevGainInv {i : Instr} {s : State} (hc : checkOf i s = none) (h : PrevGainInv s) :
    PrevGainInv (workOf i s) := by
  cases i with
  | lpcSynth k | synSubfr k =>
    obtain ⟨-, -, hgain⟩ := (checkSubframe_eq_none_iff k s).mp hc
    exact (legalGain_iff _).mpr hgain
  | synReset => exact (by decide : legalGain Config.unitGain = true)
  | _ => exact h

theorem raise_prevGainInv (e : ErrCode) (op : Byte) {s : State} (h : PrevGainInv s) : PrevGainInv (s.raise e op) := by
  rw [raise_eq_recorded]
  exact h

theorem PlainWrite.prevGainInv {s t : State} (hw : PlainWrite s t) (h : PrevGainInv s) : PrevGainInv t := by
  have hkept : t.prevGain = s.prevGain := congrArg ResultRegs.prevGain hw.results
  rwa [PrevGainInv, hkept]

/-- Settles O38: PREV_GAIN changes by a reset and by the work of a command that passed its checks alone. -/
theorem everyStepKeepsPrevGainLegal : Obligations.EveryStepKeepsPrevGainLegal := by
  intro s t h hstep
  obtain ⟨rest, heff⟩ := step_effect hstep
  have hu : PrevGainInv { s with schedule := rest } := h
  cases heff with
  | plain hw => exact hw.prevGainInv hu
  | raised e op => exact raise_prevGainInv e op hu
  | misread e op => exact raise_prevGainInv e op hu
  | driven => exact hu
  | drawn => exact hu
  | reset => exact (by decide : legalGain Config.unitGain = true)
  | accepted => exact hu
  | completed w i _ _ _ hc => exact workOf_prevGainInv hc hu
  | executed i _ ha => exact workOf_prevGainInv ((checkOf_accept _ i _).trans ha.2) hu

end Sys2Proof.Machine
end

section
/-! The synthesis filter over a subframe (43_synthesis.md R191 to R193), what LPC_SYNTH and GAIN_SCALE store (R194,
R201, R202), and SYN_SUBFR as the one after the other (R203). -/

namespace Sys2Proof.Machine

/-! ## Values of 32 bits -/

/-- A signed value of 32 bits (00_scope.md R11). -/
def Fits32 (v : Int) : Prop := -(2 ^ 31) ≤ v ∧ v < 2 ^ 31

theorem Fits32.zero : Fits32 0 := ⟨by decide, by decide⟩

theorem Fits32.toInt (w : Word) : Fits32 w.toInt := ⟨BitVec.le_toInt w, BitVec.toInt_lt⟩

theorem Fits32.addSat32 (a b : Int) : Fits32 (addSat32 a b) := by
  unfold Fits32 Machine.addSat32 sat32
  omega

theorem Fits32.toInt_ofInt {v : Int} (h : Fits32 v) : (BitVec.ofInt 32 v).toInt = v :=
  BitVec.toInt_ofInt_eq_self (by decide) h.1 h.2

/-- SMULWW wraps to 32 bits (00_scope.md R15). -/
theorem toInt_ofInt_smulww (a b : Int) : (BitVec.ofInt 32 (smulww a b)).toInt = smulww a b := by
  rw [BitVec.toInt_ofInt]
  exact Int.bmod_bmod

/-! ## The sequence of R192 -/

/-- The filter takes its samples in order. -/
theorem lpcFilter_append_singleton (coefs hist xs : List Int) (x : Int) :
    lpcFilter coefs hist (xs ++ [x]) =
      lpcSample coefs (lpcFilter coefs hist xs) x :: lpcFilter coefs hist xs := by
  induction xs generalizing hist with
  | nil => rfl
  | cons y ys ih => exact ih _

section

variable (coefs d : List Int) (x : Nat → Int)

/-- The delay line `d` and the outputs of the first `n` samples `x`, newest first (43_synthesis.md R192). -/
def lpcHistory (n : Nat) : List Int := lpcFilter coefs d ((List.range n).map x)

/-- The sequence `h` of R192 for a subframe of `n` samples: the delay line and the outputs, oldest first. -/
def lpcSequence (n m : Nat) : Int := (lpcHistory coefs d x n).getD (15 + n - m) 0

theorem lpcHistory_succ (n : Nat) :
    lpcHistory coefs d x (n + 1) = lpcSample coefs (lpcHistory coefs d x n) (x n) :: lpcHistory coefs d x n := by
  rw [lpcHistory, List.range_succ, List.map_append, List.map_singleton, lpcFilter_append_singleton]
  rfl

theorem length_lpcHistory (n : Nat) : (lpcHistory coefs d x n).length = d.length + n := by
  induction n with
  | zero => rfl
  | succ n ih => rw [lpcHistory_succ, List.length_cons, ih, Nat.add_assoc]

/-- Later samples are put before the history. -/
theorem getD_lpcHistory_add (i n j : Nat) :
    (lpcHistory coefs d x (i + n)).getD (n + j) 0 = (lpcHistory coefs d x i).getD j 0 := by
  induction n with
  | zero => rw [Nat.zero_add, Nat.add_zero]
  | succ n ih => rw [← Nat.add_assoc, lpcHistory_succ, Nat.add_right_comm n 1 j, List.getD_cons_succ, ih]

/-- The value `j` places before the newest one of the first `i` samples. -/
theorem lpcSequence_sub {n i j : Nat} (hi : i ≤ n) (hj : j ≤ 15 + i) :
    lpcSequence coefs d x n (15 + i - j) = (lpcHistory coefs d x i).getD j 0 := by
  obtain ⟨k, rfl⟩ := Nat.exists_eq_add_of_le hi
  rw [lpcSequence, show 15 + (i + k) - (15 + i - j) = k + j by omega, getD_lpcHistory_add]

/-- The sequence begins with the delay line. -/
theorem lpcSequence_delayLine (n : Nat) {m : Nat} (hm : m < 16) :
    lpcSequence coefs d x n m = d.getD (15 - m) 0 := by
  have h := lpcSequence_sub coefs d x (Nat.zero_le n) (show 15 - m ≤ 15 + 0 by omega)
  rwa [show 15 + 0 - (15 - m) = m by omega] at h

/-- Output `i` is the filter's sample over the history before it. -/
theorem lpcSequence_output {n i : Nat} (hi : i < n) :
    lpcSequence coefs d x n (16 + i) = lpcSample coefs (lpcHistory coefs d x i) (x i) := by
  have h := lpcSequence_sub coefs d x (Nat.succ_le_of_lt hi) (Nat.zero_le _)
  rwa [lpcHistory_succ, List.getD_cons_zero, show 15 + (i + 1) - 0 = 16 + i by omega] at h

/-- Where the delay line fits in 32 bits, so does all of the history: the outputs saturate (43_synthesis.md R193). -/
theorem fits32_lpcHistory (hd : ∀ v ∈ d, Fits32 v) (n : Nat) : ∀ v ∈ lpcHistory coefs d x n, Fits32 v := by
  induction n with
  | zero => exact hd
  | succ n ih =>
    rw [lpcHistory_succ, List.forall_mem_cons]
    exact ⟨Fits32.addSat32 _ _, ih⟩

theorem fits32_lpcSequence (hd : ∀ v ∈ d, Fits32 v) (n m : Nat) : Fits32 (lpcSequence coefs d x n m) := by
  by_cases hm : 15 + n - m < (lpcHistory coefs d x n).length
  · rw [lpcSequence, List.getD_eq_getElem _ _ hm]
    exact fits32_lpcHistory coefs d x hd n _ (List.getElem_mem hm)
  · rw [lpcSequence, List.getD_eq_default _ _ (not_lt.mp hm)]
    exact .zero

end

/-- The prediction over a history that the sequence `h` lists, newest first (43_synthesis.md R193). -/
theorem lpcPredict_eq_predictAt {order i : Nat} {a h : Nat → Int} {hist : List Int} (hlen : order ≤ hist.length)
    (hh : ∀ j < order, h (16 + i - 1 - j) = hist.getD j 0) :
    lpcPredict ((List.range order).map a) hist = predictAt order a h i := by
  have hzip : ((List.range order).map a).zip hist = (List.range order).map fun j => (a j, h (16 + i - 1 - j)) := by
    refine List.ext_getElem (by simpa using hlen) fun j hj _ => ?_
    have hj' : j < order := by simp at hj; omega
    have hvalue := (hh j hj').trans (List.getD_eq_getElem _ 0 (Nat.lt_of_lt_of_le hj' hlen))
    simp only [List.getElem_zip, List.getElem_map, List.getElem_range, hvalue]
  rw [lpcPredict, hzip, List.foldl_map, List.length_map, List.length_range]
  rfl

/-- R192 and R193: output `i` from its input and the `order` outputs before it. -/
theorem lpcSequence_recurrence {order n i : Nat} (a : Nat → Int) {d : List Int} (x : Nat → Int)
    (horder : order ≤ 16) (hd : d.length = 16) (hi : i < n) :
    let h := lpcSequence ((List.range order).map a) d x n
    h (16 + i) = addSat32 (x i) (lshiftSat32 (predictAt order a h i) 4) := by
  intro h
  have hlen : order ≤ (lpcHistory ((List.range order).map a) d x i).length := by rw [length_lpcHistory]; omega
  have hpredict := lpcPredict_eq_predictAt (i := i) (a := a) (h := h) hlen fun j hj =>
    (congrArg h (by omega)).trans (lpcSequence_sub _ d x (Nat.le_of_lt hi) (show j ≤ 15 + i by omega))
  rw [← hpredict]
  exact lpcSequence_output _ d x hi

/-! ## The inputs of the filter, by the elements of the buffers -/

/-- The filter input of a subframe (43_synthesis.md R191). -/
theorem filterInput_eq (k : Nat) (s : State) : filterInput k s = (List.range s.cfg.subfrLen).map (s.inputAt k) := by
  have hexc : s.mem.words (Buffer.exc.base + 4 * (k * s.cfg.subfrLen)) s.cfg.subfrLen =
      (List.range s.cfg.subfrLen).map fun i => s.elem32 .exc (k * s.cfg.subfrLen + i) :=
    List.map_congr_left fun i _ => by rw [State.elem32, Nat.mul_add, Nat.add_assoc]
  rw [filterInput, hexc]
  unfold State.inputAt
  split
  · simp only [Memory.words, List.zipWith_map, List.zipWith_self]
    rfl
  · rfl

/-- The coefficients of a subframe (43_synthesis.md R193). -/
theorem lpcCoefs_eq (k : Nat) (s : State) :
    lpcCoefs k s = (List.range s.cfg.order).map fun j => s.elem16 .lpca (16 * k + j) :=
  List.map_congr_left fun j _ => by rw [State.elem16, Nat.mul_add, ← Nat.mul_assoc, ← Nat.add_assoc]

theorem order_le (cfg : Cfg) : cfg.order ≤ 16 := by
  unfold Cfg.order
  split <;> decide

@[simp] theorem length_delayLine (s : State) : s.delayLine.length = 16 := by simp [State.delayLine]

theorem fits32_delayLine (s : State) : ∀ v ∈ s.delayLine, Fits32 v := by
  intro v hv
  obtain ⟨w, -, rfl⟩ := List.mem_map.mp (List.mem_reverse.mp hv)
  exact .toInt w

/-- The delay line newest first: SLPC15 is its first element (10_state.md R40). -/
theorem getD_delayLine (s : State) (j : Fin 16) : s.delayLine.getD (15 - j) 0 = s.slpc[j].toInt := by
  have hj := j.isLt
  rw [List.getD_eq_getElem _ _ (by rw [length_delayLine]; omega)]
  simp [State.delayLine, show 15 - (15 - j.val) = j by omega]

/-- The factor of the rescale, 1.0 for equal gains (43_synthesis.md R196). -/
theorem gainAdjust_eq_adjustFor (k : Nat) (s : State) : gainAdjust s.prevGain (s.gainOf k) = s.adjustFor k := ite_not ..

/-- The delay line after the rescale (43_synthesis.md R196). -/
theorem rescale_slpc (k : Nat) (s : State) (j : Fin 16) :
    ((rescale (s.gainOf k) s).slpc[j]).toInt = s.rescaledSlpc k j := by
  rw [State.rescaledSlpc, rescale]
  by_cases hg : s.gainOf k = s.prevGain
  · simp only [hg, ne_eq, not_true_eq_false, if_false, if_true]
  · have hmap (f : Word → Word) : (s.slpc.map f)[j] = f s.slpc[j] := Vector.getElem_map ..
    simp only [hg, ne_eq, not_false_eq_true, if_false, if_true, gainAdjust, hmap, toInt_ofInt_smulww]

/-! ## LPC_SYNTH -/

/-- The sequence `h` of R192 for subframe `k`. -/
def State.filterSequence (s : State) (k : Nat) : Nat → Int :=
  lpcSequence (lpcCoefs k s) (rescale (s.gainOf k) s).delayLine (s.inputAt k) s.cfg.subfrLen

theorem fits32_filterSequence (s : State) (k m : Nat) : Fits32 (s.filterSequence k m) :=
  fits32_lpcSequence _ _ _ (fits32_delayLine _) _ _

/-- The history that the filter of subframe `k` leaves. -/
def State.filterHistory (s : State) (k : Nat) : List Int :=
  lpcHistory (lpcCoefs k s) (rescale (s.gainOf k) s).delayLine (s.inputAt k) s.cfg.subfrLen

/-- LPC_SYNTH in terms of the history that its filter leaves (43_synthesis.md R201). -/
theorem lpcSynth_eq (k : Nat) (s : State) : lpcSynth k s = { rescale (s.gainOf k) s with
    mem := s.mem.storeWords Buffer.lpcout.base (padZero 80 ((s.filterHistory k).take s.cfg.subfrLen).reverse)
    slpc := slpcOf (s.filterHistory k) } := by
  have hinput : filterInput k (rescale (s.gainOf k) s) = _ := filterInput_eq k s
  rw [lpcSynth, hinput]
  rfl

theorem length_filterHistory (s : State) (k : Nat) : (s.filterHistory k).length = 16 + s.cfg.subfrLen := by
  rw [State.filterHistory, length_lpcHistory, length_delayLine]

/-- What LPC_SYNTH stores of its outputs: the end of the sequence, oldest first (43_synthesis.md R192). -/
theorem getD_outputs (s : State) (k : Nat) {i : Nat} (hi : i < s.cfg.subfrLen) :
    ((s.filterHistory k).take s.cfg.subfrLen).reverse.getD i 0 = s.filterSequence k (16 + i) := by
  have hlen := length_filterHistory s k
  have hcount : ((s.filterHistory k).take s.cfg.subfrLen).length = s.cfg.subfrLen := by
    rw [List.length_take]
    omega
  have hplace : 15 + s.cfg.subfrLen - (16 + i) = s.cfg.subfrLen - 1 - i := by omega
  have hsequence : s.filterSequence k (16 + i) = (s.filterHistory k).getD (s.cfg.subfrLen - 1 - i) 0 :=
    congrArg (List.getD (s.filterHistory k) · 0) hplace
  rw [hsequence, List.getD_eq_getElem _ _ (by rw [List.length_reverse]; omega), List.getElem_reverse,
    List.getElem_take, List.getD_eq_getElem _ _ (by omega)]
  simp only [hcount]

/-- LPCOUT after the filter: the outputs, zeros beyond the subframe (43_synthesis.md R201). -/
theorem lpcSynth_lpcout (k : Nat) (s : State) :
    (∀ i < s.cfg.subfrLen, (lpcSynth k s).elem32 .lpcout i = s.filterSequence k (16 + i)) ∧
    ∀ i, s.cfg.subfrLen ≤ i → i < 80 → (lpcSynth k s).elem32 .lpcout i = 0 := by
  have hsub := subfrLen_le s.cfg
  have hlen := length_filterHistory s k
  have hcount : ((s.filterHistory k).take s.cfg.subfrLen).reverse.length = s.cfg.subfrLen := by
    rw [List.length_reverse, List.length_take]
    omega
  have hpad := length_padZero (hcount.trans_le hsub)
  rw [lpcSynth_eq]
  refine ⟨fun i hi => ?_, fun i hi hi' => ?_⟩
  · obtain ⟨hlo, hhi⟩ := fits32_filterSequence s k (16 + i)
    refine word_storeWords_of_range _ _ (by omega) ?_ hlo hhi
    rw [getD_padZero_lt (by omega), getD_outputs s k hi]
  · exact word_storeWords_of_range _ _ (by omega) (getD_padZero_ge (by omega)) (by decide) (by decide)

/-- The delay line after the filter: the last 16 of the sequence (43_synthesis.md R192). -/
theorem lpcSynth_slpc (k : Nat) (s : State) (j : Fin 16) :
    ((lpcSynth k s).slpc[j]).toInt = s.filterSequence k (s.cfg.subfrLen + j) := by
  have hj := j.isLt
  have hplace : 15 + s.cfg.subfrLen - (s.cfg.subfrLen + j.val) = 15 - j.val := by omega
  have hsequence : (s.filterHistory k).getD (15 - j.val) 0 = s.filterSequence k (s.cfg.subfrLen + j) :=
    congrArg (List.getD (s.filterHistory k) · 0) hplace.symm
  have hslpc : (lpcSynth k s).slpc[j] = BitVec.ofInt 32 ((s.filterHistory k).getD (15 - j.val) 0) := by
    rw [lpcSynth_eq]
    exact Vector.getElem_ofFn _
  rw [hslpc, hsequence, (fits32_filterSequence s k _).toInt_ofInt]

/-- A subframe command is accepted on an idle block for a ready subframe (43_synthesis.md R201). -/
theorem exec_subframe {i : Instr} {k : Nat} {s : State} (hi : i ∈ [.lpcSynth k, .gainScale k, .synSubfr k])
    (hb : s.busy = false) (hready : SubframeReady k s) : exec i s = .next (s.worked i) := by
  have hchk := (checkSubframe_eq_none_iff k s).mpr hready
  simp only [List.mem_cons, List.not_mem_nil, or_false] at hi
  obtain rfl | rfl | rfl := hi <;> exact exec_eq_worked ⟨hb, hchk⟩ fun _ => rfl

/-- Settles O34: the sequence is the history of the filter, oldest first. -/
theorem lpcSynthFiltersTheSubframe : Obligations.LpcSynthFiltersTheSubframe := by
  intro s k hb hready
  obtain ⟨houtputs, hzeros⟩ := lpcSynth_lpcout k s
  refine ⟨_, s.filterSequence k, exec_subframe (by simp) hb hready, ?_, fun j => ?_, fun i hi => ?_, houtputs, hzeros,
    lpcSynth_slpc k s, fun a => lpcSynth_read_outside k s⟩
  · rw [← gainAdjust_eq_adjustFor]
    simp only [State.worked, workOf, lpcSynth, rescale, State.completed, pending_of_idle hb]
  · rw [State.filterSequence, lpcSequence_delayLine _ _ _ _ j.isLt, getD_delayLine, rescale_slpc]
  · rw [State.filterSequence, lpcCoefs_eq]
    exact lpcSequence_recurrence _ _ (order_le s.cfg) (length_delayLine _) hi

/-! ## GAIN_SCALE -/

/-- A PCM sample saturates to 16 bits (43_synthesis.md R194). -/
theorem pcmSample_range (g : Word) (y : Int) : -(2 ^ 15) ≤ pcmSample g y ∧ pcmSample g y < 2 ^ 15 := by
  unfold pcmSample sat16
  omega

/-- Settles O35: the work stores one sample for each element of LPCOUT. -/
theorem gainScaleWritesTheSubframePcm : Obligations.GainScaleWritesTheSubframePcm := by
  intro s k hb hready
  refine ⟨_, exec_subframe (by simp) hb hready, ?_, fun i hi => ?_, fun a => gainScale_read_outside k s⟩
  · simp only [State.worked, workOf, gainScale, State.completed, pending_of_idle hb]
  · have haddr : Buffer.pcm.base + 2 * (k * s.cfg.subfrLen + i) = pcmBase k s.cfg + 2 * i := by
      rw [pcmBase, Nat.mul_add, Nat.add_assoc]
    obtain ⟨hlo, hhi⟩ := pcmSample_range (s.gainOf k) (s.elem32 .lpcout i)
    rw [State.elem16, haddr]
    refine half_storeHalves_of_range _ _ (by simpa using hi) ?_ hlo hhi
    exact (congrArg (List.getD · i 0) List.map_map).trans (getD_map_range _ hi)

/-! ## SYN_SUBFR -/

/-- Settles O36: the filter leaves the block idle and the subframe ready for the gain scaler. -/
theorem synSubfrIsLpcSynthThenGainScale : Obligations.SynSubfrIsLpcSynthThenGainScale := by
  intro s k hb hready
  have hidle : (s.worked (.lpcSynth k)).busy = false := hb
  have hready' : SubframeReady k (s.worked (.lpcSynth k)) := hready
  refine ⟨_, _, _, exec_subframe (by simp) hb hready, exec_subframe (by simp) hb hready,
    exec_subframe (by simp) hidle hready', rfl, ?_⟩
  exact BitVec.add_assoc s.cmdcnt 1 1

end Sys2Proof.Machine
end

section
/-! A command write while a command runs, the clearing of STATUS and the interrupt output (60_exceptions.md). -/

namespace Sys2Proof.Machine

/-- Settles O10: while a command runs no write of CMD is accepted, and of the grounds of a rejection CMDBUSY is first. -/
theorem commandWhileBusyIsRejected : Obligations.CommandWhileBusyIsRejected := by
  intro s w lat rest hs hb
  have hna : ¬ (s.busy = false ∧ ∃ i, decode w = .ok i ∧ checkOf i s = none) := fun h => by simp [hb] at h
  obtain ⟨e, hstep, hbusy, -⟩ := rejectedCommandChangesOnlyTheErrorRecord s w lat rest hs hna
  obtain rfl := hbusy hb
  exact hstep

/-- The step of a write at the address of a register (20_memory.md R67). -/
theorem step_writeReg {s : State} {a : BusAddr} {d : Word} {lat : Latency} {rest : List Turn} {r : Reg}
    (hs : s.schedule = .write a d lat :: rest) (hr : regAt a.toNat = some r) :
    step s = ({ s with schedule := rest } : State).writeReg r d lat := by
  rw [step_cons hs, State.takeTurn, busWrite_reg d lat _ hr]

/-- Settles O51: a write of STATUS has no check before it. -/
theorem statusWriteClearsByOnes : Obligations.StatusWriteClearsByOnes := by
  intro s d lat rest hs
  rw [step_writeReg (r := .status) hs rfl, State.writeReg, writeStatus_eq]

/-- Settles O53: a write of IEN has no check before it and leaves the flags, and its bits 1 to 3 are the enables. -/
theorem interruptFollowsEnabledFlags : Obligations.InterruptFollowsEnabledFlags := by
  intro s d lat rest hs
  refine ⟨{ s with schedule := rest, ien := IntEnable.ofWord d }, ?_, rfl, rfl⟩
  rw [step_writeReg (r := .ien) hs rfl, State.writeReg]

end Sys2Proof.Machine
end

section
/-! LEN stays within the capacity and TROM well-formed (10_state.md R29, R51, R52). -/

namespace Sys2Proof.Machine

/-! ## LEN -/

/-- A write of LEN clamps (10_state.md R29), and no other write reaches it. -/
theorem storeReg_lenInv {r : Reg} {d : Word} {s : State} (h : LenInv s) : LenInv (s.storeReg r d) := by
  by_cases hr : r = .len
  · subst hr
    exact (BitVec.toNat_ofNat _ _).trans_le ((Nat.mod_le _ _).trans (Nat.min_le_right _ _))
  · rwa [LenInv, storeReg_len hr]

theorem PlainWrite.lenInv {s t : State} (hw : PlainWrite s t) (h : LenInv s) : LenInv t := by
  cases hw with
  | status d => rwa [writeStatus_eq]
  | data r d => exact storeReg_lenInv h
  | _ => exact h

theorem workOf_lenInv (i : Instr) {s : State} (h : LenInv s) : LenInv (workOf i s) := by
  rwa [LenInv, workOf_len]

theorem raise_lenInv (e : ErrCode) (op : Byte) {s : State} (h : LenInv s) : LenInv (s.raise e op) := by
  rwa [LenInv, State.raise_len]

/-- No step takes LEN past the capacity. -/
theorem step_lenInv {s t : State} (h : LenInv s) (hstep : step s = .next t) : LenInv t := by
  obtain ⟨rest, heff⟩ := step_effect hstep
  have hu : LenInv { s with schedule := rest } := h
  cases heff with
  | plain hw => exact hw.lenInv hu
  | raised e op => exact raise_lenInv e op hu
  | misread e op => exact raise_lenInv e op hu
  | reset => exact Nat.zero_le _
  | completed w i => exact workOf_lenInv i hu
  | executed i => exact workOf_lenInv i hu
  | _ => exact hu

/-! ## TROM -/

section
variable {m m' : Memory} (hsame : ∀ k < 1280, m'.read (0x2000 + k) = m.read (0x2000 + k))
include hsame

/-- Memories with the same TROM have the same tables. -/
theorem romTable_congr {off n : Nat} (hle : off + n ≤ 1280) : romTable m' off n = romTable m off n := by
  refine List.map_congr_left fun i hi => ?_
  have hlt := List.mem_range.mp hi
  rw [Nat.add_assoc]
  exact hsame (off + i) (by omega)

/-- The split tables end within TROM: `SHOFF(16) = 135` is the greatest offset. -/
theorem shellIcdf_congr {l j : Nat} (hl : l < 4) (hj : j < 16) : shellIcdf m' l (j + 1) = shellIcdf m l (j + 1) := by
  have hshoff : shOff (j + 1) ≤ 15 * 18 / 2 := Nat.div_le_div_right (Nat.mul_le_mul (by omega) (by omega))
  exact romTable_congr hsame (by omega)

theorem gainTable_congr {n : Nat} (hn : n < 64) : gainTable m' n = gainTable m n := by
  refine Memory.word_congr fun j hj => ?_
  rw [Nat.add_assoc, Nat.add_assoc]
  exact hsame (0x400 + (4 * n + j)) (by omega)

/-- Whether a TROM is well-formed depends on its 1280 bytes alone (10_state.md R52). -/
theorem tromWf_of_same (h : m.tromWf = true) : m'.tromWf = true := by
  have hsign (i : Nat) (hi : i < 42) : signIcdf m' i = signIcdf m i :=
    congrArg (· ++ [0#8]) (romTable_congr hsame (by omega))
  simp only [Memory.tromWf, Bool.and_eq_true, List.all_eq_true, List.mem_range] at h ⊢
  obtain ⟨⟨⟨⟨⟨⟨rate, pulse⟩, shell⟩, lsb⟩, seed⟩, sign⟩, gain⟩ := h
  refine ⟨⟨⟨⟨⟨⟨fun r hr => ?_, fun r hr => ?_⟩, fun l hl j hj => ?_⟩, ?_⟩, ?_⟩, fun i hi => ?_⟩, fun n hn => ?_⟩
  · exact (congrArg validIcdf (romTable_congr hsame (by omega))).trans (rate r hr)
  · exact (congrArg validIcdf (romTable_congr hsame (by omega))).trans (pulse r hr)
  · rw [shellIcdf_congr hsame hl hj]
    exact shell l hl j hj
  · exact (congrArg validIcdf (romTable_congr hsame (by decide))).trans lsb
  · exact (congrArg validIcdf (romTable_congr hsame (by decide))).trans seed
  · rw [hsign i hi]
    exact sign i hi
  · rw [gainTable_congr hsame hn]
    exact gain n hn

end

/-- No step makes TROM malformed, for none changes a byte of it. -/
theorem step_tromInv {s t : State} (h : TromInv s) (hstep : step s = .next t) : TromInv t :=
  tromWf_of_same (tromNeverChanges s t hstep) h

end Sys2Proof.Machine
end

section
/-! From a state that meets the invariants every step answers a next state that meets them (70_reset_and_hazards.md R269,
40_control.md R112). -/

namespace Sys2Proof.Machine

/-! ## Progress: neither a fault nor a refusal -/

/-- On a well-formed TROM no command is refused. -/
theorem effectOf_completes (i : Instr) {s : State} (htrom : TromInv s) : ∃ t, effectOf i s = .next t :=
  (effectOf_cases i s).resolve_right fun ⟨hbad, _⟩ => nomatch hbad.symm.trans htrom

theorem exec_completes (i : Instr) {s : State} (htrom : TromInv s) : ∃ t, exec i s = .next t := by
  rcases exec_cases i s with ⟨e, he, -⟩ | ⟨-, he⟩ <;> rw [he]
  · exact ⟨_, rfl⟩
  · exact effectOf_completes i (s := s.accept (encode i)) htrom

theorem writeCmd_completes (w : Word) (lat : Latency) {s : State} (htrom : TromInv s) :
    ∃ t, s.writeCmd w lat = .next t := by
  rcases writeCmd_cases w lat s with ⟨e, he⟩ | ⟨i, -, -, he⟩ | ⟨i, -, -, he⟩ <;> rw [he]
  · exact ⟨_, rfl⟩
  · exact exec_completes i htrom
  · exact ⟨_, rfl⟩

theorem busWrite_completes (a : BusAddr) (d : Word) (lat : Latency) {s : State} (htrom : TromInv s) :
    ∃ t, s.busWrite a d lat = .next t := by
  rcases busWrite_cases a d lat s with ⟨e, he⟩ | he | ⟨-, he⟩ | ⟨t, he, -⟩ <;> rw [he]
  · exact ⟨_, rfl⟩
  · exact ⟨_, rfl⟩
  · exact writeCmd_completes d lat htrom
  · exact ⟨_, rfl⟩

/-- A pending command that is acceptable completes at the engine's turn (40_control.md R112). -/
theorem engineTurn_completes {s : State} (hpend : PendingInv s) (htrom : TromInv s) : ∃ t, s.engineTurn = .next t := by
  cases hw : s.pending with
  | none => exact ⟨s, by simp [State.engineTurn, hw]⟩
  | some w =>
    obtain ⟨-, -, i, hd, hc⟩ := hpend w hw
    rw [engineTurn_of_pending hw hd hc]
    exact effectOf_completes i htrom

theorem takeTurn_completes (turn : Turn) {s : State} (hpend : PendingInv s) (htrom : TromInv s) :
    ∃ t, s.takeTurn turn = .next t := by
  cases turn with
  | read a => exact ⟨_, rfl⟩
  | write a d lat => exact busWrite_completes a d lat htrom
  | reset => exact ⟨_, rfl⟩
  | engine => exact engineTurn_completes hpend htrom

/-- Every step of a state with an acceptable pending command and a well-formed TROM answers a next state. -/
theorem step_completes {s : State} (hpend : PendingInv s) (htrom : TromInv s) : ∃ t, step s = .next t := by
  cases hs : s.schedule with
  | nil =>
    rw [step_nil hs]
    exact engineTurn_completes hpend htrom
  | cons turn rest =>
    rw [step_cons hs]
    exact takeTurn_completes turn (pendingInv_schedule hpend rest) htrom

/-! ## Preservation -/

/-- Every step keeps every invariant. -/
theorem step_inv {s t : State} (h : Inv s) (hstep : step s = .next t) : Inv t where
  range := everyStepKeepsTheRangeDecoderInRange s t h.range hstep
  error := everyStepKeepsErrcodeZeroWithoutError s t h.error hstep
  pending := everyStepKeepsThePendingCommandAcceptable s t h.pending hstep
  prevGain := everyStepKeepsPrevGainLegal s t h.prevGain hstep
  len := step_lenInv h.len hstep
  memory := everyStepKeepsTheMemoryCanonical s t h.memory hstep
  trom := step_tromInv h.trom hstep

/-- Settles O59: of the invariants the acceptable pending command and the well-formed TROM make the step answer a next
state, which keeps them all. -/
theorem everyStepCompletesAndKeepsTheInvariants : Obligations.EveryStepCompletesAndKeepsTheInvariants := by
  intro s h
  obtain ⟨t, ht⟩ := step_completes h.pending h.trom
  exact ⟨t, ht, step_inv h ht⟩

end Sys2Proof.Machine
end

section
/-! The bitstream and LEN are locked while RDV = 1 (70_reset_and_hazards.md R276, 20_memory.md R67). -/

namespace Sys2Proof.Machine

/-- The host writes BSBUF only while RDV = 0. -/
theorem PlainWrite.read_bsbuf {s t : State} (hw : PlainWrite s t) (hv : s.status.rdv = true) {k : Nat}
    (hk : k < 1280) : t.mem.read (0x1000 + k) = s.mem.read (0x1000 + k) := by
  cases hw with
  | status d => rw [writeStatus_eq]
  | data r d => rw [storeReg_mem]
  | buffer b a d _ _ hlock _ hlo hhi =>
    have outside : Outside a 4 (0x1000 + k) := by
      unfold Outside
      cases b with
      | bsbuf => exact absurd hv (by simp [hlock rfl])
      | _ => simp only [Buffer.base, Buffer.size] at hlo hhi; omega
    exact (read_store_word s.mem a d).2 _ outside
  | _ => rfl

/-- Settles O25: the host's writes of LEN and BSBUF are rejected, no command writes either, and a reset ends RDV = 1. -/
theorem bitstreamIsLockedWhileValid : Obligations.BitstreamIsLockedWhileValid := by
  intro s t hstep hs ht
  obtain ⟨rest, heff⟩ := step_effect hstep
  have work (i : Instr) (u : State) :
      (workOf i u).len = u.len ∧ ∀ k < 1280, (workOf i u).mem.read (0x1000 + k) = u.mem.read (0x1000 + k) :=
    ⟨workOf_len i u, fun k hk => workOf_read_below_pulses i u (show 0x1000 + k < 0x3000 by omega)⟩
  cases heff with
  | plain hw =>
    obtain ⟨-, -, hlen⟩ := hw.rangeDecoder
    exact ⟨hlen hs, fun k hk => hw.read_bsbuf hs hk⟩
  | reset => cases ht
  | completed w i => exact work i _
  | executed i => exact work i (State.accept _ _)
  | _ => simp

end Sys2Proof.Machine
end

section
/-! The reset (70_reset_and_hazards.md R260, R261, 10_state.md R22). -/

namespace Sys2Proof.Machine

/-! ## The buffers -/

/-- TROM is the region 0x2000 to 0x24FF (20_memory.md R61). -/
theorem trom_covers_iff (a : Nat) : Buffer.trom.covers a = true ↔ 0x2000 ≤ a ∧ a < 0x2500 := by
  rw [Buffer.covers, Bool.and_eq_true, decide_eq_true_eq, decide_eq_true_eq]
  rfl

/-- Outside TROM every byte is 0 at reset. -/
theorem defaultByte_outside_trom {a : Nat} (h : ¬ (0x2000 ≤ a ∧ a < 0x2500)) : defaultByte a = 0 := if_neg h

/-- A reset keeps TROM and clears every other byte. -/
theorem read_resetBuffers_eq (m : Memory) (a : Nat) :
    m.resetBuffers.read a = if 0x2000 ≤ a ∧ a < 0x2500 then m.read a else 0 := by
  rw [Memory.read_resetBuffers, if_congr (trom_covers_iff a) rfl rfl]
  split_ifs with h
  · rfl
  · exact defaultByte_outside_trom h

/-! ## The two resets -/

/-- A write of CTRL with bit 0 = 1 is a reset, any other has no effect (10_state.md R22). -/
theorem step_writeCtrl {s : State} {d : Word} {lat : Latency} {rest : List Turn}
    (hs : s.schedule = .write 0x0004#16 d lat :: rest) :
    step s = .next (if d.getLsbD 0 then ({ s with schedule := rest } : State).resetBlock
      else { s with schedule := rest }) := by
  rw [step_cons hs, State.takeTurn, busWrite_ctrl]

/-- Settles O54: both resets are the reset of the block, in any state. -/
theorem resetClearsEverythingButTrom : Obligations.ResetClearsEverythingButTrom := by
  intro s d lat rest
  refine ⟨fun h => ⟨({ s with schedule := rest } : State).resetBlock, ?_, rfl, read_resetBuffers_eq s.mem⟩,
    fun hs hd => ?_⟩
  · obtain hs | ⟨hs, hd⟩ := h
    · rw [step_cons hs, State.takeTurn]
    · rw [step_writeCtrl hs, if_pos hd]
  · rw [step_writeCtrl hs, hd]
    rfl

/-! ## The state after reset -/

/-- Settles O55: the arrays hold one value throughout, and the memory lists no byte. -/
theorem resetValuesOfTheRegisters : Obligations.ResetValuesOfTheRegisters := by
  refine ⟨fun r => ?_, rfl, rfl, fun a ha => defaultByte_outside_trom ha⟩
  cases r with
  | gain k => exact Vector.getElem_replicate k.isLt
  | loggain k => exact congrArg (BitVec.setWidth 32) (Vector.getElem_replicate k.isLt)
  | slpc j => exact Vector.getElem_replicate j.isLt
  | _ => rfl

/-- Settles O60: RDV, ERR and PENDING are 0, the gain is 1.0, the memory lists no byte, and the TROM contents of
Machine/Rom.lean are evaluated. -/
theorem resetMeetsTheInvariants : Obligations.ResetMeetsTheInvariants where
  range := nofun
  error := fun _ => ⟨rfl, rfl, rfl⟩
  pending := pendingInv_of_pending_none rfl
  prevGain := (by decide : legalGain Config.unitGain = true)
  len := Nat.zero_le _
  memory := rfl
  trom := (by decide +kernel : Memory.tromWf [] = true)

end Sys2Proof.Machine
end
